-- ==== Sys2Proof/Word.lean ====
section
/-!
DEFINITION. The word types: a byte (00_scope.md rule R11), a 32-bit register or bus word (rule R10), and a block
register of four words (10_state.md rules R38 to R40, R45). How bytes are packed into a block register is in
Machine/Operands.lean.
-/
namespace Sys2Proof

/-- A byte of data memory or of a byte sequence (rule R11). -/
abbrev Byte := BitVec 8

/-- A register, bus word or address: an unsigned 32-bit number (rule R10). -/
abbrev Word := BitVec 32

/-- The number of byte addresses of the data memory, 2^32 (20_memory.md rule R50). -/
abbrev addrSpace : Nat := 4294967296

/-- A 16-byte register array as its four 32-bit register words, word 0 at the lowest offset
(10_state.md rules R38, R39, R40: KEY0 to KEY3, IV0 to IV3, CHAIN0 to CHAIN3). -/
structure Reg128 where
  w0 : Word
  w1 : Word
  w2 : Word
  w3 : Word
  deriving DecidableEq, Repr

end Sys2Proof
end

