-- ==== Sys2Proof/Config.lean ====
section
/-!
DEFINITION. What an implementation or a platform fixes (00_scope.md rule R8, 92_eei_decisions.md "OPEN parameters"),
and the free values. The parameters that are plain data are a structure, held in State and never changed by a step;
the ciphers and the draws are opaque constants with no body.
-/
namespace Sys2Proof

/-- The kind of a data-memory access (20_memory.md rule R57). -/
inductive Access where
  | read
  | write
  deriving DecidableEq, Repr

/-- A range of data-memory addresses, both ends included, whose accesses of one kind the platform cannot serve. -/
structure NoAccess where
  lo : Nat
  hi : Nat
  kind : Access
  deriving DecidableEq, Repr

/-- Which cipher units are present (rule R8, HAS_C128 and HAS_C64): at least one of them is. -/
inductive CipherUnits where
  | both
  | c128Only
  | c64Only
  deriving DecidableEq, Repr

/-- The implementation and platform parameters (rule R8): which units are present, where the register window sits
(10_state.md rule R18), and which accesses fail, that is where the oracle `MemOK` of 20_memory.md rule R57 is false. -/
structure Params where
  units : CipherUnits
  hasRng : Bool
  regBase : Word
  noAccess : List NoAccess
  deriving DecidableEq, Repr

/-- The parameters of the reset state. Presence is rule R8's default; DESIGN CHOICE (log entry 6): the window at
address 0 and no failing address, for which the spec gives no value. -/
def Params.default : Params :=
  { units := .both, hasRng := true, regBase := 0, noAccess := [] }

/-- HAS_C128 (rule R8). -/
def Params.hasC128 (p : Params) : Bool := p.units != .c64Only

/-- HAS_C64 (rule R8). -/
def Params.hasC64 (p : Params) : Bool := p.units != .c128Only

/-- C128, keyed (00_scope.md rules R6, R7): for every 16-byte key a permutation of the 16-byte blocks, Enc128 its
forward and Dec128 its inverse direction. No body: nothing can compute a ciphertext (log entry 5). -/
opaque Config.cipher128 : Vector Byte 16 → Equiv.Perm (Vector Byte 16)

/-- C64, keyed (rules R6, R7), as `Config.cipher128` with 8-byte keys and blocks. -/
opaque Config.cipher64 : Vector Byte 8 → Equiv.Perm (Vector Byte 8)

/-- The free values: the n-th draw of the run (00_scope.md glossary "draw"; 43_cbc.md rule R141; 93 "any value").
No body: nothing constrains it (log entry 4). -/
opaque Config.draw : Nat → Byte

end Sys2Proof
end

