-- ==== Sys2Proof/Syntax.lean ====
section
/-!
DEFINITION. The commands: one constructor of `Instr` per row of spec/opcode_table.json (30_encoding.md rules R69,
R74, R77). CSEL is the cipher argument, PADF the Bool of the four mode operations; NOP has neither, PAD, UNPAD and
GEN_IV have no PADF (rule R73).
-/
namespace Sys2Proof

/-- The cipher primitives selected by CSEL (00_scope.md rule R6, 30_encoding.md rule R70). -/
inductive Cipher where
  | c128
  | c64
  deriving DecidableEq, Repr

/-- A command (30_encoding.md rule R69). -/
inductive Instr where
  /-- NOP, 40_command_lifecycle.md rule R93 -/
  | nop
  /-- PAD, 41_padding.md rule R105 -/
  | pad (c : Cipher)
  /-- UNPAD, 41_padding.md rule R106 -/
  | unpad (c : Cipher)
  /-- ECB_ENC, 42_ecb.md rule R117 -/
  | ecbEnc (c : Cipher) (padf : Bool)
  /-- ECB_DEC, 42_ecb.md rule R119 -/
  | ecbDec (c : Cipher) (padf : Bool)
  /-- CBC_ENC, 43_cbc.md rule R129 -/
  | cbcEnc (c : Cipher) (padf : Bool)
  /-- CBC_DEC, 43_cbc.md rule R132 -/
  | cbcDec (c : Cipher) (padf : Bool)
  /-- GEN_IV, 43_cbc.md rule R140 -/
  | genIv (c : Cipher)
  deriving DecidableEq, Repr

/-- The cipher `OPC.c` of a command (30_encoding.md rule R77: CSEL = 0, so C128, for NOP). -/
def Instr.cipher : Instr → Cipher
  | .nop => .c128
  | .pad c => c
  | .unpad c => c
  | .ecbEnc c _ => c
  | .ecbDec c _ => c
  | .cbcEnc c _ => c
  | .cbcDec c _ => c
  | .genIv c => c

/-- The flag `OPC.padf` of a command (rule R77). -/
def Instr.padf : Instr → Bool
  | .nop => false
  | .pad _ => false
  | .unpad _ => false
  | .ecbEnc _ p => p
  | .ecbDec _ p => p
  | .cbcEnc _ p => p
  | .cbcDec _ p => p
  | .genIv _ => false

/-- CBC_ENC or CBC_DEC: the commands that need the IV and clear IV_WR (rules R83, R92). -/
def Instr.isCbc : Instr → Bool
  | .nop => false
  | .pad _ => false
  | .unpad _ => false
  | .ecbEnc _ _ => false
  | .ecbDec _ _ => false
  | .cbcEnc _ _ => true
  | .cbcDec _ _ => true
  | .genIv _ => false

/-- GEN_IV. -/
def Instr.isGenIv : Instr → Bool
  | .nop => false
  | .pad _ => false
  | .unpad _ => false
  | .ecbEnc _ _ => false
  | .ecbDec _ _ => false
  | .cbcEnc _ _ => false
  | .cbcDec _ _ => false
  | .genIv _ => true

end Sys2Proof
end

