-- ==== Sys2Proof/WellFormed.lean ====
section
/-!
DEFINITION. When a command is legal on an implementation, beyond the shape of its word: the last two conditions of
30_encoding.md rule R73. Everything else of that rule is decided by the decoder, since the syntax cannot write it.
-/
namespace Sys2Proof

/-- `cipher_present` (rule R73). -/
def Params.cipherPresent (p : Params) : Cipher → Bool
  | .c128 => p.hasC128
  | .c64 => p.hasC64

/-- A command can be executed by an implementation: its cipher is present (NOP selects none), and GEN_IV has a random
source (rule R73). -/
def Instr.wellFormed (p : Params) : Instr → Bool
  | .nop => true
  | .pad c => p.cipherPresent c
  | .unpad c => p.cipherPresent c
  | .ecbEnc c _ => p.cipherPresent c
  | .ecbDec c _ => p.cipherPresent c
  | .cbcEnc c _ => p.cipherPresent c
  | .cbcDec c _ => p.cipherPresent c
  | .genIv c => p.cipherPresent c && p.hasRng

end Sys2Proof
end

