-- ==== Sys2Proof/Decode.lean ====
section
/-!
DEFINITION. The decoder, total on every 32-bit word and rejecting by name (30_encoding.md rules R68 to R77), and the
encoder, written from the opcode map of rule R74. Presence of ciphers and of the random source, the rest of rule R73,
is `Instr.wellFormed`: `decodeFor` joins the two.
-/
namespace Sys2Proof

/-- Why a word is no command on any implementation (rule R75); all of them lead to IllegalCommand. -/
inductive Illegal where
  /-- a bit of RSVD, bits 31:6, is set (rule R72) -/
  | reservedBits
  /-- OP is 0x8 to 0xF (rule R69) -/
  | reservedOp
  /-- PADF = 1 on NOP, PAD, UNPAD or GEN_IV (rule R71) -/
  | padfNotAllowed
  /-- CSEL = 1 on NOP (rule R73) -/
  | cselNotAllowed
  deriving DecidableEq, Repr

/-- OP, bits 3:0 (rule R68). -/
def opField (w : Word) : Nat := (w.extractLsb' 0 4).toNat

/-- CSEL, bit 4 (rules R68, R70). -/
def cselField (w : Word) : Cipher := if w.getLsbD 4 then .c64 else .c128

/-- PADF, bit 5 (rules R68, R71). -/
def padfField (w : Word) : Bool := w.getLsbD 5

/-- RSVD, bits 31:6 (rules R68, R72). -/
def rsvdField (w : Word) : BitVec 26 := w.extractLsb' 6 26

/-- A command with no PADF form: refused when PADF is set. -/
def noPadf (w : Word) (i : Instr) : Except Illegal Instr :=
  if padfField w then .error .padfNotAllowed else .ok i

/-- The decoder (rule R77), up to the presence of units. -/
def decode (w : Word) : Except Illegal Instr :=
  if rsvdField w ≠ 0 then .error .reservedBits
  else match opField w with
    | 0 => if w.getLsbD 4 then .error .cselNotAllowed else noPadf w .nop
    | 1 => noPadf w (.pad (cselField w))
    | 2 => noPadf w (.unpad (cselField w))
    | 3 => .ok (.ecbEnc (cselField w) (padfField w))
    | 4 => .ok (.ecbDec (cselField w) (padfField w))
    | 5 => .ok (.cbcEnc (cselField w) (padfField w))
    | 6 => .ok (.cbcDec (cselField w) (padfField w))
    | 7 => noPadf w (.genIv (cselField w))
    | _ => .error .reservedOp

/-- The decoder of rule R77 for an implementation: `none` is its verdict Illegal. -/
def decodeFor (p : Params) (w : Word) : Option Instr :=
  match decode w with
  | .ok i => if i.wellFormed p then some i else none
  | .error _ => none

/-- CSEL of a cipher, in its place. -/
def cselBits : Cipher → Word
  | .c128 => 0x00#32
  | .c64 => 0x10#32

/-- PADF, in its place. -/
def padfBits (p : Bool) : Word := if p then 0x20#32 else 0x00#32

/-- The word of a command (rule R74). -/
def encode : Instr → Word
  | .nop => 0x00#32
  | .pad c => 0x01#32 ||| cselBits c
  | .unpad c => 0x02#32 ||| cselBits c
  | .ecbEnc c p => 0x03#32 ||| cselBits c ||| padfBits p
  | .ecbDec c p => 0x04#32 ||| cselBits c ||| padfBits p
  | .cbcEnc c p => 0x05#32 ||| cselBits c ||| padfBits p
  | .cbcDec c p => 0x06#32 ||| cselBits c ||| padfBits p
  | .genIv c => 0x07#32 ||| cselBits c

/-- The command that the decoder reads from a table word. A command is one 32-bit word written to CMD (rule R67), so
there is no byte order to lay out; bits at and above `nbits` are 0, and there is no command longer than 32 bits. -/
def decodeTableWord (nbits w : Nat) : Option Instr :=
  if nbits ≤ 32 then
    match decode (BitVec.ofNat 32 (w % 2 ^ nbits)) with
    | .ok i => some i
    | .error _ => none
  else none

end Sys2Proof
end

