-- ==== Sys2Proof/Machine/State.lean ====
section
/-!
DEFINITION. The state of the machine as plain data (10_state.md rules R17 to R49, 20_memory.md rule R50,
00_scope.md rule R5), the reasons a step can stop, and the reset state.
-/
namespace Sys2Proof.Machine

/-- The error codes of a completion (60_exceptions.md rule R143); codes 7 to 15 do not exist. -/
inductive ErrCode where
  | none
  | invalidPadding
  | invalidBlockAlignment
  | missingIV
  | illegalCommand
  | rangeError
  | busError
  deriving DecidableEq, Repr

/-- The engine's sequencer state SEQ (10_state.md rule R43). -/
inductive Seq where
  | idle
  | run
  | finish
  deriving DecidableEq, Repr

/-- The sticky FAULT set of 10_state.md rule R48, one Bool per reason. -/
structure FaultSet where
  hostBufferHazard : Bool
  partialOverlap : Bool
  deriving DecidableEq, Repr

/-- The empty FAULT set. -/
def FaultSet.empty : FaultSet := { hostBufferHazard := false, partialOverlap := false }

/-- The size of a register-bus transaction: 1, 2 or 4 bytes (10_state.md rule R17). -/
inductive BusSize where
  | b1
  | b2
  | b4
  deriving DecidableEq, Repr

/-- One atomic host transaction (10_state.md rule R17, 30_encoding.md rule R79). -/
inductive HostOp where
  /-- `RegWrite(off, size, data)`: a register write at an offset in the window -/
  | regWr (off : BitVec 8) (size : BusSize) (data : Word)
  /-- `RegRead(off, size)` -/
  | regRd (off : BitVec 8) (size : BusSize)
  /-- a bus write at a platform address, which reaches the block only inside the window at REG_BASE (rule R18) -/
  | busWr (addr : Word) (size : BusSize) (data : Word)
  /-- a bus read at a platform address -/
  | busRd (addr : Word) (size : BusSize)
  /-- `wait` of rule R79: read STATUS, and again at the next turn while bit 0 = 1 -/
  | wait
  /-- the host writes one byte of data memory -/
  | memWr (addr : Word) (data : Byte)
  /-- the host reads one byte of data memory -/
  | memRd (addr : Word)
  /-- the host samples the interrupt output (60_exceptions.md rule R155) -/
  | irqRd
  deriving DecidableEq, Repr

/-- What the host gets back for one transaction. -/
inductive BusResp where
  /-- a write was taken by the bus (also one that has no effect) -/
  | ack
  /-- the word a register read returned -/
  | data (w : Word)
  /-- the byte a data-memory read returned -/
  | byte (b : Byte)
  /-- the level of the interrupt output -/
  | irq (level : Bool)
  /-- the bus-error response of rule R18 -/
  | busError
  /-- the address is outside the register window: the transaction does not reach the block (rule R18) -/
  | unmapped
  deriving DecidableEq, Repr

/-- Who moves next (00_scope.md rules R5, R9): the host, the engine, or the reset input (rule R166). -/
inductive Agent where
  | host
  | engine
  | reset
  deriving DecidableEq, Repr

/-- Data memory: the bytes that differ from what an unlisted address reads as, by rising address. -/
abbrev Memory := List Host.Cell

/-- The state of the machine. -/
structure State where
  /-- the implementation and platform parameters, constant (00_scope.md rule R8) -/
  params : Params
  /-- CTRL.IRQ_EN (rule R23) -/
  irqEn : Bool
  /-- STATUS.DONE (rule R27) -/
  done : Bool
  /-- STATUS.ERR (rule R28) -/
  err : Bool
  /-- STATUS.WIGN (rule R29) -/
  wign : Bool
  /-- STATUS.ERRCODE (rule R28) -/
  errcode : ErrCode
  /-- STATUS.IV_WR (rule R30) -/
  ivWr : BitVec 4
  /-- SRC_ADDR (rule R32) -/
  srcAddr : Word
  /-- DST_ADDR (rule R33) -/
  dstAddr : Word
  /-- LEN (rule R34) -/
  len : Word
  /-- OUT_LEN (rule R35) -/
  outLen : Word
  /-- BLK_IDX (rule R36) -/
  blkIdx : Word
  /-- KEY0 to KEY3 (rule R38) -/
  key : Reg128
  /-- IV0 to IV3 (rule R39) -/
  iv : Reg128
  /-- CHAIN0 to CHAIN3 (rule R40) -/
  chain : Reg128
  /-- SEQ (rule R43); STATUS.BUSY is `State.busy` -/
  seq : Seq
  /-- OPC, the latched command (rule R44) -/
  opc : Instr
  /-- nblk of the latched command context (rules R44, R83) -/
  nblk : Nat
  /-- outlen of the latched command context (rules R44, R83) -/
  outlen : Nat
  /-- I, the block index (rule R46) -/
  blkI : Nat
  /-- LASTBLK (rule R45) -/
  lastBlk : Reg128
  /-- data memory (20_memory.md rule R50) -/
  mem : Memory
  /-- FAULT (rule R48) -/
  faultSet : FaultSet
  /-- the model's own: the running command's data is unspecified (rules R61, R62; log entries 11, 12) -/
  dstOpen : Bool
  /-- the model's own: how many free values have been drawn (log entry 4) -/
  draws : Nat
  /-- the model's own: the host transactions to come (log entry 7) -/
  hostProg : List HostOp
  /-- the model's own: the turns to come (log entry 7) -/
  sched : List Agent
  /-- the model's own: the responses the host has had, newest first (log entry 8) -/
  obs : List BusResp
  deriving DecidableEq, Repr

/-- Why the machine stops with a fault. -/
inductive Fault where
  /-- An engine access above address 2^32 - 1, which the data memory does not have (20_memory.md rule R50). Raised by
  the engine's block and UNPAD accesses. Acceptance excludes it (40_command_lifecycle.md rule R86), so no run reaches
  it: safe (log entry 18). -/
  | outsideAddressSpace
  deriving DecidableEq, Repr

/-- Why an instruction has no meaning. -/
inductive Refusal where
  /-- The instruction has no meaning in this model yet; raised only by an arm of `exec`. Safe. No arm does. -/
  | notModelled (mnemonic : String)
  deriving DecidableEq, Repr

/-- STATUS.BUSY: SEQ = IDLE exactly when BUSY = 0 (rules R26, R43). -/
def State.busy (s : State) : Bool := s.seq != .idle

/-- The reset state (rules R49, R166): the values of rule R49. DESIGN CHOICE for what it leaves unspecified: LASTBLK
is zero (log entry 2), OPC is NOP with nblk = outlen = 0 (log entry 3); no host transaction and no turn is pending
(log entry 7). -/
def State.reset : State :=
  { params := Params.default
    irqEn := false
    done := false
    err := false
    wign := false
    errcode := .none
    ivWr := 0
    srcAddr := 0
    dstAddr := 0
    len := 0
    outLen := 0
    blkIdx := 0
    key := ⟨0, 0, 0, 0⟩
    iv := ⟨0, 0, 0, 0⟩
    chain := ⟨0, 0, 0, 0⟩
    seq := .idle
    opc := .nop
    nblk := 0
    outlen := 0
    blkI := 0
    lastBlk := ⟨0, 0, 0, 0⟩
    mem := []
    faultSet := FaultSet.empty
    dstOpen := false
    draws := 0
    hostProg := []
    sched := []
    obs := [] }

/-- What a meaning or a step answers. -/
abbrev Result := Host.Outcome State Fault Refusal

end Sys2Proof.Machine
end

