-- ==== Sys2Proof/Machine/Operands.lean ====
section
/-!
DEFINITION. Operands and pure functions of the commands: block and key sizes, byte packing of the block registers
(20_memory.md rule R52), the cipher primitives (00_scope.md rule R6), the padding codec (41_padding.md rules R100,
R102), the quantities of 40_command_lifecycle.md rule R83 and the block functions (41 to 43).
-/
namespace Sys2Proof.Machine

/-- The block size `bs(c)` in bytes (00_scope.md rule R6). -/
def bs : Cipher → Nat
  | .c128 => 16
  | .c64 => 8

/-- The key size `ks(c)` in bytes (rule R6). -/
def ks : Cipher → Nat
  | .c128 => 16
  | .c64 => 8

/-- The word of four bytes, the first in bits 7:0 (rule R52; `le32` of 30_encoding.md rule R79). -/
def le32 (b0 b1 b2 b3 : Byte) : Word := b3 ++ b2 ++ b1 ++ b0

/-- Byte `j` of a word, bits 8j+7 to 8j (rule R52). -/
def wordByte (w : Word) (j : Nat) : Byte := w.extractLsb' (8 * j) 8

/-- The four bytes of a register word in ascending order (rule R52). -/
def wordBytes (w : Word) : List Byte := [wordByte w 0, wordByte w 1, wordByte w 2, wordByte w 3]

/-- The 16-byte array of a block register (rule R52). -/
def regBytes (r : Reg128) : List Byte := wordBytes r.w0 ++ wordBytes r.w1 ++ wordBytes r.w2 ++ wordBytes r.w3

/-- The word at byte `4k` of a byte sequence; bytes it does not have read 0. -/
def wordOfBytes (l : List Byte) (k : Nat) : Word :=
  le32 (l.getD (4 * k) 0) (l.getD (4 * k + 1) 0) (l.getD (4 * k + 2) 0) (l.getD (4 * k + 3) 0)

/-- The block register of 16 bytes (rule R52). -/
def regOfBytes (l : List Byte) : Reg128 := ⟨wordOfBytes l 0, wordOfBytes l 1, wordOfBytes l 2, wordOfBytes l 3⟩

/-- `R[0..len(l)) <- l`, the other bytes unchanged. -/
def setPrefix (r : Reg128) (l : List Byte) : Reg128 := regOfBytes (l ++ (regBytes r).drop l.length)

/-- `R[0..len(l)) <- l` and every later byte 0. -/
def zeroExtended (l : List Byte) : Reg128 := regOfBytes (l ++ List.replicate (16 - l.length) 0)

/-- Word `k` of a block register. -/
def regWord (r : Reg128) (k : Fin 4) : Word :=
  match k with
  | 0 => r.w0
  | 1 => r.w1
  | 2 => r.w2
  | 3 => r.w3

/-- A host write of word `k` of a block register. -/
def setRegWord (r : Reg128) (k : Fin 4) (w : Word) : Reg128 :=
  match k with
  | 0 => { r with w0 := w }
  | 1 => { r with w1 := w }
  | 2 => { r with w2 := w }
  | 3 => { r with w3 := w }

/-- The first `n` bytes of a byte sequence as a fixed-size block. -/
def toBlock (n : Nat) (l : List Byte) : Vector Byte n := Vector.ofFn fun j => l.getD j.val 0

/-- `Enc_c(k, x)` (00_scope.md rule R6). -/
def enc (c : Cipher) (k x : List Byte) : List Byte :=
  match c with
  | .c128 => (Config.cipher128 (toBlock 16 k) (toBlock 16 x)).toList
  | .c64 => (Config.cipher64 (toBlock 8 k) (toBlock 8 x)).toList

/-- `Dec_c(k, y)` (rules R6, R7). -/
def dec (c : Cipher) (k y : List Byte) : List Byte :=
  match c with
  | .c128 => ((Config.cipher128 (toBlock 16 k)).symm (toBlock 16 y)).toList
  | .c64 => ((Config.cipher64 (toBlock 8 k)).symm (toBlock 8 y)).toList

/-- The key passed to the primitive, `KEYB[0..ks(c))` (40_command_lifecycle.md rule R91). -/
def keyOf (c : Cipher) (key : Reg128) : List Byte := (regBytes key).take (ks c)

/-- The bytes `R[0..bs(c))` of a block register. -/
def blockOf (c : Cipher) (r : Reg128) : List Byte := (regBytes r).take (bs c)

/-- Bytewise exclusive-or (00_scope.md rule R11). -/
def xorBytes (a b : List Byte) : List Byte := List.zipWith (· ^^^ ·) a b

/-- `padlen(L, b) = b - (L mod b)` (rule R83). -/
def padlen (l b : Nat) : Nat := b - l % b

/-- `pad(data, b)` (41_padding.md rule R100). -/
def pad (data : List Byte) (b : Nat) : List Byte :=
  data ++ List.replicate (padlen data.length b) (BitVec.ofNat 8 (padlen data.length b))

/-- `unpad(p, b)` (41_padding.md rule R102); `none` is InvalidPadding. -/
def unpad (p : List Byte) (b : Nat) : Option (List Byte) :=
  if p.length = 0 then none
  else
    let n := (p.getD (p.length - 1) 0).toNat
    if n = 0 ∨ b < n ∨ p.length < n then none
    else if (p.drop (p.length - n)).all (· == BitVec.ofNat 8 n) then some (p.take (p.length - n))
    else none

/-- `unpad_check_block(t, nblk, b)` (rule R102); `none` is Invalid. -/
def unpadCheckBlock (t : List Byte) (nblk b : Nat) : Option Nat :=
  if nblk = 0 then none
  else
    let n := (t.getD (b - 1) 0).toNat
    if n = 0 ∨ b < n then none
    else if ((t.take b).drop (b - n)).all (· == BitVec.ofNat 8 n) then some n
    else none

/-- The commands whose input stream is `pad(src, b)` (20_memory.md rule R53): PAD, and ECB_ENC and CBC_ENC with
PADF = 1 (30_encoding.md rule R71). -/
def padsInput : Instr → Bool
  | .nop => false
  | .pad _ => true
  | .unpad _ => false
  | .ecbEnc _ p => p
  | .ecbDec _ _ => false
  | .cbcEnc _ p => p
  | .cbcDec _ _ => false
  | .genIv _ => false

/-- The derived quantities of an accepted command (rule R83). -/
structure Derived where
  aligned : Bool
  needsIV : Bool
  nblk : Nat
  outlen : Nat
  usesSrc : Bool
  writesDst : Bool
  deriving DecidableEq, Repr

/-- A command that writes its aligned input block for block: `nblk = L div b`. -/
def derivedAligned (c : Cipher) (cbc : Bool) (l : Nat) : Derived :=
  { aligned := true, needsIV := cbc, nblk := l / bs c, outlen := l, usesSrc := true, writesDst := true }

/-- A command that writes its padded input block for block: `nblk = (L + padlen) div b`. -/
def derivedPadded (c : Cipher) (cbc : Bool) (l : Nat) : Derived :=
  { aligned := false, needsIV := cbc, nblk := (l + padlen l (bs c)) / bs c, outlen := l + padlen l (bs c),
    usesSrc := true, writesDst := true }

/-- A command that uses no buffer (NOP, GEN_IV). -/
def derivedNoBuffer : Derived :=
  { aligned := false, needsIV := false, nblk := 0, outlen := 0, usesSrc := false, writesDst := false }

/-- The table of rule R83, row by row. For the unpadding forms `outlen` is known only at the finish step; until then
it holds LEN, which nothing reads. -/
def derive (i : Instr) (l : Nat) : Derived :=
  match i with
  | .nop => derivedNoBuffer
  | .pad c => derivedPadded c false l
  | .unpad _ => { aligned := true, needsIV := false, nblk := 0, outlen := l, usesSrc := true, writesDst := false }
  | .ecbEnc c p => if p then derivedPadded c false l else derivedAligned c false l
  | .ecbDec c _ => derivedAligned c false l
  | .cbcEnc c p => if p then derivedPadded c true l else derivedAligned c true l
  | .cbcDec c _ => derivedAligned c true l
  | .genIv _ => derivedNoBuffer

/-- A block function `blockfn` (40_command_lifecycle.md rule R88): from KEY, CHAIN and the input block to the output
block and the next CHAIN. -/
abbrev BlockFn := Reg128 → Reg128 → List Byte → List Byte × Reg128

/-- `blockfn(PAD, x)` (41_padding.md rule R105). -/
def padBlock : BlockFn := fun _ chain x => (x, chain)

/-- `blockfn(ECB_ENC, x)` (42_ecb.md rule R118) and `blockfn(ECB_DEC, y)` (rule R120), over the keyed primitive `prim`. -/
def ecbBlock (c : Cipher) (prim : List Byte → List Byte → List Byte) : BlockFn :=
  fun key chain x => (prim (keyOf c key) x, chain)

/-- `blockfn(CBC_ENC, x)` (43_cbc.md rule R128), over the primitive `prim`. -/
def cbcEncBlock (c : Cipher) (prim : List Byte → List Byte → List Byte) : BlockFn :=
  fun key chain x =>
    let y := prim (keyOf c key) (xorBytes x (blockOf c chain))
    (y, setPrefix chain y)

/-- `blockfn(CBC_DEC, y)` (43_cbc.md rule R133), over the primitive `prim`. -/
def cbcDecBlock (c : Cipher) (prim : List Byte → List Byte → List Byte) : BlockFn :=
  fun key chain y => (xorBytes (prim (keyOf c key) y) (blockOf c chain), setPrefix chain y)

end Sys2Proof.Machine
end

