-- ==== Sys2Proof/Machine/Flags.lean ====
section
/-!
DEFINITION. STATUS, CAPS and the interrupt: their layout (10_state.md rules R20 to R31), the write-1-to-clear rule,
the IV-present test, the error and IV_WR part of a completion, and IRQ (60_exceptions.md rule R155).
-/
namespace Sys2Proof.Machine

/-- The numeric value of an error code (60_exceptions.md rule R143). -/
def errBits : ErrCode → BitVec 4
  | .none => 0
  | .invalidPadding => 1
  | .invalidBlockAlignment => 2
  | .missingIV => 3
  | .illegalCommand => 4
  | .rangeError => 5
  | .busError => 6

/-- The word a read of STATUS returns (rule R25): IV_WR 11:8, ERRCODE 7:4, WIGN 3, ERR 2, DONE 1, BUSY 0. -/
def statusWord (s : State) : Word :=
  0#20 ++ s.ivWr ++ errBits s.errcode ++ BitVec.ofBool s.wign ++ BitVec.ofBool s.err ++ BitVec.ofBool s.done ++
    BitVec.ofBool s.busy

/-- The word a read of CAPS returns (rule R22): MAXKS 23:16, MAXBS 15:8, RNG 2, C64 1, C128 0. -/
def capsWord (p : Params) : Word :=
  0#8 ++ 0x10#8 ++ 0x10#8 ++ 0#5 ++ BitVec.ofBool p.hasRng ++ BitVec.ofBool p.hasC64 ++ BitVec.ofBool p.hasC128

/-- The word a read of CTRL returns (rule R23). -/
def ctrlWord (s : State) : Word := 0#31 ++ BitVec.ofBool s.irqEn

/-- A host write of STATUS (rule R31): bit 1 clears DONE, bit 2 clears ERR and ERRCODE, bit 3 clears WIGN. -/
def clearStatus (w : Word) (s : State) : State :=
  { s with
    done := s.done && !w.getLsbD 1
    err := s.err && !w.getLsbD 2
    errcode := if w.getLsbD 2 then .none else s.errcode
    wign := s.wign && !w.getLsbD 3 }

/-- The IV_WR mask that covers a block of cipher `c` (rule R30). -/
def ivMask : Cipher → BitVec 4
  | .c128 => 0b1111
  | .c64 => 0b0011

/-- `ivPresent(c)` (40_command_lifecycle.md rule R85). -/
def ivPresent (c : Cipher) (ivWr : BitVec 4) : Bool := ivWr &&& ivMask c == ivMask c

/-- IV_WR after a host write of IV word `k` (rule R30). -/
def ivWrSet (ivWr : BitVec 4) (k : Fin 4) : BitVec 4 := ivWr ||| 1#4 <<< k.val

/-- IV_WR after the completion of a command (rule R92): cleared by a legal CBC command, `none` is an illegal word. -/
def ivWrAfter (cmd : Option Instr) (ivWr : BitVec 4) : BitVec 4 :=
  match cmd with
  | none => ivWr
  | some i => if i.isCbc then 0 else ivWr

/-- The interrupt output (60_exceptions.md rule R155). -/
def State.irq (s : State) : Bool := s.irqEn && s.done

end Sys2Proof.Machine
end

