-- ==== Sys2Proof/Machine/Ops.lean ====
section
/-!
DEFINITION. The named operations over memory and registers that every meaning shares: data memory in canonical form,
the free values, the engine's accesses (20_memory.md rules R53 to R57), acceptance (40_command_lifecycle.md rules R80
to R87), the block step (rule R88), completion (rule R92), which is how this block takes an exception
(60_exceptions.md rule R151) and returns from one (rule R152: nothing to restore), and the reset transition.
-/
namespace Sys2Proof.Machine

/-! ### Data memory -/

/-- What an address that memory does not list reads as. DESIGN CHOICE (log entry 1): the platform's contents are
unknown (10_state.md rule R49). -/
def unlistedByte : Byte := 0

/-- Read one byte of memory. -/
def Memory.read : Memory → Nat → Byte
  | [], _ => unlistedByte
  | (a', b) :: m, a => if a = a' then b else Memory.read m a

/-- Write one byte of memory, keeping the canonical form. -/
def Memory.write : Memory → Nat → Byte → Memory
  | [], a, b => if b = unlistedByte then [] else [(a, b)]
  | (a', b') :: m, a, b =>
    if a < a' then (if b = unlistedByte then (a', b') :: m else (a, b) :: (a', b') :: m)
    else if a = a' then (if b = unlistedByte then m else (a, b) :: m)
    else (a', b') :: Memory.write m a b

/-- The byte sequence at `a, a+1, ..., a+n-1` (00_scope.md rule R12). -/
def Memory.readBytes (m : Memory) (a n : Nat) : List Byte := (List.range n).map fun j => Memory.read m (a + j)

/-- Write byte `j` of a sequence to `a + j` (rule R12). -/
def Memory.writeBytes : Memory → Nat → List Byte → Memory
  | m, _, [] => m
  | m, a, b :: l => Memory.writeBytes (Memory.write m a b) (a + 1) l

/-- Every listed address is at least `lo` and inside the address space, addresses rise strictly, and no listed byte
is what an unlisted address reads as. -/
def Memory.wfFrom : Nat → Memory → Bool
  | _, [] => true
  | lo, (a, b) :: m => decide (lo ≤ a) && decide (a < addrSpace) && b != unlistedByte && Memory.wfFrom (a + 1) m

/-- The canonical form of memory. -/
def Memory.wf (m : Memory) : Bool := Memory.wfFrom 0 m

/-- The platform oracle `MemOK(addr, kind)` (20_memory.md rule R57). -/
def memOK (p : Params) (a : Nat) (k : Access) : Bool :=
  !p.noAccess.any fun r => r.kind == k && decide (r.lo ≤ a) && decide (a ≤ r.hi)

/-! ### Free values -/

/-- The next `n` draws (00_scope.md glossary "draw"; log entry 4). -/
def drawn (s : State) (n : Nat) : List Byte := (List.range n).map fun j => Config.draw (s.draws + j)

/-- `n` draws have been used. -/
def drew (n : Nat) (s : State) : State := { s with draws := s.draws + n }

/-! ### Updates of the state that several operations share -/

/-- The host gets a response. -/
def respond (r : BusResp) (s : State) : State := { s with obs := r :: s.obs }

/-- An ignored busy-locked write (10_state.md rules R29, R41). -/
def setWign (s : State) : State := { s with wign := true }

/-- Memory replaced. -/
def withMem (m : Memory) (s : State) : State := { s with mem := m }

/-- CHAIN replaced. -/
def withChain (r : Reg128) (s : State) : State := { s with chain := r }

/-! ### Regions of the running command -/

/-- The length in bytes of the DST region, `nblk * b` (00_scope.md glossary). -/
def dstLen (s : State) : Nat := s.nblk * bs s.opc.cipher

/-- An address in the DST region `[DST_ADDR, DST_ADDR + nblk*b)` of the running command. -/
def inDst (s : State) (a : Nat) : Bool := decide (s.dstAddr.toNat ≤ a) && decide (a < s.dstAddr.toNat + dstLen s)

/-- An address in the SRC region `[SRC_ADDR, SRC_ADDR + LEN)`. -/
def inSrc (s : State) (a : Nat) : Bool := decide (s.srcAddr.toNat ≤ a) && decide (a < s.srcAddr.toNat + s.len.toNat)

/-- The bytes of the DST region become free values (20_memory.md rules R57, R61, R62; 60_exceptions.md rule R149;
70_reset_and_hazards.md rule R167). -/
def freeDst (s : State) : State :=
  withMem (Memory.writeBytes s.mem s.dstAddr.toNat (drawn s (dstLen s))) (drew (dstLen s) s)

/-- CHAIN and BLK_IDX become free values (rules R92, R149; log entries 14, 15). -/
def freeProgress (s : State) : State :=
  { s with chain := regOfBytes (drawn s 16), blkIdx := wordOfBytes (drawn s 20) 4, draws := s.draws + 20 }

/-! ### Completion -/

/-- The outcome registers of a completion (rule R92). -/
def setOutcome (cmd : Option Instr) (code : ErrCode) (s : State) : State :=
  { s with
    outLen := if code = .none then BitVec.ofNat 32 s.outlen else 0
    err := decide (code ≠ .none)
    errcode := code
    ivWr := ivWrAfter cmd s.ivWr
    dstOpen := false
    seq := .idle
    done := true }

/-- What a completion leaves unspecified: the DST region, CHAIN and BLK_IDX after a BusError (rule R92), the DST
region of a command whose buffers were touched or overlap (20_memory.md rules R61, R62). -/
def freeAtCompletion (code : ErrCode) (s : State) : State :=
  if code = .busError then freeProgress (freeDst s) else if s.dstOpen then freeDst s else s

/-- `Complete(code)` (rule R92) of the command `cmd`, or of an illegal word (`none`). -/
def complete (cmd : Option Instr) (code : ErrCode) (s : State) : State :=
  setOutcome cmd code (freeAtCompletion code s)

/-! ### Acceptance -/

/-- Acceptance clears the outcome of the previous command (rule R81). -/
def clearOutcome (s : State) : State :=
  { s with done := false, err := false, errcode := .none, outLen := 0, blkIdx := 0, blkI := 0, dstOpen := false }

/-- The command context is latched (10_state.md rule R44). -/
def latch (i : Instr) (d : Derived) (s : State) : State := { s with opc := i, nblk := d.nblk, outlen := d.outlen }

/-- `rangeOK` (rule R86), in unbounded naturals. -/
def rangeOK (c : Cipher) (d : Derived) (src dst len : Nat) : Bool :=
  !(d.usesSrc && decide (addrSpace < src + len)) && !(d.writesDst && decide (addrSpace < dst + d.nblk * bs c)) &&
    decide (d.nblk * bs c ≤ addrSpace - 1)

/-- The checks 2 to 4 of acceptance in their order (rules R84 to R86, 60_exceptions.md rule R150): the first that
applies. -/
def acceptError (i : Instr) (d : Derived) (s : State) : ErrCode :=
  if d.aligned ∧ s.len.toNat % bs i.cipher ≠ 0 then .invalidBlockAlignment
  else if d.needsIV ∧ ¬ivPresent i.cipher s.ivWr then .missingIV
  else if ¬rangeOK i.cipher d s.srcAddr.toNat s.dstAddr.toNat s.len.toNat then .rangeError
  else .none

/-- `overlap` of two regions; a region of length 0 overlaps nothing (rule R87, 20_memory.md rule R62). -/
def overlap (a n b m : Nat) : Bool := decide (0 < n) && decide (0 < m) && decide (a < b + m) && decide (b < a + n)

/-- The SRC and DST regions of a command overlap without being in place (rules R62, R87). -/
def partialOverlap (c : Cipher) (d : Derived) (s : State) : Bool :=
  d.writesDst && d.usesSrc && overlap s.srcAddr.toNat s.len.toNat s.dstAddr.toNat (d.nblk * bs c) &&
    s.srcAddr != s.dstAddr

/-- CHAIN at the start of a command (rules R87, R89). -/
def chainAtStart (i : Instr) (s : State) : Reg128 :=
  if i.isCbc then zeroExtended (blockOf i.cipher s.iv) else s.chain

/-- `start()` (rule R87): CHAIN, the FAULT set, BUSY and the first sequencer state. -/
def start (i : Instr) (d : Derived) (s : State) : State :=
  { s with
    chain := chainAtStart i s
    faultSet := { s.faultSet with partialOverlap := s.faultSet.partialOverlap || partialOverlap i.cipher d s }
    dstOpen := partialOverlap i.cipher d s
    seq := if 0 < d.nblk then .run else .finish }

/-- Acceptance of a legal command (rules R82 to R87), after the outcome was cleared. -/
def acceptLegal (i : Instr) (d : Derived) (s : State) : State :=
  match acceptError i d s with
  | .none => start i d (latch i d s)
  | code => complete (some i) code (latch i d s)

/-- Acceptance of a word that is no legal command (rules R75, R82): IllegalCommand, at once. -/
def acceptIllegal (s : State) : State := complete none .illegalCommand (clearOutcome s)

/-- Acceptance of a command (rule R80); check 1 is the presence of the units it needs (30_encoding.md rule R73). -/
def accept (i : Instr) (s : State) : State :=
  if i.wellFormed s.params then acceptLegal i (derive i s.len.toNat) (clearOutcome s) else acceptIllegal s

/-! ### The engine's accesses and steps -/

/-- Why an engine access has no result: a bus error (20_memory.md rule R57), or an address the data memory does not
have (rule R50, log entry 18). -/
inductive Stop where
  | bus
  | outside
  deriving DecidableEq, Repr

/-- Whether an engine access of `n` bytes at `a` is served. -/
def accessStop (p : Params) (k : Access) (a n : Nat) : Option Stop :=
  if addrSpace < a + n then some .outside
  else if (List.range n).all fun j => memOK p (a + j) k then none
  else some .bus

/-- The step ends the command with BusError (60_exceptions.md rule R149). -/
def onStop (i : Instr) (s : State) : Stop → Result
  | .bus => .next (complete (some i) .busError s)
  | .outside => .fault .outsideAddressSpace

/-- The bytes an engine read returns: what memory holds, or free values when the command's data is unspecified
(rules R61, R62; log entries 11, 12). -/
def engineBytes (s : State) (a n : Nat) : List Byte :=
  if s.dstOpen then drawn s n else Memory.readBytes s.mem a n

/-- The state after an engine read. -/
def afterRead (n : Nat) (s : State) : State := if s.dstOpen then drew n s else s

/-- Where input block `i` starts and how many source bytes it has (20_memory.md rule R53). -/
def inSpan (i : Instr) (s : State) : Nat × Nat :=
  let b := bs i.cipher
  let lo := s.blkI * b
  if padsInput i then (s.srcAddr.toNat + lo, min (lo + b) s.len.toNat - lo) else (s.srcAddr.toNat + lo, b)

/-- The padding after the source bytes of an input block (rule R53): none unless the input stream is padded. -/
def fillTo (i : Instr) (s : State) (data : List Byte) : List Byte :=
  if padsInput i then
    data ++ List.replicate (bs i.cipher - data.length) (BitVec.ofNat 8 (padlen s.len.toNat (bs i.cipher)))
  else data

/-- The registers a block step writes besides CHAIN and memory (rule R88). -/
def noteBlock (y : List Byte) (s : State) : State :=
  { s with
    lastBlk := setPrefix s.lastBlk y
    blkI := s.blkI + 1
    blkIdx := BitVec.ofNat 32 (s.blkI + 1)
    seq := if s.blkI + 1 = s.nblk then .finish else .run }

/-- The second half of a block step: the output block `y` is written and the step noted (rules R54, R88). -/
def writeBlock (i : Instr) (y : List Byte) (s : State) : Result :=
  let a := s.dstAddr.toNat + s.blkI * bs i.cipher
  match accessStop s.params .write a y.length with
  | some e => onStop i s e
  | none => .next (noteBlock y (withMem (Memory.writeBytes s.mem a y) s))

/-- The block step (rule R88) of command `i` with block function `f`. -/
def blockStep (i : Instr) (f : BlockFn) (s : State) : Result :=
  let a := (inSpan i s).1
  let n := (inSpan i s).2
  match accessStop s.params .read a n with
  | some e => onStop i s e
  | none =>
    let y := f s.key s.chain (fillTo i s (engineBytes s a n))
    writeBlock i y.1 (withChain y.2 (afterRead n s))

/-- A finish step that only completes (rule R90). -/
def finishPlain (i : Instr) (s : State) : Result := .next (complete (some i) .none s)

/-- A finish step with the result of the padding check (rules R90, R106): InvalidPadding, or `outlen <- LEN - n`. -/
def finishUnpadded (i : Instr) (n : Option Nat) (s : State) : Result :=
  match n with
  | none => .next (complete (some i) .invalidPadding s)
  | some n => .next (complete (some i) .none { s with outlen := s.len.toNat - n })

/-- The finish step of a decryption (rules R90, R121, R135): with PADF the padding of LASTBLK is checked. -/
def finishDecrypt (i : Instr) (s : State) : Result :=
  if i.padf then finishUnpadded i (unpadCheckBlock (blockOf i.cipher s.lastBlk) s.nblk (bs i.cipher)) s
  else finishPlain i s

/-- A command with block steps: its next transition is acceptance while idle, a block step in RUN, its finish step in
FINISH (rules R80, R88, R90; log entry 9). -/
def blockCommand (i : Instr) (f : BlockFn) (fin : State → Result) (s : State) : Result :=
  match s.seq with
  | .idle => .next (accept i s)
  | .run => blockStep i f s
  | .finish => fin s

/-- A command with no block step (`nblk` = 0): its one engine step is its finish step. -/
def plainCommand (i : Instr) (fin : State → Result) (s : State) : Result :=
  match s.seq with
  | .idle => .next (accept i s)
  | .run => fin s
  | .finish => fin s

/-! ### Reset -/

/-- The reset transition (70_reset_and_hazards.md rules R166, R167): the reset values of 10_state.md rule R49; data
memory untouched but for the DST region of a running command, whose bytes become free values; FAULT and the
parameters stay (log entry 17 for the model's own fields). -/
def assertReset (s : State) : State :=
  let t := if s.busy then freeDst s else s
  { State.reset with
    params := t.params
    mem := t.mem
    faultSet := t.faultSet
    draws := t.draws
    hostProg := t.hostProg
    sched := t.sched
    obs := t.obs }

end Sys2Proof.Machine
end

