-- ==== Sys2Proof/Machine/Cbc.lean ====
section
/-!
DEFINITION. CBC mode and the IV: CBC_ENC, CBC_DEC and GEN_IV (43_cbc.md rules R128 to R140).
-/
namespace Sys2Proof.Machine

/-- CBC_ENC (rules R128, R129). -/
def execCbcEnc (c : Cipher) (p : Bool) (s : State) : Result :=
  blockCommand (.cbcEnc c p) (cbcEncBlock c (enc c)) (finishPlain (.cbcEnc c p)) s

/-- CBC_DEC (rules R132, R133, R135). -/
def execCbcDec (c : Cipher) (p : Bool) (s : State) : Result :=
  blockCommand (.cbcDec c p) (cbcDecBlock c (dec c)) (finishDecrypt (.cbcDec c p)) s

/-- `geniv_finish()` (rule R140): the IV is filled with draws of the random source, its other bytes zero. -/
def genIvFinish (c : Cipher) (s : State) : Result :=
  .next (complete (some (.genIv c)) .none
    (drew (bs c) { s with iv := zeroExtended (drawn s (bs c)), ivWr := ivMask c }))

/-- GEN_IV (rule R140). -/
def execGenIv (c : Cipher) (s : State) : Result := plainCommand (.genIv c) (genIvFinish c) s

end Sys2Proof.Machine
end

