-- ==== Sys2Proof/Machine/Ecb.lean ====
section
/-!
DEFINITION. ECB mode: ECB_ENC and ECB_DEC (42_ecb.md rules R117 to R121).
-/
namespace Sys2Proof.Machine

/-- ECB_ENC (rules R117, R118). -/
def execEcbEnc (c : Cipher) (p : Bool) (s : State) : Result :=
  blockCommand (.ecbEnc c p) (ecbBlock c (enc c)) (finishPlain (.ecbEnc c p)) s

/-- ECB_DEC (rules R119 to R121). -/
def execEcbDec (c : Cipher) (p : Bool) (s : State) : Result :=
  blockCommand (.ecbDec c p) (ecbBlock c (dec c)) (finishDecrypt (.ecbDec c p)) s

end Sys2Proof.Machine
end

