-- ==== Sys2Proof/Machine/Lifecycle.lean ====
section
/-!
DEFINITION. NOP (40_command_lifecycle.md rule R93). The lifecycle every command shares is in Machine/Ops.lean.
-/
namespace Sys2Proof.Machine

/-- NOP (rule R93): acceptance with `nblk` = 0, then a finish step that completes. -/
def execNop (s : State) : Result := plainCommand .nop (finishPlain .nop) s

end Sys2Proof.Machine
end

