-- ==== Sys2Proof/Machine/Padding.lean ====
section
/-!
DEFINITION. The padding codec's commands, PAD and UNPAD (41_padding.md rules R105 to R107).
-/
namespace Sys2Proof.Machine

/-- PAD (rule R105): each block step copies a block of the padded stream. -/
def execPad (c : Cipher) (s : State) : Result := blockCommand (.pad c) padBlock (finishPlain (.pad c)) s

/-- `unpad_finish()` (rule R106): the last block of SRC is read and its padding checked; LEN = 0 is InvalidPadding
(rule R107). -/
def unpadFinish (c : Cipher) (s : State) : Result :=
  let b := bs c
  let a := s.srcAddr.toNat + s.len.toNat - b
  if s.len.toNat = 0 then .next (complete (some (.unpad c)) .invalidPadding s)
  else
    match accessStop s.params .read a b with
    | some e => onStop (.unpad c) s e
    | none => finishUnpadded (.unpad c) (unpadCheckBlock (engineBytes s a b) (s.len.toNat / b) b) (afterRead b s)

/-- UNPAD (rule R106). -/
def execUnpad (c : Cipher) (s : State) : Result := plainCommand (.unpad c) (unpadFinish c) s

end Sys2Proof.Machine
end

