-- ==== Sys2Proof/Machine/Dispatch.lean ====
section
/-!
DEFINITION. The next transition of each command (30_encoding.md rule R69): acceptance while idle, the engine's step
while busy.
-/
namespace Sys2Proof.Machine

def exec (i : Instr) (s : State) : Host.Outcome State Fault Refusal :=
  match i with
  | .nop => Sys2Proof.Machine.execNop s
  | .pad c => Sys2Proof.Machine.execPad c s
  | .unpad c => Sys2Proof.Machine.execUnpad c s
  | .ecbEnc c p => Sys2Proof.Machine.execEcbEnc c p s
  | .ecbDec c p => Sys2Proof.Machine.execEcbDec c p s
  | .cbcEnc c p => Sys2Proof.Machine.execCbcEnc c p s
  | .cbcDec c p => Sys2Proof.Machine.execCbcDec c p s
  | .genIv c => Sys2Proof.Machine.execGenIv c s

end Sys2Proof.Machine
end

