-- ==== Sys2Proof/Machine/Bus.lean ====
section
/-!
DEFINITION. The host's side: the register bus (10_state.md rules R17 to R42), the CMD write that gives the block a
command (40_command_lifecycle.md rule R80), the host's accesses to data memory (20_memory.md rule R61), and whose turn
it is (00_scope.md rule R9).
-/
namespace Sys2Proof.Machine

/-- The registers of the window (rule R19). -/
inductive Reg where
  | id
  | version
  | caps
  | ctrl
  | cmd
  | status
  | srcAddr
  | dstAddr
  | len
  | outLen
  | blkIdx
  | key (k : Fin 4)
  | iv (k : Fin 4)
  | chain (k : Fin 4)
  | reserved
  deriving DecidableEq, Repr

/-- The register at word `n` of the window, offset `4n` (rules R19, R37). -/
def regAtWord : Nat → Reg
  | 0 => .id
  | 1 => .version
  | 2 => .caps
  | 3 => .ctrl
  | 4 => .cmd
  | 5 => .status
  | 6 => .srcAddr
  | 7 => .dstAddr
  | 8 => .len
  | 9 => .outLen
  | 10 => .blkIdx
  | 12 => .key 0
  | 13 => .key 1
  | 14 => .key 2
  | 15 => .key 3
  | 16 => .iv 0
  | 17 => .iv 1
  | 18 => .iv 2
  | 19 => .iv 3
  | 20 => .chain 0
  | 21 => .chain 1
  | 22 => .chain 2
  | 23 => .chain 3
  | _ => .reserved

/-- The register a transaction addresses; `none` for one that is not a word access (rules R17, R18). -/
def target (off : BitVec 8) (size : BusSize) : Option Reg :=
  if size = .b4 ∧ off.toNat % 4 = 0 then some (regAtWord (off.toNat / 4)) else none

/-- The stored value a read returns (rules R19 to R40). -/
def regValue (s : State) : Reg → Word
  | .id => 0x4D4F4445
  | .version => 0x00000007
  | .caps => capsWord s.params
  | .ctrl => ctrlWord s
  | .cmd => 0
  | .status => statusWord s
  | .srcAddr => s.srcAddr
  | .dstAddr => s.dstAddr
  | .len => s.len
  | .outLen => s.outLen
  | .blkIdx => s.blkIdx
  | .key _ => 0
  | .iv k => regWord s.iv k
  | .chain k => regWord s.chain k
  | .reserved => 0

/-- A read whose value is unspecified (rule R42): CHAIN and BLK_IDX while BUSY, IV during GEN_IV. -/
def openRead (s : State) : Reg → Bool
  | .blkIdx => s.busy
  | .chain _ => s.busy
  | .iv _ => s.busy && s.opc.isGenIv
  | _ => false

/-- A word read: the stored value, or a free value where rule R42 leaves it unspecified (log entry 16). -/
def readReg (r : Reg) (s : State) : State :=
  if openRead s r then respond (.data (wordOfBytes (drawn s 4) 0)) (drew 4 s) else respond (.data (regValue s r)) s

/-- The busy-locked registers (rules R19, R41). -/
def busyLocked : Reg → Bool
  | .cmd => true
  | .srcAddr => true
  | .dstAddr => true
  | .len => true
  | .key _ => true
  | .iv _ => true
  | _ => false

/-- The effect of a word write that is not ignored, CMD apart (rules R23, R31 to R39); RO and reserved registers
ignore it (rules R19, R37). -/
def storeReg (r : Reg) (w : Word) (s : State) : State :=
  match r with
  | .ctrl => { s with irqEn := w.getLsbD 0 }
  | .status => clearStatus w s
  | .srcAddr => { s with srcAddr := w }
  | .dstAddr => { s with dstAddr := w }
  | .len => { s with len := w }
  | .key k => { s with key := setRegWord s.key k w }
  | .iv k => { s with iv := setRegWord s.iv k w, ivWr := ivWrSet s.ivWr k }
  | _ => s

/-- A write of `w` to CMD while idle: acceptance (rules R24, R80); an illegal word completes at once (rule R82). -/
def cmdWrite (w : Word) (s : State) : Result :=
  match decode w with
  | .ok i => exec i s
  | .error _ => .next (acceptIllegal s)

/-- A word write to a register (rules R24, R41). -/
def writeReg (r : Reg) (w : Word) (s : State) : Result :=
  if busyLocked r && s.busy then .next (setWign s)
  else if r = .cmd then cmdWrite w s
  else .next (storeReg r w s)

/-- `RegWrite(off, size, data)` (rules R17, R18). -/
def regWrite (off : BitVec 8) (size : BusSize) (w : Word) (s : State) : Result :=
  match target off size with
  | none => .next (respond .busError s)
  | some r => writeReg r w (respond .ack s)

/-- `RegRead(off, size)` (rules R17, R18). -/
def regRead (off : BitVec 8) (size : BusSize) (s : State) : State :=
  match target off size with
  | none => respond .busError s
  | some r => readReg r s

/-- The offset of a platform address in the register window at REG_BASE, if it is inside (rule R18). -/
def windowOffset (p : Params) (addr : Word) : Option (BitVec 8) :=
  if p.regBase.toNat ≤ addr.toNat ∧ addr.toNat < p.regBase.toNat + 256 then
    some (BitVec.ofNat 8 (addr.toNat - p.regBase.toNat))
  else none

/-- The host touched a running command's buffers (20_memory.md rule R61). -/
def hostHazard (s : State) : State := { s with faultSet := { s.faultSet with hostBufferHazard := true } }

/-- A host write of one byte of data memory. While BUSY, one in the SRC or DST region is a hazard and leaves the
command's data unspecified (rule R61; log entries 12, 13). -/
def hostMemWrite (a : Word) (b : Byte) (s : State) : State :=
  let t := withMem (Memory.write s.mem a.toNat b) (respond .ack s)
  if s.busy && (inSrc s a.toNat || inDst s a.toNat) then { hostHazard t with dstOpen := true } else t

/-- A host read of one byte of data memory. While BUSY, one in the DST region is a hazard and returns an unspecified
value (rule R61). -/
def hostMemRead (a : Word) (s : State) : State :=
  if s.busy && inDst s a.toNat then hostHazard (respond (.byte ((drawn s 1).getD 0 0)) (drew 1 s))
  else respond (.byte (Memory.read s.mem a.toNat)) s

/-- One host transaction (30_encoding.md rule R79). -/
def hostOp (op : HostOp) (s : State) : Result :=
  match op with
  | .regWr off size w => regWrite off size w s
  | .regRd off size => .next (regRead off size s)
  | .busWr addr size w =>
    match windowOffset s.params addr with
    | some off => regWrite off size w s
    | none => .next (respond .unmapped s)
  | .busRd addr size =>
    match windowOffset s.params addr with
    | some off => .next (regRead off size s)
    | none => .next (respond .unmapped s)
  | .wait =>
    let t := readReg .status s
    .next (if s.busy then { t with hostProg := .wait :: t.hostProg } else t)
  | .memWr a b => .next (hostMemWrite a b s)
  | .memRd a => .next (hostMemRead a s)
  | .irqRd => .next (respond (.irq s.irq) s)

/-- The host's turn: its next transaction; a host program that is done does nothing. -/
def hostTurn (s : State) : Result :=
  match s.hostProg with
  | [] => .next s
  | op :: rest => hostOp op { s with hostProg := rest }

/-- The engine's turn: its one enabled step while BUSY, none while idle (40_command_lifecycle.md rule R97). -/
def engineTurn (s : State) : Result := if s.busy then exec s.opc s else .next s

/-- The turn of an agent. -/
def turn (a : Agent) (s : State) : Result :=
  match a with
  | .host => hostTurn s
  | .engine => engineTurn s
  | .reset => .next (assertReset s)

/-- Who moves when `sched` names nobody: the engine while BUSY, else the host (log entry 7). -/
def idleAgent (s : State) : Agent := if s.busy then .engine else .host

/-- The state whose next step presents the word `w` to CMD of the idle block (log entries 7, 10). -/
def presentCommand (w : Word) (s : State) : State :=
  { s with seq := .idle, hostProg := .regWr 0x10#8 .b4 w :: s.hostProg, sched := .host :: s.sched }

end Sys2Proof.Machine
end

