-- ==== Sys2Proof/Machine/Step.lean ====
section
/-!
DEFINITION. One step of the machine: one atomic transition of one agent (00_scope.md rules R5, R9). There is no
program counter and no fetch (10_state.md rule R47): a command comes with a host write of CMD.
-/
namespace Sys2Proof.Machine

/-- One transition: the turn of the agent that `sched` names, or of `idleAgent` when it names none. -/
def step (s : State) : Host.Outcome State Fault Refusal :=
  match s.sched with
  | [] => turn (idleAgent s) s
  | a :: rest => turn a { s with sched := rest }

/-- The state whose next step is the host's write of an instruction word to CMD of the idle block: what stands for
fetching here (log entries 7, 10). -/
def State.withFetchWord (s : State) (nbits w : Nat) : State := presentCommand (BitVec.ofNat 32 (w % 2 ^ nbits)) s

end Sys2Proof.Machine
end

