-- ==== Sys2Proof/Machine/Modes.lean ====
section
/-!
DEFINITION. The modes of operation as functions of whole byte sequences: ECB (42_ecb.md rules R115, R116) and CBC
(43_cbc.md rules R127, R131), over a keyed block primitive. The machine works block by block (Machine/Ops.lean);
statements say that its result is one of these. No step reads this file.
-/
namespace Sys2Proof.Machine

/-- Block `i` of a byte sequence, bytes `[i*b, (i+1)*b)`. -/
def block (b : Nat) (l : List Byte) (i : Nat) : List Byte := (l.drop (i * b)).take b

/-- `blocks_b(s)` (00_scope.md rule R11). -/
def blocks (b : Nat) (l : List Byte) : List (List Byte) := (List.range (l.length / b)).map (block b l)

/-- `ECB_encrypt` (rule R115) with `f` the keyed Enc, `ECB_decrypt` (rule R116) with the keyed Dec. -/
def ecb (f : List Byte → List Byte) (b : Nat) (l : List Byte) : List Byte := ((blocks b l).map f).flatten

/-- One turn of the loop of `CBC_encrypt` (rule R127) on (out, ch). -/
def cbcEncTurn (e : List Byte → List Byte) (acc : List Byte × List Byte) (x : List Byte) : List Byte × List Byte :=
  let y := e (xorBytes x acc.2)
  (acc.1 ++ y, y)

/-- `CBC_encrypt` (rule R127): the ciphertext and the final chain value. -/
def cbcEncrypt (e : List Byte → List Byte) (b : Nat) (iv p : List Byte) : List Byte × List Byte :=
  (blocks b p).foldl (cbcEncTurn e) ([], iv)

/-- One turn of the loop of `CBC_decrypt` (rule R131) on (out, ch). -/
def cbcDecTurn (d : List Byte → List Byte) (acc : List Byte × List Byte) (y : List Byte) : List Byte × List Byte :=
  (acc.1 ++ xorBytes (d y) acc.2, y)

/-- `CBC_decrypt` (rule R131): the plaintext and the final chain value. -/
def cbcDecrypt (d : List Byte → List Byte) (b : Nat) (iv q : List Byte) : List Byte × List Byte :=
  (blocks b q).foldl (cbcDecTurn d) ([], iv)

end Sys2Proof.Machine
end

