-- ==== Sys2Proof/Safety.lean ====
section
/-!
DEFINITION. What counts as a safe run, in the terms claims use: the invariant every step keeps, clean entry and the
end of a run (70_reset_and_hazards.md rules R182, R183), when a command passes its checks and when its buffers are in
order (40_command_lifecycle.md rules R84 to R86, 20_memory.md rules R57, R62), and rule R73's legality as the rule
writes it.
-/
namespace Sys2Proof.Machine

/-! ### Legality -/

/-- OP, CSEL and PADF of a word as numbers (30_encoding.md rule R68). -/
def opNum (w : Word) : Nat := w.toNat % 16

def cselNum (w : Word) : Nat := w.toNat / 16 % 2

def padfNum (w : Word) : Nat := w.toNat / 32 % 2

/-- `cipher_present` on the number CSEL (rule R73). -/
def selPresent (p : Params) (csel : Nat) : Bool := if csel = 0 then p.hasC128 else p.hasC64

/-- `legal(w)`, condition by condition (rule R73). -/
def LegalWord (p : Params) (w : Word) : Prop :=
  w.toNat / 64 = 0 ∧ opNum w ≤ 7 ∧ (padfNum w = 0 ∨ opNum w ∈ [3, 4, 5, 6]) ∧ (cselNum w = 0 ∨ opNum w ≠ 0) ∧
    (opNum w = 0 ∨ selPresent p (cselNum w) = true) ∧ (opNum w ≠ 7 ∨ p.hasRng = true)

/-- The OP value of a command (rule R69). -/
def opValue : Instr → Nat
  | .nop => 0
  | .pad _ => 1
  | .unpad _ => 2
  | .ecbEnc _ _ => 3
  | .ecbDec _ _ => 4
  | .cbcEnc _ _ => 5
  | .cbcDec _ _ => 6
  | .genIv _ => 7

/-- The 23 legal words of the opcode map (rule R74), every unit present. -/
def tableWords : List Word :=
  [0x00, 0x01, 0x11, 0x02, 0x12, 0x03, 0x13, 0x23, 0x33, 0x04, 0x14, 0x24, 0x34, 0x05, 0x15, 0x25, 0x35, 0x06, 0x16,
    0x26, 0x36, 0x07, 0x17]

/-! ### Commands -/

/-- The input bytes of a command, the SRC region (00_scope.md glossary). -/
def srcBytes (s : State) : List Byte := Memory.readBytes s.mem s.srcAddr.toNat s.len.toNat

/-- The first `n` bytes at DST_ADDR. -/
def dstBytes (s : State) (n : Nat) : List Byte := Memory.readBytes s.mem s.dstAddr.toNat n

/-- The input stream of a command: its source bytes, padded where rule R53 of 20_memory.md says so. -/
def inStream (i : Instr) (s : State) : List Byte := if padsInput i then pad (srcBytes s) (bs i.cipher) else srcBytes s

/-- An idle block passes every acceptance check for command `i` (40_command_lifecycle.md rules R82 to R86). -/
structure Accepts (i : Instr) (s : State) : Prop where
  idle : s.seq = .idle
  present : i.wellFormed s.params = true
  alignedLen : (derive i s.len.toNat).aligned = true → s.len.toNat % bs i.cipher = 0
  ivThere : (derive i s.len.toNat).needsIV = true → ivPresent i.cipher s.ivWr = true
  srcInside : (derive i s.len.toNat).usesSrc = true → s.srcAddr.toNat + s.len.toNat ≤ 4294967296
  dstInside : (derive i s.len.toNat).writesDst = true →
    s.dstAddr.toNat + (derive i s.len.toNat).nblk * bs i.cipher ≤ 4294967296
  lengthFits : (derive i s.len.toNat).nblk * bs i.cipher ≤ 4294967295

/-- The SRC region and `n` bytes at DST_ADDR are in place or disjoint (20_memory.md rule R62). -/
def BuffersApart (s : State) (n : Nat) : Prop :=
  s.srcAddr = s.dstAddr ∨ s.len.toNat = 0 ∨ n = 0 ∨ s.srcAddr.toNat + s.len.toNat ≤ s.dstAddr.toNat ∨
    s.dstAddr.toNat + n ≤ s.srcAddr.toNat

/-- The platform serves every read of the SRC region and every write of `n` bytes at DST_ADDR (rule R57). -/
def MemoryServes (s : State) (n : Nat) : Prop :=
  (∀ a, s.srcAddr.toNat ≤ a → a < s.srcAddr.toNat + s.len.toNat → memOK s.params a .read = true) ∧
    ∀ a, s.dstAddr.toNat ≤ a → a < s.dstAddr.toNat + n → memOK s.params a .write = true

/-- A host transaction that leaves the data of a running command alone, its DST region being the `n` bytes at `lo`:
any register access and any wait, and a memory read outside that region (20_memory.md rule R61). -/
def Quiet (lo n : Nat) : HostOp → Prop
  | .regWr _ _ _ => True
  | .regRd _ _ => True
  | .busWr _ _ _ => True
  | .busRd _ _ => True
  | .wait => True
  | .memWr _ _ => False
  | .memRd a => a.toNat < lo ∨ lo + n ≤ a.toNat
  | .irqRd => True

/-- The host's next transaction is the write of command `i` to CMD, and `rest` is what it does after it. -/
def HostWrites (i : Instr) (rest : List HostOp) (s : State) : Prop := s.hostProg = .regWr 0x10#8 .b4 (encode i) :: rest

/-- The turns after the host's next one are `l`, none of them the reset's (00_scope.md rule R9). Either the schedule
names them, or it is empty and the host has none of them: then the engine moves while BUSY by log entry 7. -/
def TurnsAfter (l : List Agent) (s : State) : Prop :=
  Agent.reset ∉ l ∧ ((s.sched = [] ∧ Agent.host ∉ l) ∨ ∃ later, s.sched = .host :: (l ++ later))

/-- The host writes command `i`, then the turns `l` follow, then the engine's. In `l` the engine has as many turns as
the command has blocks, and what the host does in its own is quiet. -/
structure Issues (i : Instr) (l : List Agent) (rest : List HostOp) (s : State) : Prop where
  command : HostWrites i rest s
  turns : TurnsAfter (l ++ [.engine]) s
  blocks : l.count .engine = (derive i s.len.toNat).nblk
  quiet : ∀ op ∈ rest.take (l.count .host), Quiet s.dstAddr.toNat ((derive i s.len.toNat).nblk * bs i.cipher) op

/-- `n` steps of the machine, stopping at the first fault or refusal. -/
def runs : Nat → State → Result
  | 0, s => .next s
  | n + 1, s =>
    match step s with
    | .next t => runs n t
    | .fault r => .fault r
    | .refused r => .refused r

/-- A completion with `code`: idle, DONE, ERR and ERRCODE (rule R92). -/
def CompletedWith (code : ErrCode) (t : State) : Prop :=
  t.seq = .idle ∧ t.done = true ∧ t.errcode = code ∧ (t.err = true ↔ code ≠ .none)

/-- What no command changes (10_state.md rule R41, 20_memory.md rule R55): the parameters, CTRL, WIGN, the descriptors,
KEY, and the host's side of the model. -/
def SameSetup (s t : State) : Prop :=
  t.params = s.params ∧ t.irqEn = s.irqEn ∧ t.wign = s.wign ∧ t.srcAddr = s.srcAddr ∧ t.dstAddr = s.dstAddr ∧
    t.len = s.len ∧ t.key = s.key ∧ t.hostProg = s.hostProg ∧ t.sched = s.sched ∧ t.obs = s.obs

/-- Every byte of memory outside `[a, a + n)` reads as before. -/
def SameOutside (s t : State) (a n : Nat) : Prop := ∀ x, x < a ∨ a + n ≤ x → Memory.read t.mem x = Memory.read s.mem x

/-- Every byte of memory reads as before. -/
def SameMemory (s t : State) : Prop := ∀ x, Memory.read t.mem x = Memory.read s.mem x

/-- The platform serves the accesses of block step `I`: the reads of the source bytes of input block `I` and the writes
of output block `I` (20_memory.md rules R53, R54, R57). Other blocks may be refused. -/
def BlockServed (b : Nat) (s : State) : Prop :=
  (∀ a, s.srcAddr.toNat + s.blkI * b ≤ a → a < s.srcAddr.toNat + s.blkI * b + b →
    a < s.srcAddr.toNat + s.len.toNat → memOK s.params a .read = true) ∧
  ∀ a, s.dstAddr.toNat + s.blkI * b ≤ a → a < s.dstAddr.toNat + s.blkI * b + b → memOK s.params a .write = true

/-- A running command of kind `i` is at a block step whose accesses the platform serves: block `I` of its `nblk`, its
data not open, its regions inside the address space (40_command_lifecycle.md rule R88). -/
structure AtBlock (i : Instr) (s : State) : Prop where
  run : s.seq = .run
  context : s.nblk = (derive i s.len.toNat).nblk
  index : s.blkI < s.nblk
  alignedLen : (derive i s.len.toNat).aligned = true → s.len.toNat % bs i.cipher = 0
  closed : s.dstOpen = false
  memCanonical : Memory.wf s.mem = true
  srcInside : s.srcAddr.toNat + s.len.toNat ≤ 4294967296
  dstInside : s.dstAddr.toNat + s.nblk * bs i.cipher ≤ 4294967296
  serves : BlockServed (bs i.cipher) s

/-- What a served block step of cipher `c` with output block `y` leaves (rule R88): `y` at DST_ADDR + I*b and no other
byte changed, the index and sequencer advanced, nothing else changed but CHAIN. -/
def BlockWritten (c : Cipher) (s t : State) (y : List Byte) : Prop :=
  Memory.readBytes t.mem (s.dstAddr.toNat + s.blkI * bs c) (bs c) = y ∧
    SameOutside s t (s.dstAddr.toNat + s.blkI * bs c) (bs c) ∧ blockOf c t.lastBlk = y ∧
    t.blkI = s.blkI + 1 ∧ t.blkIdx = BitVec.ofNat 32 (s.blkI + 1) ∧
    t.seq = (if s.blkI + 1 = s.nblk then .finish else .run) ∧
    SameSetup s t ∧ t.iv = s.iv ∧ t.ivWr = s.ivWr ∧ t.done = s.done ∧ t.err = s.err ∧ t.errcode = s.errcode ∧
    t.outLen = s.outLen ∧ t.opc = s.opc ∧ t.nblk = s.nblk ∧ t.outlen = s.outlen ∧ t.faultSet = s.faultSet

/-- A padding check succeeds with `n` (41_padding.md rule R102): `1 <= n <= b`, and the last `n` of the bytes `l` are
all `n`. -/
def PaddedBy (l : List Byte) (b n : Nat) : Prop :=
  1 ≤ n ∧ n ≤ b ∧ n ≤ l.length ∧ l.drop (l.length - n) = List.replicate n (BitVec.ofNat 8 n)

/-- Two states that differ at most in the hidden registers OPC (with its context), I and LASTBLK (10_state.md rules R44
to R46). -/
def SameVisible (s t : State) : Prop :=
  t = { s with opc := t.opc, nblk := t.nblk, outlen := t.outlen, blkI := t.blkI, lastBlk := t.lastBlk }

/-! ### The invariant -/

/-- What holds of a running command: it passed its checks (rules R82 to R87), its context is the one of rule R83, and
the block index is where the sequencer says (rules R43, R46, R88). -/
structure RunningInv (s : State) : Prop where
  noOutcome : s.done = false ∧ s.err = false ∧ s.outLen = 0
  present : s.opc.wellFormed s.params = true
  context : s.nblk = (derive s.opc s.len.toNat).nblk ∧ s.outlen = (derive s.opc s.len.toNat).outlen
  alignedLen : (derive s.opc s.len.toNat).aligned = true → s.len.toNat % bs s.opc.cipher = 0
  ivThere : (derive s.opc s.len.toNat).needsIV = true → ivPresent s.opc.cipher s.ivWr = true
  srcInside : (derive s.opc s.len.toNat).usesSrc = true → s.srcAddr.toNat + s.len.toNat ≤ 4294967296
  dstInside : (derive s.opc s.len.toNat).writesDst = true → s.dstAddr.toNat + s.nblk * bs s.opc.cipher ≤ 4294967296
  lengthFits : s.nblk * bs s.opc.cipher ≤ 4294967295
  index : (s.seq = .run → s.blkI < s.nblk) ∧ (s.seq = .finish → s.blkI = s.nblk)
  indexShown : s.blkIdx = BitVec.ofNat 32 s.blkI

/-- The invariant: memory is canonical, ERR says whether ERRCODE is an error, an error reports no length (60 rule
R154), an idle block has no open command, unspecified data is always
flagged in FAULT (rules R61, R62), a running command is as `RunningInv` says. -/
structure Inv (s : State) : Prop where
  memCanonical : Memory.wf s.mem = true
  errMatches : s.err = true ↔ s.errcode ≠ .none
  errNoLength : s.err = true → s.outLen = 0
  idleClosed : s.seq = .idle → s.dstOpen = false
  openFlagged : s.dstOpen = true → s.faultSet ≠ FaultSet.empty
  running : s.seq ≠ .idle → RunningInv s

/-! ### Runs -/

/-- A clean entry (70_reset_and_hazards.md rule R183). -/
def CleanEntry (s : State) : Prop := s.seq = .idle ∧ s.faultSet = FaultSet.empty

/-- The end of a run: the host program is done and the engine idle (rule R182). -/
def RunEnded (s : State) : Prop := s.hostProg = [] ∧ s.seq = .idle

/-- A successful end: FAULT is empty too (rule R182). -/
def SafeEnd (s : State) : Prop := RunEnded s ∧ s.faultSet = FaultSet.empty

end Sys2Proof.Machine
end

