-- ==== Sys2Proof/Certificates/Slice0/Obligations.lean ====
section
/-!
DEFINITION. The statements for the provers, from the numbered rules of spec/. `exec i` is command i's next transition:
acceptance while idle, a block step in RUN, the finish step in FINISH (log entry 9).
-/

open Sys2Proof Sys2Proof.Machine

/-! ### Encoding -/

/-- 30_encoding.md rules R74, R77: a word decodes to a command exactly when it is that command's word. -/
def Obligations.DecodeInvertsEncode : Prop :=
  ∀ (w : Word) (i : Instr), decode w = .ok i ↔ encode i = w

/-- Rule R74: with every unit present, exactly the 23 words of the table are legal. -/
def Obligations.LegalWordsAreTheTable : Prop :=
  ∀ w : Word, (decodeFor Params.default w).isSome = true ↔ w ∈ tableWords

/-- Rules R73, R77: decoding is Illegal exactly on the words that are not legal; a legal word gives OPNAME[w[3:0]], the
cipher of w[4] and padf = w[5]. 40_command_lifecycle.md rule R82, 60_exceptions.md rule R147: an illegal word written to
CMD of an idle block completes with IllegalCommand, OUT_LEN, BLK_IDX and I at 0 (rule R81) and everything else as it
was: memory, CHAIN, IV, IV_WR, KEY, the descriptors, CTRL, WIGN, FAULT, OPC with its context, and LASTBLK. -/
def Obligations.DecoderFollowsLegality : Prop :=
  ∀ (w : Word) (s : State),
    (¬LegalWord s.params w → decodeFor s.params w = none ∧
      (s.seq = .idle → ∃ t, cmdWrite w s = .next t ∧ CompletedWith .illegalCommand t ∧ t.outLen = 0 ∧ t.blkIdx = 0 ∧
        t.blkI = 0 ∧ t.mem = s.mem ∧ t.chain = s.chain ∧ t.iv = s.iv ∧ t.ivWr = s.ivWr ∧ t.faultSet = s.faultSet ∧
        t.opc = s.opc ∧ t.nblk = s.nblk ∧ t.outlen = s.outlen ∧ t.lastBlk = s.lastBlk ∧ SameSetup s t)) ∧
    (LegalWord s.params w → ∃ i, decodeFor s.params w = some i ∧ opValue i = opNum w ∧
      i.cipher = (if cselNum w = 0 then .c128 else .c64) ∧ (i.padf = true ↔ padfNum w = 1)) ∧
    (s.seq = .idle → hostOp (.regWr 0x10#8 .b4 w) s = cmdWrite w (respond .ack s))

/-- Rule R74: one word of each row decodes to that row's command. -/
def Obligations.OneWordOfEachRowDecodes : Prop :=
  decode 0b000000#32 = .ok .nop ∧ decode 0b010001#32 = .ok (.pad .c64) ∧ decode 0b000010#32 = .ok (.unpad .c128) ∧
    decode 0b100011#32 = .ok (.ecbEnc .c128 true) ∧ decode 0b010100#32 = .ok (.ecbDec .c64 false) ∧
    decode 0b110101#32 = .ok (.cbcEnc .c64 true) ∧ decode 0b000110#32 = .ok (.cbcDec .c128 false) ∧
    decode 0b010111#32 = .ok (.genIv .c64)

/-! ### Steps -/

/-- Rules R24, R80: the host's write of a command word to CMD of an idle block runs that command's acceptance in the
same step; around it the transaction leaves the host program, its turn is used, and the write is acknowledged. The
host program and the schedule are the model's (log entries 7, 8, 9). -/
def Obligations.CommandWriteRunsTheDecodedCommand : Prop :=
  ∀ (s : State) (w : Word) (i : Instr) (rest : List HostOp) (turns : List Agent),
    s.seq = .idle → s.hostProg = .regWr 0x10#8 .b4 w :: rest →
    (s.sched = [] ∧ turns = [] ∨ s.sched = .host :: turns) → decode w = .ok i →
    step s = exec i (respond .ack { s with hostProg := rest, sched := turns })

/-- Rules R88, R90, R97: the engine's turn runs the latched command while BUSY and does nothing while idle. Who moves
when the schedule is empty is the model's choice (log entry 7). -/
def Obligations.EngineTurnRunsTheLatchedCommand : Prop :=
  ∀ (s : State) (turns : List Agent),
    (s.seq ≠ .idle → (s.sched = [] ∧ turns = [] ∨ s.sched = .engine :: turns) →
      step s = exec s.opc { s with sched := turns }) ∧
    (s.seq = .idle → s.sched = .engine :: turns → step s = .next { s with sched := turns })

/-! ### Invariants of every step -/

/-- The reset state meets the invariant (10_state.md rule R49). -/
def Obligations.ResetMeetsInvariant : Prop := Inv State.reset

/-- Every step keeps the invariant: memory canonical; ERR = (ERRCODE is an error), and then OUT_LEN = 0 (60 rule R154);
unspecified data always flagged in FAULT; a running command has passed its checks and its index agrees with SEQ. The
model's own in it: the latched outlen of UNPAD and of the decryptions with PADF = 1 is LEN until the finish step (log
entry 27), and "open data" is the field dstOpen (log entries 11, 12). -/
def Obligations.StepKeepsInvariant : Prop := ∀ s t : State, Inv s → step s = .next t → Inv t

/-- 40_command_lifecycle.md rule R97: from a state that meets the invariant, every step has a next state: the model's
one fault (log entry 18) is out of its reach. -/
def Obligations.InvariantStepNeverStops : Prop := ∀ s : State, Inv s → ∃ t, step s = .next t

/-- 10_state.md rule R48: no step removes a reason from FAULT. -/
def Obligations.FaultSetIsSticky : Prop :=
  ∀ s t : State, step s = .next t →
    (s.faultSet.hostBufferHazard = true → t.faultSet.hostBufferHazard = true) ∧
      (s.faultSet.partialOverlap = true → t.faultSet.partialOverlap = true)

/-- 00_scope.md rule R8, 10_state.md rule R22: no step changes a parameter, so CAPS reads the same from reset on; at
least one cipher is present. -/
def Obligations.StepKeepsParameters : Prop :=
  ∀ s t : State, step s = .next t → t.params = s.params ∧ regValue t .caps = regValue s .caps ∧
    (t.params.hasC128 = true ∨ t.params.hasC64 = true)

/-- 60_exceptions.md rules R155, R156: IRQ = IRQ_EN AND DONE at all times, and the host's sample of it shows that level
and changes nothing else; IRQ rises only with a completion (DONE rises and the block is idle) or with IRQ_EN while
DONE = 1. -/
def Obligations.InterruptRisesOnlyByCompletion : Prop :=
  ∀ s : State, (s.irq = true ↔ s.irqEn = true ∧ s.done = true) ∧
    (∃ level, hostOp .irqRd s = .next (respond (.irq level) s) ∧ (level = true ↔ s.irqEn = true ∧ s.done = true)) ∧
    ∀ t : State, step s = .next t → s.irq = false → t.irq = true →
      (s.done = false ∧ t.done = true ∧ t.seq = .idle) ∨ (s.done = true ∧ s.irqEn = false ∧ t.irqEn = true)

/-- 40_command_lifecycle.md rule R96: two idle machines that differ only in OPC, I and LASTBLK behave alike in every
run: whatever the one reaches, the other reaches with the same visible state. -/
def Obligations.HiddenStateNeverShows : Prop :=
  ∀ (s s' t : State) (n : Nat), s.seq = .idle → SameVisible s s' → runs n s = .next t →
    ∃ t', runs n s' = .next t' ∧ SameVisible t t'

/-! ### The register bus -/

/-- 10_state.md rule R18: a transaction that is not a word access gets a bus error and changes nothing else; one outside
the window at REG_BASE does not reach the block. -/
def Obligations.NonWordAccessesChangeNothing : Prop :=
  ∀ (s : State) (w addr : Word) (off : BitVec 8) (size : BusSize),
    (size ≠ .b4 ∨ off.toNat % 4 ≠ 0 →
      hostOp (.regWr off size w) s = .next (respond .busError s) ∧
        hostOp (.regRd off size) s = .next (respond .busError s)) ∧
    (addr.toNat < s.params.regBase.toNat ∨ s.params.regBase.toNat + 256 ≤ addr.toNat →
      hostOp (.busWr addr size w) s = .next (respond .unmapped s) ∧
        hostOp (.busRd addr size) s = .next (respond .unmapped s))

/-- 10_state.md rules R17, R18: a bus access inside the window at REG_BASE is the register access at its offset. -/
def Obligations.WindowAccessesReachTheBlock : Prop :=
  ∀ (s : State) (w addr : Word) (off : BitVec 8) (size : BusSize),
    addr.toNat = s.params.regBase.toNat + off.toNat →
      hostOp (.busWr addr size w) s = hostOp (.regWr off size w) s ∧
        hostOp (.busRd addr size) s = hostOp (.regRd off size) s

/-- 30_encoding.md rule R79: `wait` reads STATUS, and stays the host's next transaction exactly while BUSY (the host
program is the model's, log entry 7). -/
def Obligations.WaitReadsStatusUntilIdle : Prop :=
  ∀ s : State, ∃ w : Word, w.getLsbD 0 = s.busy ∧ hostOp (.regRd 0x14#8 .b4) s = .next (respond (.data w) s) ∧
    (s.seq = .idle → hostOp .wait s = .next (respond (.data w) s)) ∧
    (s.seq ≠ .idle → hostOp .wait s = .next { respond (.data w) s with hostProg := .wait :: s.hostProg })

/-- 10_state.md rules R20, R21, R22: ID, VERSION and CAPS read their constants at all times; C128 or C64 is present
(00_scope.md rule R8). A write to these and to the other read-only registers OUT_LEN, BLK_IDX and CHAIN0 to CHAIN3
changes nothing, idle or busy (rule R19). -/
def Obligations.IdentityRegistersAreConstant : Prop :=
  ∀ (s : State) (w : Word),
    hostOp (.regRd 0x00#8 .b4) s = .next (respond (.data 0x4D4F4445#32) s) ∧
    hostOp (.regRd 0x04#8 .b4) s = .next (respond (.data 0x00000007#32) s) ∧
    (∃ caps : Word, hostOp (.regRd 0x08#8 .b4) s = .next (respond (.data caps) s) ∧
      caps.getLsbD 0 = s.params.hasC128 ∧ caps.getLsbD 1 = s.params.hasC64 ∧ caps.getLsbD 2 = s.params.hasRng ∧
      (caps.getLsbD 0 = true ∨ caps.getLsbD 1 = true) ∧ caps.extractLsb' 3 5 = 0 ∧ caps.extractLsb' 8 8 = 16 ∧
      caps.extractLsb' 16 8 = 16 ∧ caps.extractLsb' 24 8 = 0 ∧
      (s.params = Params.default → caps = 0x00101007#32)) ∧
    ∀ off : BitVec 8, off ∈ [0x00#8, 0x04#8, 0x08#8, 0x24#8, 0x28#8, 0x50#8, 0x54#8, 0x58#8, 0x5C#8] →
      hostOp (.regWr off .b4 w) s = .next (respond .ack s)

/-- 10_state.md rule R37: reserved offsets read 0 and a word write to one has no effect. -/
def Obligations.ReservedOffsetsReadZero : Prop :=
  ∀ (s : State) (w : Word) (off : BitVec 8), off.toNat % 4 = 0 → (off = 0x2C#8 ∨ 0x60 ≤ off.toNat) →
    hostOp (.regRd off .b4) s = .next (respond (.data 0) s) ∧ hostOp (.regWr off .b4 w) s = .next (respond .ack s)

/-- 10_state.md rule R41: while BUSY a write to CMD, SRC_ADDR, DST_ADDR, LEN, KEY or IV changes nothing but WIGN, which
is set; no other register write sets WIGN. -/
def Obligations.BusyLockedWritesAreIgnored : Prop :=
  ∀ (s : State) (w : Word) (off : BitVec 8), s.seq ≠ .idle → off.toNat % 4 = 0 →
    (off ∈ [0x10#8, 0x18#8, 0x1C#8, 0x20#8, 0x30#8, 0x34#8, 0x38#8, 0x3C#8, 0x40#8, 0x44#8, 0x48#8, 0x4C#8] →
      hostOp (.regWr off .b4 w) s = .next { respond .ack s with wign := true }) ∧
    (off ∉ [0x10#8, 0x18#8, 0x1C#8, 0x20#8, 0x30#8, 0x34#8, 0x38#8, 0x3C#8, 0x40#8, 0x44#8, 0x48#8, 0x4C#8] →
      ∃ t, hostOp (.regWr off .b4 w) s = .next t ∧ (t.wign = true → s.wign = true))

/-- 10_state.md rules R24, R32, R33, R34, R38: an idle write of a descriptor stores the word and changes nothing else; a
descriptor reads its stored word at all times, idle or busy; CMD and KEY0 to KEY3 read 0 at all times. -/
def Obligations.DescriptorsReadBack : Prop :=
  ∀ (s : State) (w : Word),
    (s.seq = .idle → hostOp (.regWr 0x18#8 .b4 w) s = .next { respond .ack s with srcAddr := w } ∧
      hostOp (.regWr 0x1C#8 .b4 w) s = .next { respond .ack s with dstAddr := w } ∧
      hostOp (.regWr 0x20#8 .b4 w) s = .next { respond .ack s with len := w }) ∧
    hostOp (.regRd 0x18#8 .b4) s = .next (respond (.data s.srcAddr) s) ∧
    hostOp (.regRd 0x1C#8 .b4) s = .next (respond (.data s.dstAddr) s) ∧
    hostOp (.regRd 0x20#8 .b4) s = .next (respond (.data s.len) s) ∧
    ∀ off : BitVec 8, off ∈ [0x10#8, 0x30#8, 0x34#8, 0x38#8, 0x3C#8] →
      hostOp (.regRd off .b4) s = .next (respond (.data 0) s)

/-- 10_state.md rules R38, R39, 20_memory.md rule R52: an idle write of KEY word k or IV word k replaces bytes 4k to
4k+3 of the array by the bytes of the word, least significant first, and no other byte; an IV write sets bit k of
IV_WR; IV reads back, KEY reads 0; nothing else changes. -/
def Obligations.KeyAndIvWritesReplaceFourBytes : Prop :=
  ∀ (s : State) (w : Word) (k : Fin 4), s.seq = .idle →
    (∃ key, hostOp (.regWr (BitVec.ofNat 8 (0x30 + 4 * k.val)) .b4 w) s = .next { respond .ack s with key := key } ∧
      (∀ j, j < 16 → (regBytes key)[j]? =
        if j / 4 = k.val then some (w.extractLsb' (8 * (j % 4)) 8) else (regBytes s.key)[j]?) ∧
      hostOp (.regRd (BitVec.ofNat 8 (0x30 + 4 * k.val)) .b4) { s with key := key } =
        .next (respond (.data 0) { s with key := key })) ∧
    (∃ iv, hostOp (.regWr (BitVec.ofNat 8 (0x40 + 4 * k.val)) .b4 w) s =
        .next { respond .ack s with iv := iv, ivWr := s.ivWr ||| BitVec.ofNat 4 (2 ^ k.val) } ∧
      (∀ j, j < 16 → (regBytes iv)[j]? =
        if j / 4 = k.val then some (w.extractLsb' (8 * (j % 4)) 8) else (regBytes s.iv)[j]?) ∧
      hostOp (.regRd (BitVec.ofNat 8 (0x40 + 4 * k.val)) .b4) { s with iv := iv } =
        .next (respond (.data w) { s with iv := iv }))

/-- 20_memory.md rule R52: byte j of a block register is bits 8(j mod 4)+7 to 8(j mod 4) of its word j div 4, and the
rule's example. -/
def Obligations.BlockRegistersAreLittleEndian : Prop :=
  (∀ (r : Reg128) (j : Fin 16),
    (regBytes r)[j.val]? = some ((regWord r ⟨j.val / 4, by omega⟩).extractLsb' (8 * (j.val % 4)) 8)) ∧
  (∀ l : List Byte, l.length = 16 → regBytes (regOfBytes l) = l) ∧
  regOfBytes [0x30, 0x34, 0x32, 0x34, 0x33, 0x31, 0x32, 0x30, 0x34, 0x32, 0x30, 0x30, 0x30, 0x30, 0x30, 0x30] =
    ⟨0x34323430, 0x30323133, 0x30303234, 0x30303030⟩

/-- 10_state.md rule R25, 60_exceptions.md rule R143: what a read of STATUS shows, bit by bit, with the code of each
error as its number; the read changes nothing. -/
def Obligations.StatusReadShowsTheFields : Prop :=
  ∀ s : State, ∃ w : Word, hostOp (.regRd 0x14#8 .b4) s = .next (respond (.data w) s) ∧
    w.getLsbD 0 = s.busy ∧ w.getLsbD 1 = s.done ∧ w.getLsbD 2 = s.err ∧ w.getLsbD 3 = s.wign ∧
    (w.extractLsb' 4 4).toNat = (match s.errcode with
      | .none => 0
      | .invalidPadding => 1
      | .invalidBlockAlignment => 2
      | .missingIV => 3
      | .illegalCommand => 4
      | .rangeError => 5
      | .busError => 6) ∧
    w.extractLsb' 8 4 = s.ivWr ∧ w.extractLsb' 12 20 = 0

/-- 10_state.md rule R31: a STATUS write, also while BUSY, clears DONE by bit 1, ERR and ERRCODE by bit 2, WIGN by bit
3, and changes nothing else. -/
def Obligations.StatusWriteClearsByOnes : Prop :=
  ∀ (s : State) (w : Word),
    hostOp (.regWr 0x14#8 .b4 w) s = .next
      { respond .ack s with
        done := if w.getLsbD 1 then false else s.done
        err := if w.getLsbD 2 then false else s.err
        errcode := if w.getLsbD 2 then .none else s.errcode
        wign := if w.getLsbD 3 then false else s.wign }

/-- 10_state.md rule R23: a CTRL write, also while BUSY, stores bit 0 only; bits 31:1 read 0. -/
def Obligations.CtrlStoresOnlyIrqEnable : Prop :=
  ∀ (s : State) (w : Word),
    hostOp (.regWr 0x0C#8 .b4 w) s = .next { respond .ack s with irqEn := w.getLsbD 0 } ∧
      hostOp (.regRd 0x0C#8 .b4) s = .next (respond (.data (if s.irqEn then 1 else 0)) s)

/-- 10_state.md rule R42: while BUSY a read of CHAIN or BLK_IDX, and during GEN_IV one of IV, returns a free value (some
word that no other part of the state shows) and changes nothing but the counter of free values, which is the model's
(log entries 4, 16); IV reads its stored word during any other command; OUT_LEN reads its stored word at all times, and
so do CHAIN, BLK_IDX and IV while idle (the other registers: IdentityRegistersAreConstant, DescriptorsReadBack,
StatusReadShowsTheFields, CtrlStoresOnlyIrqEnable). That BLK_IDX after a BusError is a stored word too, itself a free
value, so that two reads of it agree, is the model's reading (log entry 15). -/
def Obligations.ReadsOfProgressAreFreeWhileBusy : Prop :=
  ∀ (s : State) (k : Fin 4),
    (s.seq ≠ .idle →
      hostOp (.regRd (BitVec.ofNat 8 (0x50 + 4 * k.val)) .b4) s =
          .next (respond (.data (wordOfBytes (drawn s 4) 0)) { s with draws := s.draws + 4 }) ∧
        hostOp (.regRd 0x28#8 .b4) s =
          .next (respond (.data (wordOfBytes (drawn s 4) 0)) { s with draws := s.draws + 4 }) ∧
        (s.opc.isGenIv = true → hostOp (.regRd (BitVec.ofNat 8 (0x40 + 4 * k.val)) .b4) s =
          .next (respond (.data (wordOfBytes (drawn s 4) 0)) { s with draws := s.draws + 4 })) ∧
        (s.opc.isGenIv = false → hostOp (.regRd (BitVec.ofNat 8 (0x40 + 4 * k.val)) .b4) s =
          .next (respond (.data (regWord s.iv k)) s))) ∧
    (s.seq = .idle →
      hostOp (.regRd (BitVec.ofNat 8 (0x50 + 4 * k.val)) .b4) s = .next (respond (.data (regWord s.chain k)) s) ∧
        hostOp (.regRd 0x28#8 .b4) s = .next (respond (.data s.blkIdx) s) ∧
        hostOp (.regRd (BitVec.ofNat 8 (0x40 + 4 * k.val)) .b4) s = .next (respond (.data (regWord s.iv k)) s)) ∧
    hostOp (.regRd 0x24#8 .b4) s = .next (respond (.data s.outLen) s)

/-! ### The host and data memory -/

/-- 20_memory.md rules R59, R61: a host access that is no hazard reads what memory holds, or changes exactly one byte;
FAULT does not change. That a host read of SRC while busy is no hazard is the model's reading (log entry 13). -/
def Obligations.HostMemoryAccessesOutsideTheBuffers : Prop :=
  ∀ (s : State) (a : Word) (b : Byte), Memory.wf s.mem = true →
    (s.seq = .idle ∨ (inSrc s a.toNat = false ∧ inDst s a.toNat = false) →
      ∃ m, hostOp (.memWr a b) s = .next { respond .ack s with mem := m } ∧ Memory.wf m = true ∧
        Memory.read m a.toNat = b ∧ ∀ x, x ≠ a.toNat → Memory.read m x = Memory.read s.mem x) ∧
    (s.seq = .idle ∨ inDst s a.toNat = false →
      hostOp (.memRd a) s = .next (respond (.byte (Memory.read s.mem a.toNat)) s))

/-- 20_memory.md rule R61: while BUSY a host read of the DST region, or a host write of the SRC or DST region, adds
HostBufferHazard to FAULT; the read returns a free value, the write leaves the command's data unspecified (how is the
model's choice, log entries 4, 12). -/
def Obligations.HostBufferHazardsAreFlagged : Prop :=
  ∀ (s : State) (a : Word) (b : Byte), s.seq ≠ .idle →
    ((s.srcAddr.toNat ≤ a.toNat ∧ a.toNat < s.srcAddr.toNat + s.len.toNat ∨
        s.dstAddr.toNat ≤ a.toNat ∧ a.toNat < s.dstAddr.toNat + s.nblk * bs s.opc.cipher) →
      ∃ t, hostOp (.memWr a b) s = .next t ∧ t.faultSet = { s.faultSet with hostBufferHazard := true } ∧
        t.dstOpen = true) ∧
    ((s.dstAddr.toNat ≤ a.toNat ∧ a.toNat < s.dstAddr.toNat + s.nblk * bs s.opc.cipher) →
      ∃ t, hostOp (.memRd a) s = .next t ∧ t.faultSet = { s.faultSet with hostBufferHazard := true } ∧
        t.obs = .byte (Config.draw s.draws) :: s.obs ∧ t.mem = s.mem)

/-! ### Acceptance -/

/-- 40_command_lifecycle.md rules R81 to R86, R92, 60_exceptions.md rules R145 to R148, R150, R165: an idle block
rejects a command with the first code that applies, in the order IllegalCommand, InvalidBlockAlignment, MissingIV (some
of IV_WR[3:0] clear for C128, of IV_WR[1:0] for C64), RangeError; memory, CHAIN, IV and FAULT stay; IV_WR is cleared by
a legal CBC command only. -/
def Obligations.RejectionsComeInOrder : Prop :=
  ∀ (i : Instr) (s : State), s.seq = .idle →
    let d := derive i s.len.toNat
    let code :=
      if i.wellFormed s.params = false then ErrCode.illegalCommand
      else if d.aligned = true ∧ s.len.toNat % bs i.cipher ≠ 0 then ErrCode.invalidBlockAlignment
      else if i.isCbc = true ∧ (i.cipher = .c128 ∧ s.ivWr ≠ 0b1111#4 ∨
          i.cipher = .c64 ∧ s.ivWr.extractLsb' 0 2 ≠ 0b11#2) then ErrCode.missingIV
      else if (d.usesSrc = true ∧ 4294967296 < s.srcAddr.toNat + s.len.toNat) ∨
          (d.writesDst = true ∧ 4294967296 < s.dstAddr.toNat + d.nblk * bs i.cipher) ∨
          4294967295 < d.nblk * bs i.cipher then ErrCode.rangeError
      else ErrCode.none
    code ≠ .none →
      ∃ t, exec i s = .next t ∧ CompletedWith code t ∧ t.outLen = 0 ∧ t.blkIdx = 0 ∧ t.blkI = 0 ∧ t.mem = s.mem ∧
        t.chain = s.chain ∧ t.iv = s.iv ∧ t.faultSet = s.faultSet ∧ SameSetup s t ∧
        t.ivWr = (if i.isCbc = true ∧ code ≠ .illegalCommand then 0 else s.ivWr)

/-- 40_command_lifecycle.md rules R81, R83, R87, R89: a command that passes its checks is latched and starts: BUSY with
SEQ = RUN when it has blocks, FINISH otherwise; the old outcome is cleared; a CBC command sets CHAIN to the IV bytes of
its block and zeros; memory, IV, IV_WR, KEY and the descriptors stay. -/
def Obligations.AcceptedCommandsStart : Prop :=
  ∀ (i : Instr) (s : State), Accepts i s →
    ∃ t, exec i s = .next t ∧ t.seq = (if 0 < (derive i s.len.toNat).nblk then .run else .finish) ∧ t.opc = i ∧
      t.nblk = (derive i s.len.toNat).nblk ∧ t.blkI = 0 ∧ t.blkIdx = 0 ∧ t.outLen = 0 ∧ t.done = false ∧
      t.err = false ∧ t.errcode = .none ∧ t.mem = s.mem ∧ t.iv = s.iv ∧ t.ivWr = s.ivWr ∧ SameSetup s t ∧
      (i.isCbc = false → t.chain = s.chain) ∧
      (i.isCbc = true → regBytes t.chain = (regBytes s.iv).take (bs i.cipher) ++ List.replicate (16 - bs i.cipher) 0)

/-- 20_memory.md rule R62, 40_command_lifecycle.md rule R87: acceptance of a command whose SRC and DST regions overlap
without being in place adds PartialOverlap to FAULT; in-place or disjoint regions add nothing. -/
def Obligations.PartialOverlapIsFlagged : Prop :=
  ∀ (i : Instr) (s : State), Accepts i s → (derive i s.len.toNat).writesDst = true →
    (BuffersApart s ((derive i s.len.toNat).nblk * bs i.cipher) → ∃ t, exec i s = .next t ∧ t.faultSet = s.faultSet) ∧
    (¬BuffersApart s ((derive i s.len.toNat).nblk * bs i.cipher) →
      ∃ t, exec i s = .next t ∧ t.faultSet = { s.faultSet with partialOverlap := true })

/-! ### Block steps

A block step is stated for a platform that serves the accesses of that block (`AtBlock`), whatever it does with the
command's other blocks.
-/

/-- 41_padding.md rule R105, 20_memory.md rules R53, R54: block step I of PAD writes block I of pad(src, b). -/
def Obligations.PadBlockStep : Prop :=
  ∀ (c : Cipher) (s : State), AtBlock (.pad c) s →
    ∃ t, exec (.pad c) s = .next t ∧ BlockWritten c s t (block (bs c) (pad (srcBytes s) (bs c)) s.blkI) ∧
      t.chain = s.chain

/-- 42_ecb.md rule R118: block step I of ECB_ENC writes Enc_c(k, x), x block I of the source or of its padded stream. -/
def Obligations.EcbEncBlockStep : Prop :=
  ∀ (c : Cipher) (p : Bool) (s : State), AtBlock (.ecbEnc c p) s →
    ∃ t, exec (.ecbEnc c p) s = .next t ∧ t.chain = s.chain ∧
      BlockWritten c s t (enc c (keyOf c s.key)
        (block (bs c) (if p then pad (srcBytes s) (bs c) else srcBytes s) s.blkI))

/-- 42_ecb.md rule R120: block step I of ECB_DEC writes Dec_c(k, y), y block I of the source. -/
def Obligations.EcbDecBlockStep : Prop :=
  ∀ (c : Cipher) (p : Bool) (s : State), AtBlock (.ecbDec c p) s →
    ∃ t, exec (.ecbDec c p) s = .next t ∧ t.chain = s.chain ∧
      BlockWritten c s t (dec c (keyOf c s.key) (block (bs c) (srcBytes s) s.blkI))

/-- 43_cbc.md rule R128: block step I of CBC_ENC writes y = Enc_c(k, xor(x, CHAINB[0..b))) and sets CHAINB[0..b) to y,
the other CHAIN bytes unchanged. -/
def Obligations.CbcEncBlockStep : Prop :=
  ∀ (c : Cipher) (p : Bool) (s : State), AtBlock (.cbcEnc c p) s →
    ∃ t y, exec (.cbcEnc c p) s = .next t ∧ BlockWritten c s t y ∧
      y = enc c (keyOf c s.key)
        (xorBytes (block (bs c) (if p then pad (srcBytes s) (bs c) else srcBytes s) s.blkI) (blockOf c s.chain)) ∧
      regBytes t.chain = y ++ (regBytes s.chain).drop (bs c)

/-- 43_cbc.md rule R133: block step I of CBC_DEC writes xor(Dec_c(k, y), CHAINB[0..b)) for the ciphertext block y and
sets CHAINB[0..b) to y, the other CHAIN bytes unchanged. -/
def Obligations.CbcDecBlockStep : Prop :=
  ∀ (c : Cipher) (p : Bool) (s : State), AtBlock (.cbcDec c p) s →
    ∃ t, exec (.cbcDec c p) s = .next t ∧
      BlockWritten c s t
        (xorBytes (dec c (keyOf c s.key) (block (bs c) (srcBytes s) s.blkI)) (blockOf c s.chain)) ∧
      regBytes t.chain = block (bs c) (srcBytes s) s.blkI ++ (regBytes s.chain).drop (bs c)

/-- 60_exceptions.md rule R149, 20_memory.md rule R57: a block step one of whose bytes the platform refuses ends the
command with BusError: OUT_LEN = 0, IV_WR cleared for CBC only, memory outside the DST region unchanged. -/
def Obligations.BusErrorEndsTheCommand : Prop :=
  ∀ (i : Instr) (s : State), Inv s → s.seq = .run → s.opc = i → (derive i s.len.toNat).writesDst = true →
    (∃ j, j < (inSpan i s).2 ∧ memOK s.params ((inSpan i s).1 + j) .read = false) ∨
      (∃ j, j < bs i.cipher ∧ memOK s.params (s.dstAddr.toNat + s.blkI * bs i.cipher + j) .write = false) →
    ∃ t, exec i s = .next t ∧ CompletedWith .busError t ∧ t.outLen = 0 ∧
      SameOutside s t s.dstAddr.toNat (s.nblk * bs i.cipher) ∧ SameSetup s t ∧ t.iv = s.iv ∧
      t.ivWr = (if i.isCbc then 0 else s.ivWr)

/-! ### Finish steps -/

/-- 40_command_lifecycle.md rules R90, R92, R93: the finish step of NOP, PAD, ECB_ENC, CBC_ENC and of a decryption with
PADF = 0 completes with no error and OUT_LEN = outlen; memory, CHAIN, IV and BLK_IDX stay, IV_WR is cleared by CBC. -/
def Obligations.PlainFinishCompletes : Prop :=
  ∀ (c : Cipher) (p : Bool) (i : Instr) (s : State),
    i ∈ [.nop, .pad c, .ecbEnc c p, .cbcEnc c p, .ecbDec c false, .cbcDec c false] → s.seq = .finish →
    s.dstOpen = false →
    ∃ t, exec i s = .next t ∧ CompletedWith .none t ∧ t.outLen = BitVec.ofNat 32 s.outlen ∧ t.mem = s.mem ∧
      t.chain = s.chain ∧ t.blkIdx = s.blkIdx ∧ t.iv = s.iv ∧ t.ivWr = (if i.isCbc then 0 else s.ivWr) ∧
      t.faultSet = s.faultSet ∧ SameSetup s t

/-- 42_ecb.md rule R121, 43_cbc.md rule R135, 41_padding.md rules R102, R107: the finish step of a decryption with
PADF = 1 checks LASTBLK: padded by n, it completes with OUT_LEN = LEN - n; not padded, or no block, InvalidPadding with
OUT_LEN = 0. Memory, CHAIN, IV and BLK_IDX stay either way. -/
def Obligations.DecryptFinishChecksThePadding : Prop :=
  ∀ (c : Cipher) (i : Instr) (s : State), i = .ecbDec c true ∨ i = .cbcDec c true → s.seq = .finish →
    s.dstOpen = false →
    ∃ t, exec i s = .next t ∧ t.mem = s.mem ∧ t.chain = s.chain ∧ t.blkIdx = s.blkIdx ∧ t.iv = s.iv ∧
      t.ivWr = (if i.isCbc then 0 else s.ivWr) ∧ t.faultSet = s.faultSet ∧ SameSetup s t ∧
      (∀ n, 0 < s.nblk → PaddedBy (blockOf c s.lastBlk) (bs c) n →
        CompletedWith .none t ∧ t.outLen = BitVec.ofNat 32 (s.len.toNat - n)) ∧
      (s.nblk = 0 ∨ (∀ n, ¬PaddedBy (blockOf c s.lastBlk) (bs c) n) → CompletedWith .invalidPadding t ∧ t.outLen = 0)

/-- 41_padding.md rules R106, R107: the finish step of UNPAD reads the last block of SRC: padded by n, it completes with
OUT_LEN = LEN - n; not padded, InvalidPadding; LEN = 0, InvalidPadding with no access; a refused read, BusError. It
writes no memory, IV and IV_WR stay, and CHAIN and BLK_IDX stay but after a refused read. -/
def Obligations.UnpadFinishChecksThePadding : Prop :=
  ∀ (c : Cipher) (s : State), s.seq = .finish → s.dstOpen = false → s.nblk = 0 →
    s.srcAddr.toNat + s.len.toNat ≤ 4294967296 → (s.len.toNat = 0 ∨ bs c ≤ s.len.toNat) →
    ∃ t, exec (.unpad c) s = .next t ∧ SameMemory s t ∧ t.iv = s.iv ∧ t.ivWr = s.ivWr ∧ t.faultSet = s.faultSet ∧
      SameSetup s t ∧
      (if s.len.toNat = 0 then CompletedWith .invalidPadding t ∧ t.outLen = 0 ∧ t.blkIdx = s.blkIdx ∧ t.chain = s.chain
      else if ∃ j, j < bs c ∧ memOK s.params (s.srcAddr.toNat + s.len.toNat - bs c + j) .read = false then
        CompletedWith .busError t ∧ t.outLen = 0
      else t.blkIdx = s.blkIdx ∧ t.chain = s.chain ∧
        (∀ n, PaddedBy (Memory.readBytes s.mem (s.srcAddr.toNat + s.len.toNat - bs c) (bs c)) (bs c) n →
          CompletedWith .none t ∧ t.outLen = BitVec.ofNat 32 (s.len.toNat - n)) ∧
        ((∀ n, ¬PaddedBy (Memory.readBytes s.mem (s.srcAddr.toNat + s.len.toNat - bs c) (bs c)) (bs c) n) →
          CompletedWith .invalidPadding t ∧ t.outLen = 0))

/-- 43_cbc.md rule R140: the finish step of GEN_IV puts b drawn bytes into IVB[0..b), zeros into the rest, and the
block's mask into IV_WR; CHAIN, KEY and memory stay. The bytes are free values (log entry 4). -/
def Obligations.GenIvFillsTheIv : Prop :=
  ∀ (c : Cipher) (s : State), s.seq = .finish → s.dstOpen = false → s.outlen = 0 →
    ∃ t, exec (.genIv c) s = .next t ∧ CompletedWith .none t ∧
      regBytes t.iv = (List.range (bs c)).map (fun j => Config.draw (s.draws + j)) ++ List.replicate (16 - bs c) 0 ∧
      t.draws = s.draws + bs c ∧ t.ivWr = (match c with | .c128 => 0b1111#4 | .c64 => 0b0011#4) ∧ t.outLen = 0 ∧
      t.blkIdx = s.blkIdx ∧ t.chain = s.chain ∧ t.mem = s.mem ∧ t.faultSet = s.faultSet ∧ SameSetup s t

/-! ### Frames of every command -/

/-- 10_state.md rules R39 to R41, R126: whatever a command's transition does, the parameters, CTRL, WIGN, the
descriptors and KEY stay; IV only GEN_IV writes; IV_WR only GEN_IV and CBC; CHAIN only CBC, but for a BusError. -/
def Obligations.ExecKeepsTheOtherRegisters : Prop :=
  ∀ (i : Instr) (s t : State), exec i s = .next t →
    SameSetup s t ∧ (i.isGenIv = false → t.iv = s.iv) ∧
      (i.isGenIv = false → i.isCbc = false → t.ivWr = s.ivWr) ∧
      (i.isCbc = false → t.errcode ≠ .busError → t.chain = s.chain) ∧
      t.faultSet.hostBufferHazard = s.faultSet.hostBufferHazard

/-- 20_memory.md rules R54, R55: acceptance changes no byte; a block step that goes on changes only its block at
DST_ADDR + I*b; a transition that completes the command changes only the DST region, and no byte unless it is a
BusError or the data was open. -/
def Obligations.ExecWritesOnlyItsBlock : Prop :=
  ∀ (i : Instr) (s t : State), exec i s = .next t →
    (s.seq = .idle → SameMemory s t) ∧
    (s.seq ≠ .idle → t.seq ≠ .idle → SameOutside s t (s.dstAddr.toNat + s.blkI * bs i.cipher) (bs i.cipher)) ∧
    (s.seq ≠ .idle → t.seq = .idle → SameOutside s t s.dstAddr.toNat (s.nblk * bs s.opc.cipher)) ∧
    (s.seq ≠ .idle → t.seq = .idle → t.errcode ≠ .busError → s.dstOpen = false → SameMemory s t)

/-- 43_cbc.md rule R139, 40_command_lifecycle.md rule R92: every completion of a legal CBC command clears IV_WR, so an
immediate second CBC command of any cipher is rejected with MissingIV when its length is aligned. -/
def Obligations.CbcCommandsConsumeTheIv : Prop :=
  ∀ (i : Instr) (s t : State), i.isCbc = true → i.wellFormed s.params = true → exec i s = .next t → t.seq = .idle →
    t.ivWr = 0 ∧ ∀ i' : Instr, i'.isCbc = true → i'.wellFormed t.params = true →
      ((derive i' t.len.toNat).aligned = true → t.len.toNat % bs i'.cipher = 0) →
      ∃ u, exec i' t = .next u ∧ CompletedWith .missingIV u

/-- 60_exceptions.md rule R149, 20_memory.md rules R61, R62: a command that ends with BusError, or whose data a host
access or an overlap left open, ends with its whole DST region at free values; after a BusError of any command CHAIN and
BLK_IDX are free values too, other ones (40_command_lifecycle.md rule R92; for commands that are not CBC log entry 14,
for BLK_IDX log entry 15). None of these values was drawn before. When and in which order they are drawn is the model's
choice (log entries 4, 11, 12). -/
def Obligations.SpoiledDestinationsHoldFreeValues : Prop :=
  ∀ s t : State, Inv s → s.seq ≠ .idle → exec s.opc s = .next t → t.seq = .idle →
    t.errcode = .busError ∨ s.dstOpen = true →
    ∃ d e, s.draws ≤ d ∧ d + s.nblk * bs s.opc.cipher ≤ e ∧ e ≤ t.draws ∧
      Memory.readBytes t.mem s.dstAddr.toNat (s.nblk * bs s.opc.cipher) =
        (List.range (s.nblk * bs s.opc.cipher)).map (fun j => Config.draw (d + j)) ∧
      (t.errcode = .busError → e + 20 ≤ t.draws ∧
        regBytes t.chain = (List.range 16).map (fun j => Config.draw (e + j)) ∧
        wordBytes t.blkIdx = (List.range 4).map (fun j => Config.draw (e + 16 + j)))

/-! ### Whole commands

The host writes the command to CMD; the turns `l` follow and then the engine's. Every order of the agents is meant, the
host's accesses between the engine's steps included: `l` is named by the schedule, or the schedule is empty, and then
that the engine has every turn while BUSY is the model's choice (log entry 7).
-/

/-- 40_command_lifecycle.md rules R97, R181: a command that passes its checks completes after exactly nblk + 1 engine
steps, or earlier with BusError, and is BUSY at every step before, whatever the host does in between. (With an empty
schedule the turns are log entry 7's.) -/
def Obligations.CommandsCompleteInNblkPlusOneSteps : Prop :=
  ∀ (i : Instr) (l : List Agent) (rest : List HostOp) (s : State), Inv s → Accepts i s → HostWrites i rest s →
    TurnsAfter l s → (derive i s.len.toNat).nblk + 1 ≤ l.count .engine →
    ∃ m t, m ≤ l.length ∧ runs (1 + m) s = .next t ∧ t.seq = .idle ∧ t.done = true ∧
      (l.take m).count .engine ≤ (derive i s.len.toNat).nblk + 1 ∧
      ((l.take m).count .engine = (derive i s.len.toNat).nblk + 1 ∨ t.errcode = .busError) ∧
      ∀ k, k < m → ∃ u, runs (1 + k) s = .next u ∧ u.seq ≠ .idle

/-- 41_padding.md rule R105: PAD leaves pad(src, b) at DST_ADDR, OUT_LEN = LEN + n, BLK_IDX = (LEN + n) div b, with
every other byte, CHAIN, IV and IV_WR unchanged, after nblk + 1 engine steps with quiet host turns between them. (With
an empty schedule the turns are log entry 7's.) -/
def Obligations.PadWritesThePaddedCopy : Prop :=
  ∀ (c : Cipher) (l : List Agent) (rest : List HostOp) (s : State), Memory.wf s.mem = true → Accepts (.pad c) s →
    Issues (.pad c) l rest s →
    let n := padlen s.len.toNat (bs c)
    let nblk := (s.len.toNat + n) / bs c
    BuffersApart s (nblk * bs c) → MemoryServes s (nblk * bs c) →
    ∃ t, runs (l.length + 2) s = .next t ∧ CompletedWith .none t ∧
      dstBytes t (s.len.toNat + n) = pad (srcBytes s) (bs c) ∧
      SameOutside s t s.dstAddr.toNat (s.len.toNat + n) ∧ t.outLen = BitVec.ofNat 32 (s.len.toNat + n) ∧
      t.blkIdx = BitVec.ofNat 32 nblk ∧ t.chain = s.chain ∧ t.iv = s.iv ∧ t.ivWr = s.ivWr ∧ t.key = s.key ∧
      t.faultSet = s.faultSet ∧ (.host ∉ l → t.hostProg = rest)

/-- 42_ecb.md rules R115, R117: ECB_ENC leaves ECB_encrypt of the source, or of its padded stream, at DST_ADDR, after
nblk + 1 engine steps with quiet host turns between them. (With an empty schedule the turns are log entry 7's.) -/
def Obligations.EcbEncWritesTheCiphertext : Prop :=
  ∀ (c : Cipher) (p : Bool) (l : List Agent) (rest : List HostOp) (s : State), Memory.wf s.mem = true →
    Accepts (.ecbEnc c p) s →
    Issues (.ecbEnc c p) l rest s →
    let input := if p then pad (srcBytes s) (bs c) else srcBytes s
    BuffersApart s input.length → MemoryServes s input.length →
    ∃ t, runs (l.length + 2) s = .next t ∧ CompletedWith .none t ∧
      dstBytes t input.length = ecb (enc c (keyOf c s.key)) (bs c) input ∧
      SameOutside s t s.dstAddr.toNat input.length ∧ t.outLen = BitVec.ofNat 32 input.length ∧
      t.blkIdx = BitVec.ofNat 32 (input.length / bs c) ∧ t.chain = s.chain ∧ t.iv = s.iv ∧ t.ivWr = s.ivWr ∧
      t.key = s.key ∧ t.faultSet = s.faultSet ∧ (.host ∉ l → t.hostProg = rest)

/-- 42_ecb.md rules R116, R119, R121: ECB_DEC leaves ECB_decrypt of the source at DST_ADDR; with PADF = 1 it reports the
length without the padding of the result, or InvalidPadding. After nblk + 1 engine steps with quiet host turns between
them. (With an empty schedule the turns are log entry 7's.) -/
def Obligations.EcbDecWritesThePlaintext : Prop :=
  ∀ (c : Cipher) (p : Bool) (l : List Agent) (rest : List HostOp) (s : State), Memory.wf s.mem = true →
    Accepts (.ecbDec c p) s →
    Issues (.ecbDec c p) l rest s → BuffersApart s s.len.toNat → MemoryServes s s.len.toNat →
    let out := ecb (dec c (keyOf c s.key)) (bs c) (srcBytes s)
    ∃ t, runs (l.length + 2) s = .next t ∧ dstBytes t s.len.toNat = out ∧
      SameOutside s t s.dstAddr.toNat s.len.toNat ∧ t.blkIdx = BitVec.ofNat 32 (s.len.toNat / bs c) ∧
      t.chain = s.chain ∧ t.iv = s.iv ∧ t.ivWr = s.ivWr ∧ t.key = s.key ∧ t.faultSet = s.faultSet ∧
      (.host ∉ l → t.hostProg = rest) ∧
      (if p then
        (match unpad out (bs c) with
          | some d => CompletedWith .none t ∧ t.outLen = BitVec.ofNat 32 d.length
          | none => CompletedWith .invalidPadding t ∧ t.outLen = 0)
      else CompletedWith .none t ∧ t.outLen = s.len)

/-- 43_cbc.md rules R127, R129: CBC_ENC leaves CBC_encrypt of the source, or of its padded stream, under the IV at
DST_ADDR, the final chain value in CHAIN, and clears IV_WR; the IV stays. After nblk + 1 engine steps with quiet host
turns between them. (With an empty schedule the turns are log entry 7's.) -/
def Obligations.CbcEncWritesTheCiphertext : Prop :=
  ∀ (c : Cipher) (p : Bool) (l : List Agent) (rest : List HostOp) (s : State), Memory.wf s.mem = true →
    Accepts (.cbcEnc c p) s →
    Issues (.cbcEnc c p) l rest s →
    let input := if p then pad (srcBytes s) (bs c) else srcBytes s
    BuffersApart s input.length → MemoryServes s input.length →
    let r := cbcEncrypt (enc c (keyOf c s.key)) (bs c) (blockOf c s.iv) input
    ∃ t, runs (l.length + 2) s = .next t ∧ CompletedWith .none t ∧ dstBytes t input.length = r.1 ∧
      blockOf c t.chain = r.2 ∧ SameOutside s t s.dstAddr.toNat input.length ∧
      t.outLen = BitVec.ofNat 32 input.length ∧ t.blkIdx = BitVec.ofNat 32 (input.length / bs c) ∧ t.iv = s.iv ∧
      t.ivWr = 0 ∧ t.key = s.key ∧ t.faultSet = s.faultSet ∧ (.host ∉ l → t.hostProg = rest)

/-- 43_cbc.md rules R131, R132, R135: CBC_DEC leaves CBC_decrypt of the source under the IV at DST_ADDR and the last
ciphertext block (or the IV) in CHAIN; with PADF = 1 it reports the length without the padding, or InvalidPadding. After
nblk + 1 engine steps with quiet host turns between them. (With an empty schedule the turns are log entry 7's.) -/
def Obligations.CbcDecWritesThePlaintext : Prop :=
  ∀ (c : Cipher) (p : Bool) (l : List Agent) (rest : List HostOp) (s : State), Memory.wf s.mem = true →
    Accepts (.cbcDec c p) s →
    Issues (.cbcDec c p) l rest s → BuffersApart s s.len.toNat → MemoryServes s s.len.toNat →
    let r := cbcDecrypt (dec c (keyOf c s.key)) (bs c) (blockOf c s.iv) (srcBytes s)
    ∃ t, runs (l.length + 2) s = .next t ∧ dstBytes t s.len.toNat = r.1 ∧ blockOf c t.chain = r.2 ∧
      SameOutside s t s.dstAddr.toNat s.len.toNat ∧ t.blkIdx = BitVec.ofNat 32 (s.len.toNat / bs c) ∧
      t.iv = s.iv ∧ t.ivWr = 0 ∧ t.key = s.key ∧ t.faultSet = s.faultSet ∧ (.host ∉ l → t.hostProg = rest) ∧
      (if p then
        (match unpad r.1 (bs c) with
          | some d => CompletedWith .none t ∧ t.outLen = BitVec.ofNat 32 d.length
          | none => CompletedWith .invalidPadding t ∧ t.outLen = 0)
      else CompletedWith .none t ∧ t.outLen = s.len)

/-- 41_padding.md rules R102, R106: UNPAD of a source whose last block the platform serves reports the length of
unpad(src, b), or InvalidPadding, after one engine step with quiet host turns before it, and changes no byte of memory.
(With an empty schedule that turn is log entry 7's.) -/
def Obligations.UnpadReportsTheUnpaddedLength : Prop :=
  ∀ (c : Cipher) (l : List Agent) (rest : List HostOp) (s : State), Accepts (.unpad c) s →
    Issues (.unpad c) l rest s →
    (∀ a, s.srcAddr.toNat + s.len.toNat ≤ a + bs c → a < s.srcAddr.toNat + s.len.toNat →
      memOK s.params a .read = true) →
    ∃ t, runs (l.length + 2) s = .next t ∧ t.mem = s.mem ∧ t.blkIdx = 0 ∧ t.chain = s.chain ∧ t.iv = s.iv ∧
      t.ivWr = s.ivWr ∧ t.key = s.key ∧ t.faultSet = s.faultSet ∧ (.host ∉ l → t.hostProg = rest) ∧
      (match unpad (srcBytes s) (bs c) with
        | some d => CompletedWith .none t ∧ t.outLen = BitVec.ofNat 32 d.length
        | none => CompletedWith .invalidPadding t ∧ t.outLen = 0)

/-- 40_command_lifecycle.md rule R93: NOP completes after one engine step, with quiet host turns before it, with OUT_LEN
= BLK_IDX = 0, no memory access, and KEY, IV, IV_WR and CHAIN unchanged. (With an empty schedule that turn is log entry
7's.) -/
def Obligations.NopCompletesWithNoEffect : Prop :=
  ∀ (l : List Agent) (rest : List HostOp) (s : State), s.seq = .idle → Issues .nop l rest s →
    ∃ t, runs (l.length + 2) s = .next t ∧ CompletedWith .none t ∧ t.outLen = 0 ∧ t.blkIdx = 0 ∧ t.mem = s.mem ∧
      t.key = s.key ∧ t.iv = s.iv ∧ t.ivWr = s.ivWr ∧ t.chain = s.chain ∧ t.faultSet = s.faultSet ∧
      (.host ∉ l → t.hostProg = rest)

/-! ### The codec and the modes -/

/-- 41_padding.md rule R101: the length laws of pad, for block sizes 8 and 16. -/
def Obligations.PadLengthLaws : Prop :=
  ∀ (data : List Byte) (b : Nat), b = 8 ∨ b = 16 →
    (pad data b).length % b = 0 ∧ data.length + 1 ≤ (pad data b).length ∧
    (pad data b).length = (data.length + 1 + (b - 1)) / b * b ∧
    ∃ n, 1 ≤ n ∧ n ≤ b ∧ n < 256 ∧ (pad data b).length = data.length + n ∧
      (pad data b).getLast? = some (BitVec.ofNat 8 n) ∧
      (pad data b).drop data.length = List.replicate n (BitVec.ofNat 8 n)

/-- 41_padding.md rule R104: unpad undoes pad, for block sizes 8 and 16. -/
def Obligations.UnpadInvertsPad : Prop :=
  ∀ (data : List Byte) (b : Nat), b = 8 ∨ b = 16 → unpad (pad data b) b = some data

/-- 41_padding.md rule R102: on a buffer of whole blocks, the check of its last block finds the n of unpad, and fails
exactly when unpad fails. -/
def Obligations.LastBlockCheckAgreesWithUnpad : Prop :=
  ∀ (l : List Byte) (nblk b : Nat), b = 8 ∨ b = 16 → l.length = nblk * b →
    unpad l b = (unpadCheckBlock (l.drop (l.length - b)) nblk b).map (fun n => l.take (l.length - n))

/-- 42_ecb.md rule R122: ECB decryption undoes ECB encryption under the same key, for every aligned buffer; with
padding, unpad then gives the plaintext. -/
def Obligations.EcbRoundTrip : Prop :=
  ∀ (c : Cipher) (k d : List Byte),
    (d.length % bs c = 0 → ecb (dec c k) (bs c) (ecb (enc c k) (bs c) d) = d) ∧
      unpad (ecb (dec c k) (bs c) (ecb (enc c k) (bs c) (pad d (bs c)))) (bs c) = some d

/-- 42_ecb.md rules R123, R124, R125: ECB maps blocks independently of their place: permuted input blocks give output
blocks permuted alike, and equal blocks give equal blocks. -/
def Obligations.EcbBlocksAreIndependent : Prop :=
  ∀ (c : Cipher) (k p q : List Byte) (n : Nat) (place : Nat → Nat), p.length = n * bs c → q.length = n * bs c →
    (∀ i, i < n → place i < n ∧ block (bs c) q i = block (bs c) p (place i)) →
    ∀ i, i < n →
      block (bs c) (ecb (enc c k) (bs c) q) i = block (bs c) (ecb (enc c k) (bs c) p) (place i) ∧
        block (bs c) (ecb (enc c k) (bs c) q) i = enc c k (block (bs c) q i)

/-- 43_cbc.md rule R136: CBC decryption with the same key and IV undoes CBC encryption, and both end with the same
chain value; with padding, unpad then gives the plaintext. -/
def Obligations.CbcRoundTrip : Prop :=
  ∀ (c : Cipher) (k iv d : List Byte), iv.length = bs c →
    (d.length % bs c = 0 →
      cbcDecrypt (dec c k) (bs c) iv (cbcEncrypt (enc c k) (bs c) iv d).1 =
        (d, (cbcEncrypt (enc c k) (bs c) iv d).2)) ∧
      unpad (cbcDecrypt (dec c k) (bs c) iv (cbcEncrypt (enc c k) (bs c) iv (pad d (bs c))).1).1 (bs c) = some d

/-! ### Reset -/

/-- 70_reset_and_hazards.md rules R166, R167, 10_state.md rule R49: reset, at any time, sets every register to its reset
value, also the constant ones, and deasserts IRQ; FAULT and the parameters stay; memory stays while idle; while BUSY it
stays outside the DST region, whose bytes become free values (log entries 4, 17). -/
def Obligations.ResetSetsEveryRegister : Prop :=
  ∀ (s : State) (turns : List Agent), s.sched = .reset :: turns →
    ∃ t, step s = .next t ∧ t.seq = .idle ∧ t.irqEn = false ∧ statusWord t = 0 ∧ t.srcAddr = 0 ∧ t.dstAddr = 0 ∧
      t.len = 0 ∧ t.outLen = 0 ∧ t.blkIdx = 0 ∧ t.key = ⟨0, 0, 0, 0⟩ ∧ t.iv = ⟨0, 0, 0, 0⟩ ∧ t.chain = ⟨0, 0, 0, 0⟩ ∧
      t.blkI = 0 ∧ t.irq = false ∧ t.faultSet = s.faultSet ∧ t.params = s.params ∧
      regValue t .id = 0x4D4F4445#32 ∧ regValue t .version = 0x00000007#32 ∧ regValue t .caps = capsWord s.params ∧
      (s.seq = .idle → t.mem = s.mem) ∧ SameOutside s t s.dstAddr.toNat (s.nblk * bs s.opc.cipher) ∧
      (Inv s → s.seq ≠ .idle → Memory.readBytes t.mem s.dstAddr.toNat (s.nblk * bs s.opc.cipher) =
        (List.range (s.nblk * bs s.opc.cipher)).map (fun j => Config.draw (s.draws + j)))
end

