-- ==== Sys2Proof/Laws/Bytes.lean ====
section
/-!
SUPPORT. Laws of the byte sequences: packing of the block registers (20_memory.md rule R52), lengths and inverses of
the cipher primitives (00_scope.md rules R6, R7), exclusive-or, and blocks.
-/
namespace Sys2Proof.Machine

/-! ### Packing -/

theorem wordByte_le32 (b0 b1 b2 b3 : Byte) :
    wordByte (le32 b0 b1 b2 b3) 0 = b0 ∧ wordByte (le32 b0 b1 b2 b3) 1 = b1 ∧
      wordByte (le32 b0 b1 b2 b3) 2 = b2 ∧ wordByte (le32 b0 b1 b2 b3) 3 = b3 := by
  refine ⟨?_, ?_, ?_, ?_⟩ <;> ext i hi <;>
    simp only [wordByte, le32, BitVec.getElem_extractLsb', BitVec.getLsbD_append] <;>
    interval_cases i <;> simp [BitVec.getLsbD_eq_getElem]

theorem wordBytes_le32 (b0 b1 b2 b3 : Byte) : wordBytes (le32 b0 b1 b2 b3) = [b0, b1, b2, b3] := by
  obtain ⟨h0, h1, h2, h3⟩ := wordByte_le32 b0 b1 b2 b3
  simp [wordBytes, h0, h1, h2, h3]

theorem le32_wordBytes (w : Word) : le32 (wordByte w 0) (wordByte w 1) (wordByte w 2) (wordByte w 3) = w := by
  apply BitVec.eq_of_getLsbD_eq
  intro i hi
  simp only [le32, wordByte, BitVec.getLsbD_append, BitVec.getLsbD_extractLsb']
  interval_cases i <;> simp

@[simp] theorem regBytes_length (r : Reg128) : (regBytes r).length = 16 := by simp [regBytes, wordBytes]

theorem regOfBytes_regBytes (r : Reg128) : regOfBytes (regBytes r) = r := by
  obtain ⟨w0, w1, w2, w3⟩ := r
  simp [regOfBytes, regBytes, wordBytes, wordOfBytes, le32_wordBytes]

theorem regBytes_regOfBytes {l : List Byte} (h : l.length = 16) : regBytes (regOfBytes l) = l := by
  match l, h with
  | [a0, a1, a2, a3, a4, a5, a6, a7, a8, a9, a10, a11, a12, a13, a14, a15], _ =>
    simp [regOfBytes, regBytes, wordOfBytes, wordBytes_le32]

theorem regBytes_setPrefix (r : Reg128) {l : List Byte} (h : l.length ≤ 16) :
    regBytes (setPrefix r l) = l ++ (regBytes r).drop l.length :=
  regBytes_regOfBytes (by simp; omega)

theorem regBytes_zeroExtended {l : List Byte} (h : l.length ≤ 16) :
    regBytes (zeroExtended l) = l ++ List.replicate (16 - l.length) 0 :=
  regBytes_regOfBytes (by simp; omega)

theorem bs_pos (c : Cipher) : 0 < bs c := by cases c <;> decide

theorem bs_le (c : Cipher) : bs c ≤ 16 := by cases c <;> decide

theorem ks_eq_bs (c : Cipher) : ks c = bs c := by cases c <;> rfl

@[simp] theorem blockOf_length (c : Cipher) (r : Reg128) : (blockOf c r).length = bs c := by
  cases c <;> simp [blockOf, bs]

@[simp] theorem keyOf_length (c : Cipher) (r : Reg128) : (keyOf c r).length = ks c := by
  cases c <;> simp [keyOf, ks]

/-- CHAIN, IV or LASTBLK after a block has been stored in it. -/
theorem blockOf_setPrefix {c : Cipher} (r : Reg128) {l : List Byte} (h : l.length = bs c) :
    blockOf c (setPrefix r l) = l := by
  have := bs_le c
  rw [blockOf, regBytes_setPrefix r (by omega), ← h, List.take_left']
  rfl

theorem blockOf_zeroExtended {c : Cipher} {l : List Byte} (h : l.length = bs c) : blockOf c (zeroExtended l) = l := by
  have := bs_le c
  rw [blockOf, regBytes_zeroExtended (by omega), ← h, List.take_left']
  rfl

/-! ### The cipher primitives -/

theorem toBlock_toList {n : Nat} (v : Vector Byte n) : toBlock n v.toList = v := by
  ext j hj
  simp [toBlock, List.getD_eq_getElem?_getD]

theorem toList_toBlock {n : Nat} {l : List Byte} (h : l.length = n) : (toBlock n l).toList = l := by
  apply List.ext_getElem
  · simp [h]
  · intro j h1 h2
    simp [toBlock, List.getD_eq_getElem?_getD, h2]

@[simp] theorem enc_length (c : Cipher) (k x : List Byte) : (enc c k x).length = bs c := by cases c <;> simp [enc, bs]

@[simp] theorem dec_length (c : Cipher) (k y : List Byte) : (dec c k y).length = bs c := by cases c <;> simp [dec, bs]

/-- The permutation law of rule R7, one direction. -/
theorem dec_enc {c : Cipher} (k : List Byte) {x : List Byte} (h : x.length = bs c) : dec c k (enc c k x) = x := by
  cases c <;> simp only [bs] at h <;> simp [enc, dec, toBlock_toList, toList_toBlock h]

/-- The permutation law of rule R7, the other direction. -/
theorem enc_dec {c : Cipher} (k : List Byte) {y : List Byte} (h : y.length = bs c) : enc c k (dec c k y) = y := by
  cases c <;> simp only [bs] at h <;> simp [enc, dec, toBlock_toList, toList_toBlock h]

/-! ### Exclusive-or -/

@[simp] theorem xorBytes_length (a b : List Byte) : (xorBytes a b).length = min a.length b.length := by
  simp [xorBytes]

theorem xorBytes_xorBytes {a b : List Byte} (h : a.length = b.length) : xorBytes (xorBytes a b) b = a := by
  apply List.ext_getElem
  · simp [h]
  · intro j h1 h2
    simp [xorBytes]

/-! ### Padding and blocks -/

theorem padlen_bounds {b : Nat} (l : Nat) (h : 0 < b) : 1 ≤ padlen l b ∧ padlen l b ≤ b := by
  have := Nat.mod_lt l h
  unfold padlen
  omega

/-- The padded length is the next multiple of `b` above `l` (41_padding.md rule R101). -/
theorem add_padlen {b : Nat} (l : Nat) (h : 0 < b) : l + padlen l b = (l / b + 1) * b := by
  have h1 := Nat.mod_lt l h
  have h2 := Nat.div_add_mod l b
  unfold padlen
  rw [Nat.add_mul, Nat.mul_comm (l / b) b]
  omega

theorem add_padlen_div {b : Nat} (l : Nat) (h : 0 < b) : (l + padlen l b) / b = l / b + 1 := by
  rw [add_padlen l h, Nat.mul_div_cancel _ h]

@[simp] theorem pad_length (data : List Byte) (b : Nat) : (pad data b).length = data.length + padlen data.length b := by
  simp [pad]

theorem block_length {b : Nat} {l : List Byte} {i : Nat} (h : (i + 1) * b ≤ l.length) : (block b l i).length = b := by
  have : (i + 1) * b = i * b + b := by ring
  simp [block]
  omega

end Sys2Proof.Machine
end

