-- ==== Sys2Proof/Laws/Memory.lean ====
section
/-!
SUPPORT. Laws of data memory: what a write changes and leaves, that every operation keeps the canonical form, and that
equal contents are equal data (20_memory.md rules R50, R51; 00_scope.md rule R12).
-/
namespace Sys2Proof.Machine

/-! ### One byte -/

theorem read_write_ne (m : Memory) {a x : Nat} (b : Byte) (h : x ≠ a) :
    Memory.read (Memory.write m a b) x = Memory.read m x := by
  induction m with
  | nil => unfold Memory.write; split <;> simp [Memory.read, h]
  | cons e m ih =>
    obtain ⟨a', b'⟩ := e
    unfold Memory.write
    split
    · split <;> simp [Memory.read, h]
    · split
      · next h' => subst h'; split <;> simp [Memory.read, h]
      · simp [Memory.read, ih]

theorem wfFrom_mono {lo lo' : Nat} {m : Memory} (h : Memory.wfFrom lo m = true) (hl : lo' ≤ lo) :
    Memory.wfFrom lo' m = true := by
  cases m with
  | nil => rfl
  | cons e m =>
    simp only [Memory.wfFrom, Bool.and_eq_true, decide_eq_true_eq] at h ⊢
    exact ⟨⟨⟨by omega, h.1.1.2⟩, h.1.2⟩, h.2⟩

theorem read_below {lo a : Nat} {m : Memory} (h : Memory.wfFrom lo m = true) (ha : a < lo) :
    Memory.read m a = unlistedByte := by
  induction m generalizing lo with
  | nil => rfl
  | cons e m ih =>
    obtain ⟨a', b'⟩ := e
    simp only [Memory.wfFrom, Bool.and_eq_true, decide_eq_true_eq] at h
    have : a ≠ a' := by omega
    simp only [Memory.read, this, if_false]
    exact ih h.2 (by omega)

theorem read_write_self {lo : Nat} {m : Memory} (a : Nat) (b : Byte) (h : Memory.wfFrom lo m = true) :
    Memory.read (Memory.write m a b) a = b := by
  induction m generalizing lo with
  | nil => unfold Memory.write; split <;> simp_all [Memory.read]
  | cons e m ih =>
    obtain ⟨a', b'⟩ := e
    have h' := h
    simp only [Memory.wfFrom, Bool.and_eq_true, decide_eq_true_eq] at h
    unfold Memory.write
    split
    · next hlt =>
      split
      · next hb =>
        have : a ≠ a' := by omega
        simp only [Memory.read, this, if_false, hb]
        exact read_below h.2 (by omega)
      · simp [Memory.read]
    · split
      · next heq =>
        subst heq
        split
        · next hb => rw [hb]; exact read_below h.2 (by omega)
        · simp [Memory.read]
      · next hne =>
        simp only [Memory.read, hne, if_false]
        exact ih h.2

theorem wfFrom_write {lo : Nat} {m : Memory} {a : Nat} (b : Byte) (h : Memory.wfFrom lo m = true) (hl : lo ≤ a)
    (ha : a < addrSpace) : Memory.wfFrom lo (Memory.write m a b) = true := by
  induction m generalizing lo with
  | nil => unfold Memory.write; split <;> simp_all [Memory.wfFrom]
  | cons e m ih =>
    obtain ⟨a', b'⟩ := e
    have h' := h
    simp only [Memory.wfFrom, Bool.and_eq_true, decide_eq_true_eq] at h
    unfold Memory.write
    split
    · next hlt =>
      split
      · exact h'
      · simp_all [Memory.wfFrom]
    · split
      · next heq =>
        subst heq
        split
        · exact wfFrom_mono h.2 (by omega)
        · simp_all [Memory.wfFrom]
      · have := ih (lo := a' + 1) h.2 (by omega)
        simp_all [Memory.wfFrom]

/-- Writing a byte inside the address space keeps the canonical form. -/
theorem wf_write {m : Memory} {a : Nat} (b : Byte) (h : Memory.wf m = true) (ha : a < addrSpace) :
    Memory.wf (Memory.write m a b) = true := wfFrom_write b h (Nat.zero_le a) ha

/-- A canonical memory is its contents: equal reads, equal data. -/
theorem memory_ext {lo : Nat} {m m' : Memory} (h : Memory.wfFrom lo m = true) (h' : Memory.wfFrom lo m' = true)
    (hr : ∀ a, Memory.read m a = Memory.read m' a) : m = m' := by
  induction m generalizing lo m' with
  | nil =>
    cases m' with
    | nil => rfl
    | cons e m' =>
      obtain ⟨a, b⟩ := e
      have := hr a
      simp_all [Memory.wfFrom, Memory.read]
  | cons e m ih =>
    obtain ⟨a, b⟩ := e
    cases m' with
    | nil => have := hr a; simp_all [Memory.wfFrom, Memory.read]
    | cons e' m' =>
      obtain ⟨a', b'⟩ := e'
      have h0 := h
      have h0' := h'
      simp only [Memory.wfFrom, Bool.and_eq_true, decide_eq_true_eq, bne_iff_ne, ne_eq] at h h'
      have hle : ∀ {x y : Nat} {bx by' : Byte} {mx my : Memory}, x < y → bx ≠ unlistedByte →
          Memory.wfFrom (y + 1) my = true →
          (∀ z, Memory.read ((x, bx) :: mx) z = Memory.read ((y, by') :: my) z) → False := by
        intro x y bx by' mx my hxy hbx hw hz
        have h1 := hz x
        have hne : x ≠ y := by omega
        simp only [Memory.read, if_true, hne, if_false] at h1
        exact hbx (h1.trans (read_below hw (by omega)))
      have haa : a = a' := by
        rcases Nat.lt_trichotomy a a' with hlt | heq | hgt
        · exact (hle hlt h.1.2 h'.2 hr).elim
        · exact heq
        · exact (hle hgt h'.1.2 h.2 (fun z => (hr z).symm)).elim
      subst haa
      have hb : b = b' := by simpa [Memory.read] using hr a
      subst hb
      have hm : m = m' := by
        apply ih h.2 h'.2
        intro z
        by_cases hz : z = a
        · subst hz
          rw [read_below h.2 (by omega), read_below h'.2 (by omega)]
        · simpa [Memory.read, hz] using hr z
      rw [hm]

/-! ### Byte sequences -/

@[simp] theorem readBytes_length (m : Memory) (a n : Nat) : (Memory.readBytes m a n).length = n := by
  simp [Memory.readBytes]

theorem getElem_readBytes (m : Memory) (a : Nat) {n j : Nat} (h : j < (Memory.readBytes m a n).length) :
    (Memory.readBytes m a n)[j] = Memory.read m (a + j) := by simp [Memory.readBytes]

theorem readBytes_congr {m m' : Memory} {a n : Nat} (h : ∀ x, a ≤ x → x < a + n → Memory.read m x = Memory.read m' x) :
    Memory.readBytes m a n = Memory.readBytes m' a n := by
  apply List.ext_getElem
  · simp
  · intro j h1 h2
    simp only [readBytes_length] at h1
    rw [getElem_readBytes, getElem_readBytes]
    exact h _ (by omega) (by omega)

theorem readBytes_append (m : Memory) (a n k : Nat) :
    Memory.readBytes m a (n + k) = Memory.readBytes m a n ++ Memory.readBytes m (a + n) k := by
  apply List.ext_getElem
  · simp
  · intro j h1 h2
    rw [getElem_readBytes, List.getElem_append]
    split
    · rw [getElem_readBytes]
    · next h =>
      rw [getElem_readBytes]
      simp only [readBytes_length] at h ⊢
      congr 1
      omega

theorem take_drop_readBytes (m : Memory) (a n i k : Nat) :
    ((Memory.readBytes m a n).drop i).take k = Memory.readBytes m (a + i) (min k (n - i)) := by
  apply List.ext_getElem
  · simp
  · intro j h1 h2
    simp only [List.getElem_take, List.getElem_drop, getElem_readBytes]
    congr 1
    omega

theorem read_writeBytes_out (m : Memory) {a x : Nat} (l : List Byte) (h : x < a ∨ a + l.length ≤ x) :
    Memory.read (Memory.writeBytes m a l) x = Memory.read m x := by
  induction l generalizing m a with
  | nil => rfl
  | cons b l ih =>
    simp only [List.length_cons] at h
    rw [Memory.writeBytes, ih _ (by omega), read_write_ne _ _ (by omega)]

theorem wf_writeBytes {m : Memory} {a : Nat} (l : List Byte) (h : Memory.wf m = true) (ha : a + l.length ≤ addrSpace) :
    Memory.wf (Memory.writeBytes m a l) = true := by
  induction l generalizing m a with
  | nil => exact h
  | cons b l ih =>
    simp only [List.length_cons] at ha
    exact ih (wf_write b h (by omega)) (by omega)

theorem read_writeBytes_in {m : Memory} {a : Nat} {l : List Byte} (h : Memory.wf m = true)
    (ha : a + l.length ≤ addrSpace) {j : Nat} (hj : j < l.length) :
    Memory.read (Memory.writeBytes m a l) (a + j) = l[j] := by
  induction l generalizing m a j with
  | nil => simp at hj
  | cons b l ih =>
    simp only [List.length_cons] at ha hj
    rw [Memory.writeBytes]
    cases j with
    | zero =>
      rw [read_writeBytes_out _ _ (by omega)]
      exact read_write_self _ _ h
    | succ j =>
      have := ih (wf_write (m := m) (a := a) b h (by omega)) (a := a + 1) (by omega) (j := j) (by omega)
      rw [List.getElem_cons_succ, ← this]
      congr 1
      omega

/-- What was written is what is read. -/
theorem readBytes_writeBytes {m : Memory} {a : Nat} {l : List Byte} (h : Memory.wf m = true)
    (ha : a + l.length ≤ addrSpace) : Memory.readBytes (Memory.writeBytes m a l) a l.length = l := by
  apply List.ext_getElem
  · simp
  · intro j h1 h2
    rw [getElem_readBytes, read_writeBytes_in h ha h2]

/-- Reading beside what was written. -/
theorem readBytes_writeBytes_out (m : Memory) {a x n : Nat} (l : List Byte) (h : x + n ≤ a ∨ a + l.length ≤ x) :
    Memory.readBytes (Memory.writeBytes m a l) x n = Memory.readBytes m x n :=
  readBytes_congr fun y _ _ => read_writeBytes_out m l (by omega)

theorem reset_memory_wf : Memory.wf State.reset.mem = true := by decide

end Sys2Proof.Machine
end

