-- ==== Sys2Proof/Laws/State.lean ====
section
/-!
SUPPORT. The frame of every named update of the state: one lemma per field per update, true by rfl, so that no proof
unfolds a record update.
-/
namespace Sys2Proof.Machine

@[simp] theorem respond_params (r : BusResp) (s : State) : (respond r s).params = s.params := rfl
@[simp] theorem respond_irqEn (r : BusResp) (s : State) : (respond r s).irqEn = s.irqEn := rfl
@[simp] theorem respond_done (r : BusResp) (s : State) : (respond r s).done = s.done := rfl
@[simp] theorem respond_err (r : BusResp) (s : State) : (respond r s).err = s.err := rfl
@[simp] theorem respond_wign (r : BusResp) (s : State) : (respond r s).wign = s.wign := rfl
@[simp] theorem respond_errcode (r : BusResp) (s : State) : (respond r s).errcode = s.errcode := rfl
@[simp] theorem respond_ivWr (r : BusResp) (s : State) : (respond r s).ivWr = s.ivWr := rfl
@[simp] theorem respond_srcAddr (r : BusResp) (s : State) : (respond r s).srcAddr = s.srcAddr := rfl
@[simp] theorem respond_dstAddr (r : BusResp) (s : State) : (respond r s).dstAddr = s.dstAddr := rfl
@[simp] theorem respond_len (r : BusResp) (s : State) : (respond r s).len = s.len := rfl
@[simp] theorem respond_outLen (r : BusResp) (s : State) : (respond r s).outLen = s.outLen := rfl
@[simp] theorem respond_blkIdx (r : BusResp) (s : State) : (respond r s).blkIdx = s.blkIdx := rfl
@[simp] theorem respond_key (r : BusResp) (s : State) : (respond r s).key = s.key := rfl
@[simp] theorem respond_iv (r : BusResp) (s : State) : (respond r s).iv = s.iv := rfl
@[simp] theorem respond_chain (r : BusResp) (s : State) : (respond r s).chain = s.chain := rfl
@[simp] theorem respond_seq (r : BusResp) (s : State) : (respond r s).seq = s.seq := rfl
@[simp] theorem respond_opc (r : BusResp) (s : State) : (respond r s).opc = s.opc := rfl
@[simp] theorem respond_nblk (r : BusResp) (s : State) : (respond r s).nblk = s.nblk := rfl
@[simp] theorem respond_outlen (r : BusResp) (s : State) : (respond r s).outlen = s.outlen := rfl
@[simp] theorem respond_blkI (r : BusResp) (s : State) : (respond r s).blkI = s.blkI := rfl
@[simp] theorem respond_lastBlk (r : BusResp) (s : State) : (respond r s).lastBlk = s.lastBlk := rfl
@[simp] theorem respond_mem (r : BusResp) (s : State) : (respond r s).mem = s.mem := rfl
@[simp] theorem respond_faultSet (r : BusResp) (s : State) : (respond r s).faultSet = s.faultSet := rfl
@[simp] theorem respond_dstOpen (r : BusResp) (s : State) : (respond r s).dstOpen = s.dstOpen := rfl
@[simp] theorem respond_draws (r : BusResp) (s : State) : (respond r s).draws = s.draws := rfl
@[simp] theorem respond_hostProg (r : BusResp) (s : State) : (respond r s).hostProg = s.hostProg := rfl
@[simp] theorem respond_sched (r : BusResp) (s : State) : (respond r s).sched = s.sched := rfl
@[simp] theorem respond_obs (r : BusResp) (s : State) : (respond r s).obs = r :: s.obs := rfl

@[simp] theorem setWign_params (s : State) : (setWign s).params = s.params := rfl
@[simp] theorem setWign_irqEn (s : State) : (setWign s).irqEn = s.irqEn := rfl
@[simp] theorem setWign_done (s : State) : (setWign s).done = s.done := rfl
@[simp] theorem setWign_err (s : State) : (setWign s).err = s.err := rfl
@[simp] theorem setWign_wign (s : State) : (setWign s).wign = true := rfl
@[simp] theorem setWign_errcode (s : State) : (setWign s).errcode = s.errcode := rfl
@[simp] theorem setWign_ivWr (s : State) : (setWign s).ivWr = s.ivWr := rfl
@[simp] theorem setWign_srcAddr (s : State) : (setWign s).srcAddr = s.srcAddr := rfl
@[simp] theorem setWign_dstAddr (s : State) : (setWign s).dstAddr = s.dstAddr := rfl
@[simp] theorem setWign_len (s : State) : (setWign s).len = s.len := rfl
@[simp] theorem setWign_outLen (s : State) : (setWign s).outLen = s.outLen := rfl
@[simp] theorem setWign_blkIdx (s : State) : (setWign s).blkIdx = s.blkIdx := rfl
@[simp] theorem setWign_key (s : State) : (setWign s).key = s.key := rfl
@[simp] theorem setWign_iv (s : State) : (setWign s).iv = s.iv := rfl
@[simp] theorem setWign_chain (s : State) : (setWign s).chain = s.chain := rfl
@[simp] theorem setWign_seq (s : State) : (setWign s).seq = s.seq := rfl
@[simp] theorem setWign_opc (s : State) : (setWign s).opc = s.opc := rfl
@[simp] theorem setWign_nblk (s : State) : (setWign s).nblk = s.nblk := rfl
@[simp] theorem setWign_outlen (s : State) : (setWign s).outlen = s.outlen := rfl
@[simp] theorem setWign_blkI (s : State) : (setWign s).blkI = s.blkI := rfl
@[simp] theorem setWign_lastBlk (s : State) : (setWign s).lastBlk = s.lastBlk := rfl
@[simp] theorem setWign_mem (s : State) : (setWign s).mem = s.mem := rfl
@[simp] theorem setWign_faultSet (s : State) : (setWign s).faultSet = s.faultSet := rfl
@[simp] theorem setWign_dstOpen (s : State) : (setWign s).dstOpen = s.dstOpen := rfl
@[simp] theorem setWign_draws (s : State) : (setWign s).draws = s.draws := rfl
@[simp] theorem setWign_hostProg (s : State) : (setWign s).hostProg = s.hostProg := rfl
@[simp] theorem setWign_sched (s : State) : (setWign s).sched = s.sched := rfl
@[simp] theorem setWign_obs (s : State) : (setWign s).obs = s.obs := rfl

@[simp] theorem withMem_params (m : Memory) (s : State) : (withMem m s).params = s.params := rfl
@[simp] theorem withMem_irqEn (m : Memory) (s : State) : (withMem m s).irqEn = s.irqEn := rfl
@[simp] theorem withMem_done (m : Memory) (s : State) : (withMem m s).done = s.done := rfl
@[simp] theorem withMem_err (m : Memory) (s : State) : (withMem m s).err = s.err := rfl
@[simp] theorem withMem_wign (m : Memory) (s : State) : (withMem m s).wign = s.wign := rfl
@[simp] theorem withMem_errcode (m : Memory) (s : State) : (withMem m s).errcode = s.errcode := rfl
@[simp] theorem withMem_ivWr (m : Memory) (s : State) : (withMem m s).ivWr = s.ivWr := rfl
@[simp] theorem withMem_srcAddr (m : Memory) (s : State) : (withMem m s).srcAddr = s.srcAddr := rfl
@[simp] theorem withMem_dstAddr (m : Memory) (s : State) : (withMem m s).dstAddr = s.dstAddr := rfl
@[simp] theorem withMem_len (m : Memory) (s : State) : (withMem m s).len = s.len := rfl
@[simp] theorem withMem_outLen (m : Memory) (s : State) : (withMem m s).outLen = s.outLen := rfl
@[simp] theorem withMem_blkIdx (m : Memory) (s : State) : (withMem m s).blkIdx = s.blkIdx := rfl
@[simp] theorem withMem_key (m : Memory) (s : State) : (withMem m s).key = s.key := rfl
@[simp] theorem withMem_iv (m : Memory) (s : State) : (withMem m s).iv = s.iv := rfl
@[simp] theorem withMem_chain (m : Memory) (s : State) : (withMem m s).chain = s.chain := rfl
@[simp] theorem withMem_seq (m : Memory) (s : State) : (withMem m s).seq = s.seq := rfl
@[simp] theorem withMem_opc (m : Memory) (s : State) : (withMem m s).opc = s.opc := rfl
@[simp] theorem withMem_nblk (m : Memory) (s : State) : (withMem m s).nblk = s.nblk := rfl
@[simp] theorem withMem_outlen (m : Memory) (s : State) : (withMem m s).outlen = s.outlen := rfl
@[simp] theorem withMem_blkI (m : Memory) (s : State) : (withMem m s).blkI = s.blkI := rfl
@[simp] theorem withMem_lastBlk (m : Memory) (s : State) : (withMem m s).lastBlk = s.lastBlk := rfl
@[simp] theorem withMem_mem (m : Memory) (s : State) : (withMem m s).mem = m := rfl
@[simp] theorem withMem_faultSet (m : Memory) (s : State) : (withMem m s).faultSet = s.faultSet := rfl
@[simp] theorem withMem_dstOpen (m : Memory) (s : State) : (withMem m s).dstOpen = s.dstOpen := rfl
@[simp] theorem withMem_draws (m : Memory) (s : State) : (withMem m s).draws = s.draws := rfl
@[simp] theorem withMem_hostProg (m : Memory) (s : State) : (withMem m s).hostProg = s.hostProg := rfl
@[simp] theorem withMem_sched (m : Memory) (s : State) : (withMem m s).sched = s.sched := rfl
@[simp] theorem withMem_obs (m : Memory) (s : State) : (withMem m s).obs = s.obs := rfl

@[simp] theorem withChain_params (r : Reg128) (s : State) : (withChain r s).params = s.params := rfl
@[simp] theorem withChain_irqEn (r : Reg128) (s : State) : (withChain r s).irqEn = s.irqEn := rfl
@[simp] theorem withChain_done (r : Reg128) (s : State) : (withChain r s).done = s.done := rfl
@[simp] theorem withChain_err (r : Reg128) (s : State) : (withChain r s).err = s.err := rfl
@[simp] theorem withChain_wign (r : Reg128) (s : State) : (withChain r s).wign = s.wign := rfl
@[simp] theorem withChain_errcode (r : Reg128) (s : State) : (withChain r s).errcode = s.errcode := rfl
@[simp] theorem withChain_ivWr (r : Reg128) (s : State) : (withChain r s).ivWr = s.ivWr := rfl
@[simp] theorem withChain_srcAddr (r : Reg128) (s : State) : (withChain r s).srcAddr = s.srcAddr := rfl
@[simp] theorem withChain_dstAddr (r : Reg128) (s : State) : (withChain r s).dstAddr = s.dstAddr := rfl
@[simp] theorem withChain_len (r : Reg128) (s : State) : (withChain r s).len = s.len := rfl
@[simp] theorem withChain_outLen (r : Reg128) (s : State) : (withChain r s).outLen = s.outLen := rfl
@[simp] theorem withChain_blkIdx (r : Reg128) (s : State) : (withChain r s).blkIdx = s.blkIdx := rfl
@[simp] theorem withChain_key (r : Reg128) (s : State) : (withChain r s).key = s.key := rfl
@[simp] theorem withChain_iv (r : Reg128) (s : State) : (withChain r s).iv = s.iv := rfl
@[simp] theorem withChain_chain (r : Reg128) (s : State) : (withChain r s).chain = r := rfl
@[simp] theorem withChain_seq (r : Reg128) (s : State) : (withChain r s).seq = s.seq := rfl
@[simp] theorem withChain_opc (r : Reg128) (s : State) : (withChain r s).opc = s.opc := rfl
@[simp] theorem withChain_nblk (r : Reg128) (s : State) : (withChain r s).nblk = s.nblk := rfl
@[simp] theorem withChain_outlen (r : Reg128) (s : State) : (withChain r s).outlen = s.outlen := rfl
@[simp] theorem withChain_blkI (r : Reg128) (s : State) : (withChain r s).blkI = s.blkI := rfl
@[simp] theorem withChain_lastBlk (r : Reg128) (s : State) : (withChain r s).lastBlk = s.lastBlk := rfl
@[simp] theorem withChain_mem (r : Reg128) (s : State) : (withChain r s).mem = s.mem := rfl
@[simp] theorem withChain_faultSet (r : Reg128) (s : State) : (withChain r s).faultSet = s.faultSet := rfl
@[simp] theorem withChain_dstOpen (r : Reg128) (s : State) : (withChain r s).dstOpen = s.dstOpen := rfl
@[simp] theorem withChain_draws (r : Reg128) (s : State) : (withChain r s).draws = s.draws := rfl
@[simp] theorem withChain_hostProg (r : Reg128) (s : State) : (withChain r s).hostProg = s.hostProg := rfl
@[simp] theorem withChain_sched (r : Reg128) (s : State) : (withChain r s).sched = s.sched := rfl
@[simp] theorem withChain_obs (r : Reg128) (s : State) : (withChain r s).obs = s.obs := rfl

@[simp] theorem drew_params (n : Nat) (s : State) : (drew n s).params = s.params := rfl
@[simp] theorem drew_irqEn (n : Nat) (s : State) : (drew n s).irqEn = s.irqEn := rfl
@[simp] theorem drew_done (n : Nat) (s : State) : (drew n s).done = s.done := rfl
@[simp] theorem drew_err (n : Nat) (s : State) : (drew n s).err = s.err := rfl
@[simp] theorem drew_wign (n : Nat) (s : State) : (drew n s).wign = s.wign := rfl
@[simp] theorem drew_errcode (n : Nat) (s : State) : (drew n s).errcode = s.errcode := rfl
@[simp] theorem drew_ivWr (n : Nat) (s : State) : (drew n s).ivWr = s.ivWr := rfl
@[simp] theorem drew_srcAddr (n : Nat) (s : State) : (drew n s).srcAddr = s.srcAddr := rfl
@[simp] theorem drew_dstAddr (n : Nat) (s : State) : (drew n s).dstAddr = s.dstAddr := rfl
@[simp] theorem drew_len (n : Nat) (s : State) : (drew n s).len = s.len := rfl
@[simp] theorem drew_outLen (n : Nat) (s : State) : (drew n s).outLen = s.outLen := rfl
@[simp] theorem drew_blkIdx (n : Nat) (s : State) : (drew n s).blkIdx = s.blkIdx := rfl
@[simp] theorem drew_key (n : Nat) (s : State) : (drew n s).key = s.key := rfl
@[simp] theorem drew_iv (n : Nat) (s : State) : (drew n s).iv = s.iv := rfl
@[simp] theorem drew_chain (n : Nat) (s : State) : (drew n s).chain = s.chain := rfl
@[simp] theorem drew_seq (n : Nat) (s : State) : (drew n s).seq = s.seq := rfl
@[simp] theorem drew_opc (n : Nat) (s : State) : (drew n s).opc = s.opc := rfl
@[simp] theorem drew_nblk (n : Nat) (s : State) : (drew n s).nblk = s.nblk := rfl
@[simp] theorem drew_outlen (n : Nat) (s : State) : (drew n s).outlen = s.outlen := rfl
@[simp] theorem drew_blkI (n : Nat) (s : State) : (drew n s).blkI = s.blkI := rfl
@[simp] theorem drew_lastBlk (n : Nat) (s : State) : (drew n s).lastBlk = s.lastBlk := rfl
@[simp] theorem drew_mem (n : Nat) (s : State) : (drew n s).mem = s.mem := rfl
@[simp] theorem drew_faultSet (n : Nat) (s : State) : (drew n s).faultSet = s.faultSet := rfl
@[simp] theorem drew_dstOpen (n : Nat) (s : State) : (drew n s).dstOpen = s.dstOpen := rfl
@[simp] theorem drew_draws (n : Nat) (s : State) : (drew n s).draws = s.draws + n := rfl
@[simp] theorem drew_hostProg (n : Nat) (s : State) : (drew n s).hostProg = s.hostProg := rfl
@[simp] theorem drew_sched (n : Nat) (s : State) : (drew n s).sched = s.sched := rfl
@[simp] theorem drew_obs (n : Nat) (s : State) : (drew n s).obs = s.obs := rfl

@[simp] theorem freeDst_params (s : State) : (freeDst s).params = s.params := rfl
@[simp] theorem freeDst_irqEn (s : State) : (freeDst s).irqEn = s.irqEn := rfl
@[simp] theorem freeDst_done (s : State) : (freeDst s).done = s.done := rfl
@[simp] theorem freeDst_err (s : State) : (freeDst s).err = s.err := rfl
@[simp] theorem freeDst_wign (s : State) : (freeDst s).wign = s.wign := rfl
@[simp] theorem freeDst_errcode (s : State) : (freeDst s).errcode = s.errcode := rfl
@[simp] theorem freeDst_ivWr (s : State) : (freeDst s).ivWr = s.ivWr := rfl
@[simp] theorem freeDst_srcAddr (s : State) : (freeDst s).srcAddr = s.srcAddr := rfl
@[simp] theorem freeDst_dstAddr (s : State) : (freeDst s).dstAddr = s.dstAddr := rfl
@[simp] theorem freeDst_len (s : State) : (freeDst s).len = s.len := rfl
@[simp] theorem freeDst_outLen (s : State) : (freeDst s).outLen = s.outLen := rfl
@[simp] theorem freeDst_blkIdx (s : State) : (freeDst s).blkIdx = s.blkIdx := rfl
@[simp] theorem freeDst_key (s : State) : (freeDst s).key = s.key := rfl
@[simp] theorem freeDst_iv (s : State) : (freeDst s).iv = s.iv := rfl
@[simp] theorem freeDst_chain (s : State) : (freeDst s).chain = s.chain := rfl
@[simp] theorem freeDst_seq (s : State) : (freeDst s).seq = s.seq := rfl
@[simp] theorem freeDst_opc (s : State) : (freeDst s).opc = s.opc := rfl
@[simp] theorem freeDst_nblk (s : State) : (freeDst s).nblk = s.nblk := rfl
@[simp] theorem freeDst_outlen (s : State) : (freeDst s).outlen = s.outlen := rfl
@[simp] theorem freeDst_blkI (s : State) : (freeDst s).blkI = s.blkI := rfl
@[simp] theorem freeDst_lastBlk (s : State) : (freeDst s).lastBlk = s.lastBlk := rfl
@[simp] theorem freeDst_mem (s : State) :
    (freeDst s).mem = Memory.writeBytes s.mem s.dstAddr.toNat (drawn s (dstLen s)) := rfl
@[simp] theorem freeDst_faultSet (s : State) : (freeDst s).faultSet = s.faultSet := rfl
@[simp] theorem freeDst_dstOpen (s : State) : (freeDst s).dstOpen = s.dstOpen := rfl
@[simp] theorem freeDst_draws (s : State) : (freeDst s).draws = s.draws + dstLen s := rfl
@[simp] theorem freeDst_hostProg (s : State) : (freeDst s).hostProg = s.hostProg := rfl
@[simp] theorem freeDst_sched (s : State) : (freeDst s).sched = s.sched := rfl
@[simp] theorem freeDst_obs (s : State) : (freeDst s).obs = s.obs := rfl

@[simp] theorem freeProgress_params (s : State) : (freeProgress s).params = s.params := rfl
@[simp] theorem freeProgress_irqEn (s : State) : (freeProgress s).irqEn = s.irqEn := rfl
@[simp] theorem freeProgress_done (s : State) : (freeProgress s).done = s.done := rfl
@[simp] theorem freeProgress_err (s : State) : (freeProgress s).err = s.err := rfl
@[simp] theorem freeProgress_wign (s : State) : (freeProgress s).wign = s.wign := rfl
@[simp] theorem freeProgress_errcode (s : State) : (freeProgress s).errcode = s.errcode := rfl
@[simp] theorem freeProgress_ivWr (s : State) : (freeProgress s).ivWr = s.ivWr := rfl
@[simp] theorem freeProgress_srcAddr (s : State) : (freeProgress s).srcAddr = s.srcAddr := rfl
@[simp] theorem freeProgress_dstAddr (s : State) : (freeProgress s).dstAddr = s.dstAddr := rfl
@[simp] theorem freeProgress_len (s : State) : (freeProgress s).len = s.len := rfl
@[simp] theorem freeProgress_outLen (s : State) : (freeProgress s).outLen = s.outLen := rfl
@[simp] theorem freeProgress_blkIdx (s : State) : (freeProgress s).blkIdx = wordOfBytes (drawn s 20) 4 := rfl
@[simp] theorem freeProgress_key (s : State) : (freeProgress s).key = s.key := rfl
@[simp] theorem freeProgress_iv (s : State) : (freeProgress s).iv = s.iv := rfl
@[simp] theorem freeProgress_chain (s : State) : (freeProgress s).chain = regOfBytes (drawn s 16) := rfl
@[simp] theorem freeProgress_seq (s : State) : (freeProgress s).seq = s.seq := rfl
@[simp] theorem freeProgress_opc (s : State) : (freeProgress s).opc = s.opc := rfl
@[simp] theorem freeProgress_nblk (s : State) : (freeProgress s).nblk = s.nblk := rfl
@[simp] theorem freeProgress_outlen (s : State) : (freeProgress s).outlen = s.outlen := rfl
@[simp] theorem freeProgress_blkI (s : State) : (freeProgress s).blkI = s.blkI := rfl
@[simp] theorem freeProgress_lastBlk (s : State) : (freeProgress s).lastBlk = s.lastBlk := rfl
@[simp] theorem freeProgress_mem (s : State) : (freeProgress s).mem = s.mem := rfl
@[simp] theorem freeProgress_faultSet (s : State) : (freeProgress s).faultSet = s.faultSet := rfl
@[simp] theorem freeProgress_dstOpen (s : State) : (freeProgress s).dstOpen = s.dstOpen := rfl
@[simp] theorem freeProgress_draws (s : State) : (freeProgress s).draws = s.draws + 20 := rfl
@[simp] theorem freeProgress_hostProg (s : State) : (freeProgress s).hostProg = s.hostProg := rfl
@[simp] theorem freeProgress_sched (s : State) : (freeProgress s).sched = s.sched := rfl
@[simp] theorem freeProgress_obs (s : State) : (freeProgress s).obs = s.obs := rfl

@[simp] theorem setOutcome_params (cmd : Option Instr) (code : ErrCode) (s : State) :
    (setOutcome cmd code s).params = s.params := rfl
@[simp] theorem setOutcome_irqEn (cmd : Option Instr) (code : ErrCode) (s : State) :
    (setOutcome cmd code s).irqEn = s.irqEn := rfl
@[simp] theorem setOutcome_done (cmd : Option Instr) (code : ErrCode) (s : State) :
    (setOutcome cmd code s).done = true := rfl
@[simp] theorem setOutcome_err (cmd : Option Instr) (code : ErrCode) (s : State) :
    (setOutcome cmd code s).err = decide (code ≠ .none) := rfl
@[simp] theorem setOutcome_wign (cmd : Option Instr) (code : ErrCode) (s : State) :
    (setOutcome cmd code s).wign = s.wign := rfl
@[simp] theorem setOutcome_errcode (cmd : Option Instr) (code : ErrCode) (s : State) :
    (setOutcome cmd code s).errcode = code := rfl
@[simp] theorem setOutcome_ivWr (cmd : Option Instr) (code : ErrCode) (s : State) :
    (setOutcome cmd code s).ivWr = ivWrAfter cmd s.ivWr := rfl
@[simp] theorem setOutcome_srcAddr (cmd : Option Instr) (code : ErrCode) (s : State) :
    (setOutcome cmd code s).srcAddr = s.srcAddr := rfl
@[simp] theorem setOutcome_dstAddr (cmd : Option Instr) (code : ErrCode) (s : State) :
    (setOutcome cmd code s).dstAddr = s.dstAddr := rfl
@[simp] theorem setOutcome_len (cmd : Option Instr) (code : ErrCode) (s : State) :
    (setOutcome cmd code s).len = s.len := rfl
@[simp] theorem setOutcome_outLen (cmd : Option Instr) (code : ErrCode) (s : State) :
    (setOutcome cmd code s).outLen = if code = .none then BitVec.ofNat 32 s.outlen else 0 := rfl
@[simp] theorem setOutcome_blkIdx (cmd : Option Instr) (code : ErrCode) (s : State) :
    (setOutcome cmd code s).blkIdx = s.blkIdx := rfl
@[simp] theorem setOutcome_key (cmd : Option Instr) (code : ErrCode) (s : State) :
    (setOutcome cmd code s).key = s.key := rfl
@[simp] theorem setOutcome_iv (cmd : Option Instr) (code : ErrCode) (s : State) :
    (setOutcome cmd code s).iv = s.iv := rfl
@[simp] theorem setOutcome_chain (cmd : Option Instr) (code : ErrCode) (s : State) :
    (setOutcome cmd code s).chain = s.chain := rfl
@[simp] theorem setOutcome_seq (cmd : Option Instr) (code : ErrCode) (s : State) :
    (setOutcome cmd code s).seq = .idle := rfl
@[simp] theorem setOutcome_opc (cmd : Option Instr) (code : ErrCode) (s : State) :
    (setOutcome cmd code s).opc = s.opc := rfl
@[simp] theorem setOutcome_nblk (cmd : Option Instr) (code : ErrCode) (s : State) :
    (setOutcome cmd code s).nblk = s.nblk := rfl
@[simp] theorem setOutcome_outlen (cmd : Option Instr) (code : ErrCode) (s : State) :
    (setOutcome cmd code s).outlen = s.outlen := rfl
@[simp] theorem setOutcome_blkI (cmd : Option Instr) (code : ErrCode) (s : State) :
    (setOutcome cmd code s).blkI = s.blkI := rfl
@[simp] theorem setOutcome_lastBlk (cmd : Option Instr) (code : ErrCode) (s : State) :
    (setOutcome cmd code s).lastBlk = s.lastBlk := rfl
@[simp] theorem setOutcome_mem (cmd : Option Instr) (code : ErrCode) (s : State) :
    (setOutcome cmd code s).mem = s.mem := rfl
@[simp] theorem setOutcome_faultSet (cmd : Option Instr) (code : ErrCode) (s : State) :
    (setOutcome cmd code s).faultSet = s.faultSet := rfl
@[simp] theorem setOutcome_dstOpen (cmd : Option Instr) (code : ErrCode) (s : State) :
    (setOutcome cmd code s).dstOpen = false := rfl
@[simp] theorem setOutcome_draws (cmd : Option Instr) (code : ErrCode) (s : State) :
    (setOutcome cmd code s).draws = s.draws := rfl
@[simp] theorem setOutcome_hostProg (cmd : Option Instr) (code : ErrCode) (s : State) :
    (setOutcome cmd code s).hostProg = s.hostProg := rfl
@[simp] theorem setOutcome_sched (cmd : Option Instr) (code : ErrCode) (s : State) :
    (setOutcome cmd code s).sched = s.sched := rfl
@[simp] theorem setOutcome_obs (cmd : Option Instr) (code : ErrCode) (s : State) :
    (setOutcome cmd code s).obs = s.obs := rfl

@[simp] theorem clearOutcome_params (s : State) : (clearOutcome s).params = s.params := rfl
@[simp] theorem clearOutcome_irqEn (s : State) : (clearOutcome s).irqEn = s.irqEn := rfl
@[simp] theorem clearOutcome_done (s : State) : (clearOutcome s).done = false := rfl
@[simp] theorem clearOutcome_err (s : State) : (clearOutcome s).err = false := rfl
@[simp] theorem clearOutcome_wign (s : State) : (clearOutcome s).wign = s.wign := rfl
@[simp] theorem clearOutcome_errcode (s : State) : (clearOutcome s).errcode = .none := rfl
@[simp] theorem clearOutcome_ivWr (s : State) : (clearOutcome s).ivWr = s.ivWr := rfl
@[simp] theorem clearOutcome_srcAddr (s : State) : (clearOutcome s).srcAddr = s.srcAddr := rfl
@[simp] theorem clearOutcome_dstAddr (s : State) : (clearOutcome s).dstAddr = s.dstAddr := rfl
@[simp] theorem clearOutcome_len (s : State) : (clearOutcome s).len = s.len := rfl
@[simp] theorem clearOutcome_outLen (s : State) : (clearOutcome s).outLen = 0 := rfl
@[simp] theorem clearOutcome_blkIdx (s : State) : (clearOutcome s).blkIdx = 0 := rfl
@[simp] theorem clearOutcome_key (s : State) : (clearOutcome s).key = s.key := rfl
@[simp] theorem clearOutcome_iv (s : State) : (clearOutcome s).iv = s.iv := rfl
@[simp] theorem clearOutcome_chain (s : State) : (clearOutcome s).chain = s.chain := rfl
@[simp] theorem clearOutcome_seq (s : State) : (clearOutcome s).seq = s.seq := rfl
@[simp] theorem clearOutcome_opc (s : State) : (clearOutcome s).opc = s.opc := rfl
@[simp] theorem clearOutcome_nblk (s : State) : (clearOutcome s).nblk = s.nblk := rfl
@[simp] theorem clearOutcome_outlen (s : State) : (clearOutcome s).outlen = s.outlen := rfl
@[simp] theorem clearOutcome_blkI (s : State) : (clearOutcome s).blkI = 0 := rfl
@[simp] theorem clearOutcome_lastBlk (s : State) : (clearOutcome s).lastBlk = s.lastBlk := rfl
@[simp] theorem clearOutcome_mem (s : State) : (clearOutcome s).mem = s.mem := rfl
@[simp] theorem clearOutcome_faultSet (s : State) : (clearOutcome s).faultSet = s.faultSet := rfl
@[simp] theorem clearOutcome_dstOpen (s : State) : (clearOutcome s).dstOpen = false := rfl
@[simp] theorem clearOutcome_draws (s : State) : (clearOutcome s).draws = s.draws := rfl
@[simp] theorem clearOutcome_hostProg (s : State) : (clearOutcome s).hostProg = s.hostProg := rfl
@[simp] theorem clearOutcome_sched (s : State) : (clearOutcome s).sched = s.sched := rfl
@[simp] theorem clearOutcome_obs (s : State) : (clearOutcome s).obs = s.obs := rfl

@[simp] theorem latch_params (i : Instr) (d : Derived) (s : State) : (latch i d s).params = s.params := rfl
@[simp] theorem latch_irqEn (i : Instr) (d : Derived) (s : State) : (latch i d s).irqEn = s.irqEn := rfl
@[simp] theorem latch_done (i : Instr) (d : Derived) (s : State) : (latch i d s).done = s.done := rfl
@[simp] theorem latch_err (i : Instr) (d : Derived) (s : State) : (latch i d s).err = s.err := rfl
@[simp] theorem latch_wign (i : Instr) (d : Derived) (s : State) : (latch i d s).wign = s.wign := rfl
@[simp] theorem latch_errcode (i : Instr) (d : Derived) (s : State) : (latch i d s).errcode = s.errcode := rfl
@[simp] theorem latch_ivWr (i : Instr) (d : Derived) (s : State) : (latch i d s).ivWr = s.ivWr := rfl
@[simp] theorem latch_srcAddr (i : Instr) (d : Derived) (s : State) : (latch i d s).srcAddr = s.srcAddr := rfl
@[simp] theorem latch_dstAddr (i : Instr) (d : Derived) (s : State) : (latch i d s).dstAddr = s.dstAddr := rfl
@[simp] theorem latch_len (i : Instr) (d : Derived) (s : State) : (latch i d s).len = s.len := rfl
@[simp] theorem latch_outLen (i : Instr) (d : Derived) (s : State) : (latch i d s).outLen = s.outLen := rfl
@[simp] theorem latch_blkIdx (i : Instr) (d : Derived) (s : State) : (latch i d s).blkIdx = s.blkIdx := rfl
@[simp] theorem latch_key (i : Instr) (d : Derived) (s : State) : (latch i d s).key = s.key := rfl
@[simp] theorem latch_iv (i : Instr) (d : Derived) (s : State) : (latch i d s).iv = s.iv := rfl
@[simp] theorem latch_chain (i : Instr) (d : Derived) (s : State) : (latch i d s).chain = s.chain := rfl
@[simp] theorem latch_seq (i : Instr) (d : Derived) (s : State) : (latch i d s).seq = s.seq := rfl
@[simp] theorem latch_opc (i : Instr) (d : Derived) (s : State) : (latch i d s).opc = i := rfl
@[simp] theorem latch_nblk (i : Instr) (d : Derived) (s : State) : (latch i d s).nblk = d.nblk := rfl
@[simp] theorem latch_outlen (i : Instr) (d : Derived) (s : State) : (latch i d s).outlen = d.outlen := rfl
@[simp] theorem latch_blkI (i : Instr) (d : Derived) (s : State) : (latch i d s).blkI = s.blkI := rfl
@[simp] theorem latch_lastBlk (i : Instr) (d : Derived) (s : State) : (latch i d s).lastBlk = s.lastBlk := rfl
@[simp] theorem latch_mem (i : Instr) (d : Derived) (s : State) : (latch i d s).mem = s.mem := rfl
@[simp] theorem latch_faultSet (i : Instr) (d : Derived) (s : State) : (latch i d s).faultSet = s.faultSet := rfl
@[simp] theorem latch_dstOpen (i : Instr) (d : Derived) (s : State) : (latch i d s).dstOpen = s.dstOpen := rfl
@[simp] theorem latch_draws (i : Instr) (d : Derived) (s : State) : (latch i d s).draws = s.draws := rfl
@[simp] theorem latch_hostProg (i : Instr) (d : Derived) (s : State) : (latch i d s).hostProg = s.hostProg := rfl
@[simp] theorem latch_sched (i : Instr) (d : Derived) (s : State) : (latch i d s).sched = s.sched := rfl
@[simp] theorem latch_obs (i : Instr) (d : Derived) (s : State) : (latch i d s).obs = s.obs := rfl

@[simp] theorem start_params (i : Instr) (d : Derived) (s : State) : (start i d s).params = s.params := rfl
@[simp] theorem start_irqEn (i : Instr) (d : Derived) (s : State) : (start i d s).irqEn = s.irqEn := rfl
@[simp] theorem start_done (i : Instr) (d : Derived) (s : State) : (start i d s).done = s.done := rfl
@[simp] theorem start_err (i : Instr) (d : Derived) (s : State) : (start i d s).err = s.err := rfl
@[simp] theorem start_wign (i : Instr) (d : Derived) (s : State) : (start i d s).wign = s.wign := rfl
@[simp] theorem start_errcode (i : Instr) (d : Derived) (s : State) : (start i d s).errcode = s.errcode := rfl
@[simp] theorem start_ivWr (i : Instr) (d : Derived) (s : State) : (start i d s).ivWr = s.ivWr := rfl
@[simp] theorem start_srcAddr (i : Instr) (d : Derived) (s : State) : (start i d s).srcAddr = s.srcAddr := rfl
@[simp] theorem start_dstAddr (i : Instr) (d : Derived) (s : State) : (start i d s).dstAddr = s.dstAddr := rfl
@[simp] theorem start_len (i : Instr) (d : Derived) (s : State) : (start i d s).len = s.len := rfl
@[simp] theorem start_outLen (i : Instr) (d : Derived) (s : State) : (start i d s).outLen = s.outLen := rfl
@[simp] theorem start_blkIdx (i : Instr) (d : Derived) (s : State) : (start i d s).blkIdx = s.blkIdx := rfl
@[simp] theorem start_key (i : Instr) (d : Derived) (s : State) : (start i d s).key = s.key := rfl
@[simp] theorem start_iv (i : Instr) (d : Derived) (s : State) : (start i d s).iv = s.iv := rfl
@[simp] theorem start_chain (i : Instr) (d : Derived) (s : State) : (start i d s).chain = chainAtStart i s := rfl
@[simp] theorem start_seq (i : Instr) (d : Derived) (s : State) :
    (start i d s).seq = if 0 < d.nblk then .run else .finish := rfl
@[simp] theorem start_opc (i : Instr) (d : Derived) (s : State) : (start i d s).opc = s.opc := rfl
@[simp] theorem start_nblk (i : Instr) (d : Derived) (s : State) : (start i d s).nblk = s.nblk := rfl
@[simp] theorem start_outlen (i : Instr) (d : Derived) (s : State) : (start i d s).outlen = s.outlen := rfl
@[simp] theorem start_blkI (i : Instr) (d : Derived) (s : State) : (start i d s).blkI = s.blkI := rfl
@[simp] theorem start_lastBlk (i : Instr) (d : Derived) (s : State) : (start i d s).lastBlk = s.lastBlk := rfl
@[simp] theorem start_mem (i : Instr) (d : Derived) (s : State) : (start i d s).mem = s.mem := rfl
@[simp] theorem start_faultSet (i : Instr) (d : Derived) (s : State) :
    (start i d s).faultSet = { s.faultSet with partialOverlap := s.faultSet.partialOverlap || partialOverlap i.cipher d s } := rfl
@[simp] theorem start_dstOpen (i : Instr) (d : Derived) (s : State) :
    (start i d s).dstOpen = partialOverlap i.cipher d s := rfl
@[simp] theorem start_draws (i : Instr) (d : Derived) (s : State) : (start i d s).draws = s.draws := rfl
@[simp] theorem start_hostProg (i : Instr) (d : Derived) (s : State) : (start i d s).hostProg = s.hostProg := rfl
@[simp] theorem start_sched (i : Instr) (d : Derived) (s : State) : (start i d s).sched = s.sched := rfl
@[simp] theorem start_obs (i : Instr) (d : Derived) (s : State) : (start i d s).obs = s.obs := rfl

@[simp] theorem noteBlock_params (y : List Byte) (s : State) : (noteBlock y s).params = s.params := rfl
@[simp] theorem noteBlock_irqEn (y : List Byte) (s : State) : (noteBlock y s).irqEn = s.irqEn := rfl
@[simp] theorem noteBlock_done (y : List Byte) (s : State) : (noteBlock y s).done = s.done := rfl
@[simp] theorem noteBlock_err (y : List Byte) (s : State) : (noteBlock y s).err = s.err := rfl
@[simp] theorem noteBlock_wign (y : List Byte) (s : State) : (noteBlock y s).wign = s.wign := rfl
@[simp] theorem noteBlock_errcode (y : List Byte) (s : State) : (noteBlock y s).errcode = s.errcode := rfl
@[simp] theorem noteBlock_ivWr (y : List Byte) (s : State) : (noteBlock y s).ivWr = s.ivWr := rfl
@[simp] theorem noteBlock_srcAddr (y : List Byte) (s : State) : (noteBlock y s).srcAddr = s.srcAddr := rfl
@[simp] theorem noteBlock_dstAddr (y : List Byte) (s : State) : (noteBlock y s).dstAddr = s.dstAddr := rfl
@[simp] theorem noteBlock_len (y : List Byte) (s : State) : (noteBlock y s).len = s.len := rfl
@[simp] theorem noteBlock_outLen (y : List Byte) (s : State) : (noteBlock y s).outLen = s.outLen := rfl
@[simp] theorem noteBlock_blkIdx (y : List Byte) (s : State) :
    (noteBlock y s).blkIdx = BitVec.ofNat 32 (s.blkI + 1) := rfl
@[simp] theorem noteBlock_key (y : List Byte) (s : State) : (noteBlock y s).key = s.key := rfl
@[simp] theorem noteBlock_iv (y : List Byte) (s : State) : (noteBlock y s).iv = s.iv := rfl
@[simp] theorem noteBlock_chain (y : List Byte) (s : State) : (noteBlock y s).chain = s.chain := rfl
@[simp] theorem noteBlock_seq (y : List Byte) (s : State) :
    (noteBlock y s).seq = if s.blkI + 1 = s.nblk then .finish else .run := rfl
@[simp] theorem noteBlock_opc (y : List Byte) (s : State) : (noteBlock y s).opc = s.opc := rfl
@[simp] theorem noteBlock_nblk (y : List Byte) (s : State) : (noteBlock y s).nblk = s.nblk := rfl
@[simp] theorem noteBlock_outlen (y : List Byte) (s : State) : (noteBlock y s).outlen = s.outlen := rfl
@[simp] theorem noteBlock_blkI (y : List Byte) (s : State) : (noteBlock y s).blkI = s.blkI + 1 := rfl
@[simp] theorem noteBlock_lastBlk (y : List Byte) (s : State) : (noteBlock y s).lastBlk = setPrefix s.lastBlk y := rfl
@[simp] theorem noteBlock_mem (y : List Byte) (s : State) : (noteBlock y s).mem = s.mem := rfl
@[simp] theorem noteBlock_faultSet (y : List Byte) (s : State) : (noteBlock y s).faultSet = s.faultSet := rfl
@[simp] theorem noteBlock_dstOpen (y : List Byte) (s : State) : (noteBlock y s).dstOpen = s.dstOpen := rfl
@[simp] theorem noteBlock_draws (y : List Byte) (s : State) : (noteBlock y s).draws = s.draws := rfl
@[simp] theorem noteBlock_hostProg (y : List Byte) (s : State) : (noteBlock y s).hostProg = s.hostProg := rfl
@[simp] theorem noteBlock_sched (y : List Byte) (s : State) : (noteBlock y s).sched = s.sched := rfl
@[simp] theorem noteBlock_obs (y : List Byte) (s : State) : (noteBlock y s).obs = s.obs := rfl

@[simp] theorem clearStatus_params (w : Word) (s : State) : (clearStatus w s).params = s.params := rfl
@[simp] theorem clearStatus_irqEn (w : Word) (s : State) : (clearStatus w s).irqEn = s.irqEn := rfl
@[simp] theorem clearStatus_done (w : Word) (s : State) : (clearStatus w s).done = (s.done && !w.getLsbD 1) := rfl
@[simp] theorem clearStatus_err (w : Word) (s : State) : (clearStatus w s).err = (s.err && !w.getLsbD 2) := rfl
@[simp] theorem clearStatus_wign (w : Word) (s : State) : (clearStatus w s).wign = (s.wign && !w.getLsbD 3) := rfl
@[simp] theorem clearStatus_errcode (w : Word) (s : State) :
    (clearStatus w s).errcode = if w.getLsbD 2 then .none else s.errcode := rfl
@[simp] theorem clearStatus_ivWr (w : Word) (s : State) : (clearStatus w s).ivWr = s.ivWr := rfl
@[simp] theorem clearStatus_srcAddr (w : Word) (s : State) : (clearStatus w s).srcAddr = s.srcAddr := rfl
@[simp] theorem clearStatus_dstAddr (w : Word) (s : State) : (clearStatus w s).dstAddr = s.dstAddr := rfl
@[simp] theorem clearStatus_len (w : Word) (s : State) : (clearStatus w s).len = s.len := rfl
@[simp] theorem clearStatus_outLen (w : Word) (s : State) : (clearStatus w s).outLen = s.outLen := rfl
@[simp] theorem clearStatus_blkIdx (w : Word) (s : State) : (clearStatus w s).blkIdx = s.blkIdx := rfl
@[simp] theorem clearStatus_key (w : Word) (s : State) : (clearStatus w s).key = s.key := rfl
@[simp] theorem clearStatus_iv (w : Word) (s : State) : (clearStatus w s).iv = s.iv := rfl
@[simp] theorem clearStatus_chain (w : Word) (s : State) : (clearStatus w s).chain = s.chain := rfl
@[simp] theorem clearStatus_seq (w : Word) (s : State) : (clearStatus w s).seq = s.seq := rfl
@[simp] theorem clearStatus_opc (w : Word) (s : State) : (clearStatus w s).opc = s.opc := rfl
@[simp] theorem clearStatus_nblk (w : Word) (s : State) : (clearStatus w s).nblk = s.nblk := rfl
@[simp] theorem clearStatus_outlen (w : Word) (s : State) : (clearStatus w s).outlen = s.outlen := rfl
@[simp] theorem clearStatus_blkI (w : Word) (s : State) : (clearStatus w s).blkI = s.blkI := rfl
@[simp] theorem clearStatus_lastBlk (w : Word) (s : State) : (clearStatus w s).lastBlk = s.lastBlk := rfl
@[simp] theorem clearStatus_mem (w : Word) (s : State) : (clearStatus w s).mem = s.mem := rfl
@[simp] theorem clearStatus_faultSet (w : Word) (s : State) : (clearStatus w s).faultSet = s.faultSet := rfl
@[simp] theorem clearStatus_dstOpen (w : Word) (s : State) : (clearStatus w s).dstOpen = s.dstOpen := rfl
@[simp] theorem clearStatus_draws (w : Word) (s : State) : (clearStatus w s).draws = s.draws := rfl
@[simp] theorem clearStatus_hostProg (w : Word) (s : State) : (clearStatus w s).hostProg = s.hostProg := rfl
@[simp] theorem clearStatus_sched (w : Word) (s : State) : (clearStatus w s).sched = s.sched := rfl
@[simp] theorem clearStatus_obs (w : Word) (s : State) : (clearStatus w s).obs = s.obs := rfl

@[simp] theorem hostHazard_params (s : State) : (hostHazard s).params = s.params := rfl
@[simp] theorem hostHazard_irqEn (s : State) : (hostHazard s).irqEn = s.irqEn := rfl
@[simp] theorem hostHazard_done (s : State) : (hostHazard s).done = s.done := rfl
@[simp] theorem hostHazard_err (s : State) : (hostHazard s).err = s.err := rfl
@[simp] theorem hostHazard_wign (s : State) : (hostHazard s).wign = s.wign := rfl
@[simp] theorem hostHazard_errcode (s : State) : (hostHazard s).errcode = s.errcode := rfl
@[simp] theorem hostHazard_ivWr (s : State) : (hostHazard s).ivWr = s.ivWr := rfl
@[simp] theorem hostHazard_srcAddr (s : State) : (hostHazard s).srcAddr = s.srcAddr := rfl
@[simp] theorem hostHazard_dstAddr (s : State) : (hostHazard s).dstAddr = s.dstAddr := rfl
@[simp] theorem hostHazard_len (s : State) : (hostHazard s).len = s.len := rfl
@[simp] theorem hostHazard_outLen (s : State) : (hostHazard s).outLen = s.outLen := rfl
@[simp] theorem hostHazard_blkIdx (s : State) : (hostHazard s).blkIdx = s.blkIdx := rfl
@[simp] theorem hostHazard_key (s : State) : (hostHazard s).key = s.key := rfl
@[simp] theorem hostHazard_iv (s : State) : (hostHazard s).iv = s.iv := rfl
@[simp] theorem hostHazard_chain (s : State) : (hostHazard s).chain = s.chain := rfl
@[simp] theorem hostHazard_seq (s : State) : (hostHazard s).seq = s.seq := rfl
@[simp] theorem hostHazard_opc (s : State) : (hostHazard s).opc = s.opc := rfl
@[simp] theorem hostHazard_nblk (s : State) : (hostHazard s).nblk = s.nblk := rfl
@[simp] theorem hostHazard_outlen (s : State) : (hostHazard s).outlen = s.outlen := rfl
@[simp] theorem hostHazard_blkI (s : State) : (hostHazard s).blkI = s.blkI := rfl
@[simp] theorem hostHazard_lastBlk (s : State) : (hostHazard s).lastBlk = s.lastBlk := rfl
@[simp] theorem hostHazard_mem (s : State) : (hostHazard s).mem = s.mem := rfl
@[simp] theorem hostHazard_faultSet (s : State) :
    (hostHazard s).faultSet = { s.faultSet with hostBufferHazard := true } := rfl
@[simp] theorem hostHazard_dstOpen (s : State) : (hostHazard s).dstOpen = s.dstOpen := rfl
@[simp] theorem hostHazard_draws (s : State) : (hostHazard s).draws = s.draws := rfl
@[simp] theorem hostHazard_hostProg (s : State) : (hostHazard s).hostProg = s.hostProg := rfl
@[simp] theorem hostHazard_sched (s : State) : (hostHazard s).sched = s.sched := rfl
@[simp] theorem hostHazard_obs (s : State) : (hostHazard s).obs = s.obs := rfl

@[simp] theorem afterRead_params (n : Nat) (s : State) : (afterRead n s).params = s.params := by
  unfold afterRead; split <;> rfl
@[simp] theorem afterRead_irqEn (n : Nat) (s : State) : (afterRead n s).irqEn = s.irqEn := by
  unfold afterRead; split <;> rfl
@[simp] theorem afterRead_done (n : Nat) (s : State) : (afterRead n s).done = s.done := by
  unfold afterRead; split <;> rfl
@[simp] theorem afterRead_err (n : Nat) (s : State) : (afterRead n s).err = s.err := by
  unfold afterRead; split <;> rfl
@[simp] theorem afterRead_wign (n : Nat) (s : State) : (afterRead n s).wign = s.wign := by
  unfold afterRead; split <;> rfl
@[simp] theorem afterRead_errcode (n : Nat) (s : State) : (afterRead n s).errcode = s.errcode := by
  unfold afterRead; split <;> rfl
@[simp] theorem afterRead_ivWr (n : Nat) (s : State) : (afterRead n s).ivWr = s.ivWr := by
  unfold afterRead; split <;> rfl
@[simp] theorem afterRead_srcAddr (n : Nat) (s : State) : (afterRead n s).srcAddr = s.srcAddr := by
  unfold afterRead; split <;> rfl
@[simp] theorem afterRead_dstAddr (n : Nat) (s : State) : (afterRead n s).dstAddr = s.dstAddr := by
  unfold afterRead; split <;> rfl
@[simp] theorem afterRead_len (n : Nat) (s : State) : (afterRead n s).len = s.len := by
  unfold afterRead; split <;> rfl
@[simp] theorem afterRead_outLen (n : Nat) (s : State) : (afterRead n s).outLen = s.outLen := by
  unfold afterRead; split <;> rfl
@[simp] theorem afterRead_blkIdx (n : Nat) (s : State) : (afterRead n s).blkIdx = s.blkIdx := by
  unfold afterRead; split <;> rfl
@[simp] theorem afterRead_key (n : Nat) (s : State) : (afterRead n s).key = s.key := by
  unfold afterRead; split <;> rfl
@[simp] theorem afterRead_iv (n : Nat) (s : State) : (afterRead n s).iv = s.iv := by
  unfold afterRead; split <;> rfl
@[simp] theorem afterRead_chain (n : Nat) (s : State) : (afterRead n s).chain = s.chain := by
  unfold afterRead; split <;> rfl
@[simp] theorem afterRead_seq (n : Nat) (s : State) : (afterRead n s).seq = s.seq := by
  unfold afterRead; split <;> rfl
@[simp] theorem afterRead_opc (n : Nat) (s : State) : (afterRead n s).opc = s.opc := by
  unfold afterRead; split <;> rfl
@[simp] theorem afterRead_nblk (n : Nat) (s : State) : (afterRead n s).nblk = s.nblk := by
  unfold afterRead; split <;> rfl
@[simp] theorem afterRead_outlen (n : Nat) (s : State) : (afterRead n s).outlen = s.outlen := by
  unfold afterRead; split <;> rfl
@[simp] theorem afterRead_blkI (n : Nat) (s : State) : (afterRead n s).blkI = s.blkI := by
  unfold afterRead; split <;> rfl
@[simp] theorem afterRead_lastBlk (n : Nat) (s : State) : (afterRead n s).lastBlk = s.lastBlk := by
  unfold afterRead; split <;> rfl
@[simp] theorem afterRead_mem (n : Nat) (s : State) : (afterRead n s).mem = s.mem := by
  unfold afterRead; split <;> rfl
@[simp] theorem afterRead_faultSet (n : Nat) (s : State) : (afterRead n s).faultSet = s.faultSet := by
  unfold afterRead; split <;> rfl
@[simp] theorem afterRead_dstOpen (n : Nat) (s : State) : (afterRead n s).dstOpen = s.dstOpen := by
  unfold afterRead; split <;> rfl
theorem afterRead_closed (n : Nat) {s : State} (h : s.dstOpen = false) : afterRead n s = s := by simp [afterRead, h]
@[simp] theorem afterRead_hostProg (n : Nat) (s : State) : (afterRead n s).hostProg = s.hostProg := by
  unfold afterRead; split <;> rfl
@[simp] theorem afterRead_sched (n : Nat) (s : State) : (afterRead n s).sched = s.sched := by
  unfold afterRead; split <;> rfl
@[simp] theorem afterRead_obs (n : Nat) (s : State) : (afterRead n s).obs = s.obs := by
  unfold afterRead; split <;> rfl

@[simp] theorem freeAtCompletion_params (code : ErrCode) (s : State) :
    (freeAtCompletion code s).params = s.params := by
  unfold freeAtCompletion; split
  · rfl
  · split <;> rfl
@[simp] theorem freeAtCompletion_irqEn (code : ErrCode) (s : State) :
    (freeAtCompletion code s).irqEn = s.irqEn := by
  unfold freeAtCompletion; split
  · rfl
  · split <;> rfl
@[simp] theorem freeAtCompletion_done (code : ErrCode) (s : State) :
    (freeAtCompletion code s).done = s.done := by
  unfold freeAtCompletion; split
  · rfl
  · split <;> rfl
@[simp] theorem freeAtCompletion_err (code : ErrCode) (s : State) :
    (freeAtCompletion code s).err = s.err := by
  unfold freeAtCompletion; split
  · rfl
  · split <;> rfl
@[simp] theorem freeAtCompletion_wign (code : ErrCode) (s : State) :
    (freeAtCompletion code s).wign = s.wign := by
  unfold freeAtCompletion; split
  · rfl
  · split <;> rfl
@[simp] theorem freeAtCompletion_errcode (code : ErrCode) (s : State) :
    (freeAtCompletion code s).errcode = s.errcode := by
  unfold freeAtCompletion; split
  · rfl
  · split <;> rfl
@[simp] theorem freeAtCompletion_ivWr (code : ErrCode) (s : State) :
    (freeAtCompletion code s).ivWr = s.ivWr := by
  unfold freeAtCompletion; split
  · rfl
  · split <;> rfl
@[simp] theorem freeAtCompletion_srcAddr (code : ErrCode) (s : State) :
    (freeAtCompletion code s).srcAddr = s.srcAddr := by
  unfold freeAtCompletion; split
  · rfl
  · split <;> rfl
@[simp] theorem freeAtCompletion_dstAddr (code : ErrCode) (s : State) :
    (freeAtCompletion code s).dstAddr = s.dstAddr := by
  unfold freeAtCompletion; split
  · rfl
  · split <;> rfl
@[simp] theorem freeAtCompletion_len (code : ErrCode) (s : State) :
    (freeAtCompletion code s).len = s.len := by
  unfold freeAtCompletion; split
  · rfl
  · split <;> rfl
@[simp] theorem freeAtCompletion_outLen (code : ErrCode) (s : State) :
    (freeAtCompletion code s).outLen = s.outLen := by
  unfold freeAtCompletion; split
  · rfl
  · split <;> rfl
@[simp] theorem freeAtCompletion_key (code : ErrCode) (s : State) :
    (freeAtCompletion code s).key = s.key := by
  unfold freeAtCompletion; split
  · rfl
  · split <;> rfl
@[simp] theorem freeAtCompletion_iv (code : ErrCode) (s : State) :
    (freeAtCompletion code s).iv = s.iv := by
  unfold freeAtCompletion; split
  · rfl
  · split <;> rfl
@[simp] theorem freeAtCompletion_seq (code : ErrCode) (s : State) :
    (freeAtCompletion code s).seq = s.seq := by
  unfold freeAtCompletion; split
  · rfl
  · split <;> rfl
@[simp] theorem freeAtCompletion_opc (code : ErrCode) (s : State) :
    (freeAtCompletion code s).opc = s.opc := by
  unfold freeAtCompletion; split
  · rfl
  · split <;> rfl
@[simp] theorem freeAtCompletion_nblk (code : ErrCode) (s : State) :
    (freeAtCompletion code s).nblk = s.nblk := by
  unfold freeAtCompletion; split
  · rfl
  · split <;> rfl
@[simp] theorem freeAtCompletion_outlen (code : ErrCode) (s : State) :
    (freeAtCompletion code s).outlen = s.outlen := by
  unfold freeAtCompletion; split
  · rfl
  · split <;> rfl
@[simp] theorem freeAtCompletion_blkI (code : ErrCode) (s : State) :
    (freeAtCompletion code s).blkI = s.blkI := by
  unfold freeAtCompletion; split
  · rfl
  · split <;> rfl
@[simp] theorem freeAtCompletion_lastBlk (code : ErrCode) (s : State) :
    (freeAtCompletion code s).lastBlk = s.lastBlk := by
  unfold freeAtCompletion; split
  · rfl
  · split <;> rfl
@[simp] theorem freeAtCompletion_faultSet (code : ErrCode) (s : State) :
    (freeAtCompletion code s).faultSet = s.faultSet := by
  unfold freeAtCompletion; split
  · rfl
  · split <;> rfl
@[simp] theorem freeAtCompletion_dstOpen (code : ErrCode) (s : State) :
    (freeAtCompletion code s).dstOpen = s.dstOpen := by
  unfold freeAtCompletion; split
  · rfl
  · split <;> rfl
@[simp] theorem freeAtCompletion_hostProg (code : ErrCode) (s : State) :
    (freeAtCompletion code s).hostProg = s.hostProg := by
  unfold freeAtCompletion; split
  · rfl
  · split <;> rfl
@[simp] theorem freeAtCompletion_sched (code : ErrCode) (s : State) :
    (freeAtCompletion code s).sched = s.sched := by
  unfold freeAtCompletion; split
  · rfl
  · split <;> rfl
@[simp] theorem freeAtCompletion_obs (code : ErrCode) (s : State) :
    (freeAtCompletion code s).obs = s.obs := by
  unfold freeAtCompletion; split
  · rfl
  · split <;> rfl

@[simp] theorem complete_params (cmd : Option Instr) (code : ErrCode) (s : State) :
    (complete cmd code s).params = s.params := by simp [complete]
@[simp] theorem complete_irqEn (cmd : Option Instr) (code : ErrCode) (s : State) :
    (complete cmd code s).irqEn = s.irqEn := by simp [complete]
@[simp] theorem complete_done (cmd : Option Instr) (code : ErrCode) (s : State) :
    (complete cmd code s).done = true := by simp [complete]
@[simp] theorem complete_err (cmd : Option Instr) (code : ErrCode) (s : State) :
    (complete cmd code s).err = decide (code ≠ .none) := by simp [complete]
@[simp] theorem complete_wign (cmd : Option Instr) (code : ErrCode) (s : State) :
    (complete cmd code s).wign = s.wign := by simp [complete]
@[simp] theorem complete_errcode (cmd : Option Instr) (code : ErrCode) (s : State) :
    (complete cmd code s).errcode = code := by simp [complete]
@[simp] theorem complete_ivWr (cmd : Option Instr) (code : ErrCode) (s : State) :
    (complete cmd code s).ivWr = ivWrAfter cmd s.ivWr := by simp [complete]
@[simp] theorem complete_srcAddr (cmd : Option Instr) (code : ErrCode) (s : State) :
    (complete cmd code s).srcAddr = s.srcAddr := by simp [complete]
@[simp] theorem complete_dstAddr (cmd : Option Instr) (code : ErrCode) (s : State) :
    (complete cmd code s).dstAddr = s.dstAddr := by simp [complete]
@[simp] theorem complete_len (cmd : Option Instr) (code : ErrCode) (s : State) :
    (complete cmd code s).len = s.len := by simp [complete]
@[simp] theorem complete_outLen (cmd : Option Instr) (code : ErrCode) (s : State) :
    (complete cmd code s).outLen = if code = .none then BitVec.ofNat 32 s.outlen else 0 := by simp [complete]
@[simp] theorem complete_key (cmd : Option Instr) (code : ErrCode) (s : State) :
    (complete cmd code s).key = s.key := by simp [complete]
@[simp] theorem complete_iv (cmd : Option Instr) (code : ErrCode) (s : State) :
    (complete cmd code s).iv = s.iv := by simp [complete]
@[simp] theorem complete_seq (cmd : Option Instr) (code : ErrCode) (s : State) :
    (complete cmd code s).seq = .idle := by simp [complete]
@[simp] theorem complete_opc (cmd : Option Instr) (code : ErrCode) (s : State) :
    (complete cmd code s).opc = s.opc := by simp [complete]
@[simp] theorem complete_nblk (cmd : Option Instr) (code : ErrCode) (s : State) :
    (complete cmd code s).nblk = s.nblk := by simp [complete]
@[simp] theorem complete_outlen (cmd : Option Instr) (code : ErrCode) (s : State) :
    (complete cmd code s).outlen = s.outlen := by simp [complete]
@[simp] theorem complete_blkI (cmd : Option Instr) (code : ErrCode) (s : State) :
    (complete cmd code s).blkI = s.blkI := by simp [complete]
@[simp] theorem complete_lastBlk (cmd : Option Instr) (code : ErrCode) (s : State) :
    (complete cmd code s).lastBlk = s.lastBlk := by simp [complete]
@[simp] theorem complete_faultSet (cmd : Option Instr) (code : ErrCode) (s : State) :
    (complete cmd code s).faultSet = s.faultSet := by simp [complete]
@[simp] theorem complete_dstOpen (cmd : Option Instr) (code : ErrCode) (s : State) :
    (complete cmd code s).dstOpen = false := by simp [complete]
@[simp] theorem complete_hostProg (cmd : Option Instr) (code : ErrCode) (s : State) :
    (complete cmd code s).hostProg = s.hostProg := by simp [complete]
@[simp] theorem complete_sched (cmd : Option Instr) (code : ErrCode) (s : State) :
    (complete cmd code s).sched = s.sched := by simp [complete]
@[simp] theorem complete_obs (cmd : Option Instr) (code : ErrCode) (s : State) :
    (complete cmd code s).obs = s.obs := by simp [complete]
theorem complete_mem (cmd : Option Instr) (code : ErrCode) (s : State) :
    (complete cmd code s).mem = (freeAtCompletion code s).mem := rfl
theorem complete_chain (cmd : Option Instr) (code : ErrCode) (s : State) :
    (complete cmd code s).chain = (freeAtCompletion code s).chain := rfl
theorem complete_blkIdx (cmd : Option Instr) (code : ErrCode) (s : State) :
    (complete cmd code s).blkIdx = (freeAtCompletion code s).blkIdx := rfl
theorem complete_draws (cmd : Option Instr) (code : ErrCode) (s : State) :
    (complete cmd code s).draws = (freeAtCompletion code s).draws := rfl

end Sys2Proof.Machine
end

