-- ==== Sys2Proof/Laws/Ops.lean ====
section
/-!
SUPPORT. What each shared operation can do, said once: completion, acceptance, the engine's accesses and the block
step. Proofs cite these and do not unfold the operations.
-/
namespace Sys2Proof.Machine

@[simp] theorem drawn_length (s : State) (n : Nat) : (drawn s n).length = n := by simp [drawn]

@[simp] theorem dstLen_drew (n : Nat) (s : State) : dstLen (drew n s) = dstLen s := rfl

@[simp] theorem dstLen_withChain (r : Reg128) (s : State) : dstLen (withChain r s) = dstLen s := rfl

@[simp] theorem dstLen_afterRead (n : Nat) (s : State) : dstLen (afterRead n s) = dstLen s := by simp [dstLen]

@[simp] theorem busy_eq_false {s : State} : s.busy = false ↔ s.seq = .idle := by simp [State.busy]

@[simp] theorem busy_eq_true {s : State} : s.busy = true ↔ s.seq ≠ .idle := by simp [State.busy]

/-! ### The derived quantities -/

/-- A command that writes no memory has no blocks (rule R83). -/
theorem derive_nblk_of_not_writesDst {i : Instr} {l : Nat} (h : (derive i l).writesDst = false) :
    (derive i l).nblk = 0 := by
  cases i <;> simp only [derive] at h ⊢ <;> (try split at h) <;>
    simp_all [derivedAligned, derivedPadded, derivedNoBuffer]

/-- A command that does not use SRC has no blocks (rule R83). -/
theorem derive_nblk_of_not_usesSrc {i : Instr} {l : Nat} (h : (derive i l).usesSrc = false) :
    (derive i l).nblk = 0 := by
  cases i <;> simp only [derive] at h ⊢ <;> (try split at h) <;>
    simp_all [derivedAligned, derivedPadded, derivedNoBuffer]

theorem derive_needsIV (i : Instr) (l : Nat) : (derive i l).needsIV = i.isCbc := by
  cases i <;> simp only [derive] <;> (try split) <;> rfl

/-! ### Completion -/

theorem freeDst_read {s : State} {x : Nat} (h : x < s.dstAddr.toNat ∨ s.dstAddr.toNat + dstLen s ≤ x) :
    Memory.read (freeDst s).mem x = Memory.read s.mem x := by
  rw [freeDst_mem]
  exact read_writeBytes_out _ _ (by simpa using h)

theorem freeDst_wf {s : State} (h : Memory.wf s.mem = true) (hd : s.dstAddr.toNat + dstLen s ≤ addrSpace) :
    Memory.wf (freeDst s).mem = true := by
  rw [freeDst_mem]
  exact wf_writeBytes _ h (by simpa using hd)

theorem freeAtCompletion_mem (code : ErrCode) (s : State) :
    (freeAtCompletion code s).mem = if code = .busError ∨ s.dstOpen = true then (freeDst s).mem else s.mem := by
  unfold freeAtCompletion
  split
  · next h => simp [h]
  · next h => split <;> simp_all

/-- A completion changes memory only in the DST region, and only after a BusError or for unspecified data. -/
theorem complete_read {cmd : Option Instr} {code : ErrCode} {s : State} {x : Nat}
    (h : x < s.dstAddr.toNat ∨ s.dstAddr.toNat + dstLen s ≤ x) :
    Memory.read (complete cmd code s).mem x = Memory.read s.mem x := by
  rw [complete_mem, freeAtCompletion_mem]
  split
  · exact freeDst_read h
  · rfl

theorem complete_wf {cmd : Option Instr} {code : ErrCode} {s : State} (h : Memory.wf s.mem = true)
    (hd : s.dstAddr.toNat + dstLen s ≤ addrSpace) : Memory.wf (complete cmd code s).mem = true := by
  rw [complete_mem, freeAtCompletion_mem]
  split
  · exact freeDst_wf h hd
  · exact h

/-- A completion with BusError leaves CHAIN and BLK_IDX at the draws after those of the DST region (rules R92, R149). -/
theorem complete_busError (cmd : Option Instr) (s : State) :
    (complete cmd .busError s).chain = regOfBytes (drawn (freeDst s) 16) ∧
      (complete cmd .busError s).blkIdx = wordOfBytes (drawn (freeDst s) 20) 4 ∧
      (complete cmd .busError s).draws = s.draws + dstLen s + 20 := ⟨rfl, rfl, rfl⟩

/-- The rejection of an illegal word, whole (rules R81, R82, R147). -/
theorem acceptIllegal_eq (s : State) : acceptIllegal s =
    { s with
      outLen := 0, blkIdx := 0, blkI := 0, err := true, errcode := .illegalCommand, dstOpen := false, seq := .idle,
      done := true } := rfl

/-- A completion without BusError, of a command whose data is not open, frees nothing. -/
theorem complete_closed {cmd : Option Instr} {code : ErrCode} {s : State} (hc : code ≠ .busError)
    (hd : s.dstOpen = false) : complete cmd code s = setOutcome cmd code s := by
  simp [complete, freeAtCompletion, hc, hd]

/-- Only a BusError changes CHAIN or BLK_IDX at completion. -/
theorem complete_progress {cmd : Option Instr} {code : ErrCode} {s : State} (hc : code ≠ .busError) :
    (complete cmd code s).chain = s.chain ∧ (complete cmd code s).blkIdx = s.blkIdx := by
  unfold complete freeAtCompletion
  rw [if_neg hc]
  split <;> simp

/-! ### Acceptance -/

/-- What acceptance can do (rules R80 to R87): an illegal command completes with IllegalCommand; a legal one whose
check fails completes with that code after the context was latched; else it starts. -/
theorem accept_cases (i : Instr) (s : State) :
    (i.wellFormed s.params = false ∧ accept i s = acceptIllegal s) ∨
    (i.wellFormed s.params = true ∧
      ((acceptError i (derive i s.len.toNat) (clearOutcome s) ≠ .none ∧
          accept i s = complete (some i) (acceptError i (derive i s.len.toNat) (clearOutcome s))
            (latch i (derive i s.len.toNat) (clearOutcome s))) ∨
        (acceptError i (derive i s.len.toNat) (clearOutcome s) = .none ∧
          accept i s = start i (derive i s.len.toNat) (latch i (derive i s.len.toNat) (clearOutcome s))))) := by
  unfold accept
  cases hw : i.wellFormed s.params
  · simp
  · simp only [Bool.true_eq_false, false_and, if_true, true_and, false_or]
    unfold acceptLegal
    cases he : acceptError i (derive i s.len.toNat) (clearOutcome s) <;> simp

/-- A check of acceptance never reports a BusError. -/
theorem acceptError_ne_busError (i : Instr) (d : Derived) (s : State) : acceptError i d s ≠ .busError := by
  unfold acceptError
  repeat' split
  all_goals simp

theorem acceptError_congr (i : Instr) (d : Derived) {s t : State} (h1 : t.len = s.len) (h2 : t.ivWr = s.ivWr)
    (h3 : t.srcAddr = s.srcAddr) (h4 : t.dstAddr = s.dstAddr) : acceptError i d t = acceptError i d s := by
  simp [acceptError, h1, h2, h3, h4]

/-- `rangeOK` in words (rule R86). -/
theorem rangeOK_iff (c : Cipher) (d : Derived) (src dst len : Nat) :
    rangeOK c d src dst len = true ↔
      (d.usesSrc = true → src + len ≤ addrSpace) ∧ (d.writesDst = true → dst + d.nblk * bs c ≤ addrSpace) ∧
        d.nblk * bs c ≤ addrSpace - 1 := by
  simp only [rangeOK, Bool.and_eq_true, Bool.not_eq_true', Bool.and_eq_false_iff, decide_eq_false_iff_not,
    decide_eq_true_eq, Nat.not_lt, and_assoc]
  cases d.usesSrc <;> cases d.writesDst <;> simp

/-- No check of acceptance fails (rules R84 to R86). -/
theorem acceptError_eq_none (i : Instr) (d : Derived) (s : State) :
    acceptError i d s = .none ↔
      (d.aligned = true → s.len.toNat % bs i.cipher = 0) ∧ (d.needsIV = true → ivPresent i.cipher s.ivWr = true) ∧
        rangeOK i.cipher d s.srcAddr.toNat s.dstAddr.toNat s.len.toNat = true := by
  unfold acceptError
  by_cases h1 : d.aligned = true ∧ s.len.toNat % bs i.cipher ≠ 0
  · rw [if_pos h1]
    simp [h1.1, h1.2]
  · rw [if_neg h1]
    by_cases h2 : d.needsIV = true ∧ ¬ivPresent i.cipher s.ivWr = true
    · rw [if_pos h2]
      simp [h2.1, h2.2]
    · rw [if_neg h2]
      by_cases h3 : rangeOK i.cipher d s.srcAddr.toNat s.dstAddr.toNat s.len.toNat = true
      · simp only [h3, not_true_eq_false, if_false, true_iff, and_true]
        constructor
        · intro h; by_contra h'; exact h1 ⟨h, h'⟩
        · intro h; by_contra h'; exact h2 ⟨h, h'⟩
      · simp [h3]

/-! ### The engine's accesses and the block step -/

theorem accessStop_eq_none {p : Params} {k : Access} {a n : Nat} :
    accessStop p k a n = none ↔ a + n ≤ addrSpace ∧ ∀ j, j < n → memOK p (a + j) k = true := by
  unfold accessStop
  split
  · next h => simp; omega
  · next h =>
    split
    · next h' => simp at h'; simp; exact ⟨by omega, h'⟩
    · next h' => simp at h'; simp; intro _; exact h'

theorem accessStop_ne_outside {p : Params} {k : Access} {a n : Nat} (h : a + n ≤ addrSpace) :
    accessStop p k a n ≠ some .outside := by
  unfold accessStop
  rw [if_neg (by omega)]
  split <;> simp

/-- The output block and next CHAIN of a block step. -/
def blockOut (i : Instr) (f : BlockFn) (s : State) : List Byte × Reg128 :=
  f s.key s.chain (fillTo i s (engineBytes s (inSpan i s).1 (inSpan i s).2))

/-- The state after a block step whose accesses are served. -/
def afterBlock (i : Instr) (f : BlockFn) (s : State) : State :=
  noteBlock (blockOut i f s).1
    (withMem (Memory.writeBytes s.mem (s.dstAddr.toNat + s.blkI * bs i.cipher) (blockOut i f s).1)
      (withChain (blockOut i f s).2 (afterRead (inSpan i s).2 s)))

/-- What a block step can do (rule R88): an access above the address space stops the model; a refused read or write
ends the command with BusError; else the block is written. -/
theorem blockStep_cases (i : Instr) (f : BlockFn) (s : State) :
    (blockStep i f s = .fault .outsideAddressSpace ∧
      (addrSpace < (inSpan i s).1 + (inSpan i s).2 ∨
        addrSpace < s.dstAddr.toNat + s.blkI * bs i.cipher + (blockOut i f s).1.length)) ∨
    (blockStep i f s = .next (complete (some i) .busError s)) ∨
    (blockStep i f s =
      .next (complete (some i) .busError (withChain (blockOut i f s).2 (afterRead (inSpan i s).2 s)))) ∨
    (blockStep i f s = .next (afterBlock i f s) ∧ accessStop s.params .read (inSpan i s).1 (inSpan i s).2 = none ∧
      accessStop s.params .write (s.dstAddr.toNat + s.blkI * bs i.cipher) (blockOut i f s).1.length = none) := by
  unfold blockStep
  simp only
  cases hr : accessStop s.params .read (inSpan i s).1 (inSpan i s).2 with
  | some e =>
    cases e with
    | bus => right; left; rfl
    | outside =>
      left
      refine ⟨rfl, Or.inl ?_⟩
      by_contra hc
      exact accessStop_ne_outside (by omega) hr
  | none =>
    simp only [writeBlock, withChain_params, afterRead_params, withChain_dstAddr, afterRead_dstAddr, withChain_blkI,
      afterRead_blkI, withChain_mem, afterRead_mem]
    have hy : (f s.key s.chain (fillTo i s (engineBytes s (inSpan i s).1 (inSpan i s).2))).1.length =
        (blockOut i f s).1.length := rfl
    rw [hy]
    cases hw : accessStop s.params .write (s.dstAddr.toNat + s.blkI * bs i.cipher) (blockOut i f s).1.length with
    | some e =>
      cases e with
      | bus => right; right; left; rfl
      | outside =>
        left
        refine ⟨rfl, Or.inr ?_⟩
        by_contra hc
        exact accessStop_ne_outside (by omega) hw
    | none => right; right; right; exact ⟨rfl, trivial, rfl⟩

/-- A block step whose accesses are served writes its block. -/
theorem blockStep_served {i : Instr} {f : BlockFn} {s : State}
    (hr : accessStop s.params .read (inSpan i s).1 (inSpan i s).2 = none)
    (hw : accessStop s.params .write (s.dstAddr.toNat + s.blkI * bs i.cipher) (blockOut i f s).1.length = none) :
    blockStep i f s = .next (afterBlock i f s) := by
  have hw' : accessStop s.params .write (s.dstAddr.toNat + s.blkI * bs i.cipher)
      (f s.key s.chain (fillTo i s (engineBytes s (inSpan i s).1 (inSpan i s).2))).1.length = none := hw
  simp only [blockStep, hr, writeBlock, withChain_params, afterRead_params, withChain_dstAddr, afterRead_dstAddr,
    withChain_blkI, afterRead_blkI, hw', withChain_mem, afterRead_mem]
  rfl

end Sys2Proof.Machine
end

