-- ==== Sys2Proof/Laws/Exec.lean ====
section
/-!
SUPPORT. What `exec` can do, said once for all commands: acceptance while idle, a block step in RUN, one completion in
FINISH (40_command_lifecycle.md rules R80, R88, R90).
-/
namespace Sys2Proof.Machine

/-- The block function of a command; none for the commands without block steps. -/
def blockFn : Instr → Option BlockFn
  | .nop => none
  | .pad _ => some padBlock
  | .unpad _ => none
  | .ecbEnc c _ => some (ecbBlock c (enc c))
  | .ecbDec c _ => some (ecbBlock c (dec c))
  | .cbcEnc c _ => some (cbcEncBlock c (enc c))
  | .cbcDec c _ => some (cbcDecBlock c (dec c))
  | .genIv _ => none

/-- A block function keeps the block length. -/
theorem blockFn_length {i : Instr} {f : BlockFn} (h : blockFn i = some f) (key chain : Reg128) {x : List Byte}
    (hx : x.length = bs i.cipher) : (f key chain x).1.length = bs i.cipher := by
  cases i <;> simp only [blockFn, Option.some.injEq, reduceCtorEq] at h <;> subst h <;>
    simp_all [padBlock, ecbBlock, cbcEncBlock, cbcDecBlock, Instr.cipher]

/-- A command with a block function uses SRC and writes DST (rule R83). -/
theorem derive_of_blockFn {i : Instr} {f : BlockFn} (h : blockFn i = some f) (l : Nat) :
    (derive i l).usesSrc = true ∧ (derive i l).writesDst = true := by
  cases i <;> simp only [blockFn, reduceCtorEq] at h <;> simp only [derive] <;> (try split) <;>
    simp [derivedAligned, derivedPadded]

/-- A command without a block function has no blocks (rule R83). -/
theorem derive_of_no_blockFn {i : Instr} (h : blockFn i = none) (l : Nat) :
    (derive i l).nblk = 0 ∧ (derive i l).writesDst = false := by
  cases i <;> simp only [blockFn, reduceCtorEq] at h <;> simp [derive, derivedNoBuffer]

theorem exec_idle (i : Instr) {s : State} (h : s.seq = .idle) : exec i s = .next (accept i s) := by
  cases i <;>
    simp [exec, execNop, execPad, execUnpad, execEcbEnc, execEcbDec, execCbcEnc, execCbcDec, execGenIv, blockCommand,
      plainCommand, h]

theorem exec_run {i : Instr} {f : BlockFn} (hf : blockFn i = some f) {s : State} (h : s.seq = .run) :
    exec i s = blockStep i f s := by
  cases i <;> simp only [blockFn, Option.some.injEq, reduceCtorEq] at hf <;> subst hf <;>
    simp [exec, execPad, execEcbEnc, execEcbDec, execCbcEnc, execCbcDec, blockCommand, h]

/-- What the last step of a command hands to its completion: only `outlen`, the draws and (GEN_IV) the IV differ. -/
structure FinishFrom (i : Instr) (s s' : State) : Prop where
  same : s' = { s with outlen := s'.outlen, draws := s'.draws, iv := s'.iv, ivWr := s'.ivWr }
  ivKept : i.isGenIv = false → s'.iv = s.iv ∧ s'.ivWr = s.ivWr
  drawsRise : s.draws ≤ s'.draws

theorem FinishFrom.refl (i : Instr) (s : State) : FinishFrom i s s := ⟨rfl, fun _ => ⟨rfl, rfl⟩, le_refl _⟩

theorem finishPlain_cases {i : Instr} {s t : State} (h : finishPlain i s = .next t) :
    ∃ code s', t = complete (some i) code s' ∧ FinishFrom i s s' := by
  simp only [finishPlain, Host.Outcome.next.injEq] at h
  exact ⟨_, _, h.symm, FinishFrom.refl i s⟩

theorem finishUnpadded_cases {i : Instr} {n : Option Nat} {s s0 t : State} (hs : FinishFrom i s0 s)
    (h : finishUnpadded i n s = .next t) : ∃ code s', t = complete (some i) code s' ∧ FinishFrom i s0 s' := by
  unfold finishUnpadded at h
  split at h <;> simp only [Host.Outcome.next.injEq] at h
  · exact ⟨_, _, h.symm, hs⟩
  · refine ⟨_, _, h.symm, ?_, hs.ivKept, hs.drawsRise⟩
    rw [hs.same]

theorem finishDecrypt_cases {i : Instr} {s t : State} (h : finishDecrypt i s = .next t) :
    ∃ code s', t = complete (some i) code s' ∧ FinishFrom i s s' := by
  unfold finishDecrypt at h
  split at h
  · exact finishUnpadded_cases (FinishFrom.refl i s) h
  · exact finishPlain_cases h

theorem unpadFinish_cases {c : Cipher} {s t : State} (h : unpadFinish c s = .next t) :
    ∃ code s', t = complete (some (.unpad c)) code s' ∧ FinishFrom (.unpad c) s s' := by
  unfold unpadFinish at h
  simp only at h
  split at h
  · simp only [Host.Outcome.next.injEq] at h
    exact ⟨_, _, h.symm, FinishFrom.refl _ s⟩
  · split at h
    · next e _ =>
      cases e <;> simp only [onStop, Host.Outcome.next.injEq, reduceCtorEq] at h
      exact ⟨_, _, h.symm, FinishFrom.refl _ s⟩
    · refine finishUnpadded_cases (s0 := s) ?_ h
      unfold afterRead
      split
      · exact ⟨rfl, fun _ => ⟨rfl, rfl⟩, Nat.le_add_right _ _⟩
      · exact FinishFrom.refl _ s

/-- What a finish step can do (rule R90): it completes the command. -/
theorem exec_finish {i : Instr} {s t : State} (hs : s.seq = .finish ∨ (s.seq = .run ∧ blockFn i = none))
    (h : exec i s = .next t) : ∃ code s', t = complete (some i) code s' ∧ FinishFrom i s s' := by
  have hgen : ∀ c, FinishFrom (.genIv c) s (drew (bs c) { s with iv := zeroExtended (drawn s (bs c)), ivWr := ivMask c }) :=
    fun c => ⟨rfl, fun hg => by simp [Instr.isGenIv] at hg, Nat.le_add_right _ _⟩
  cases i <;> rcases hs with hs | ⟨hs, hb⟩ <;> (try simp only [blockFn, reduceCtorEq] at hb) <;>
    simp only [exec, execNop, execPad, execUnpad, execEcbEnc, execEcbDec, execCbcEnc, execCbcDec, execGenIv,
      blockCommand, plainCommand, hs] at h
  all_goals first
    | exact finishPlain_cases h
    | exact finishDecrypt_cases h
    | exact unpadFinish_cases h
    | (simp only [genIvFinish, Host.Outcome.next.injEq] at h; exact ⟨_, _, h.symm, hgen _⟩)

/-- What one transition of a command can do, when it answers a next state. -/
theorem exec_cases {i : Instr} {s t : State} (h : exec i s = .next t) :
    (s.seq = .idle ∧ t = accept i s) ∨
    (∃ f, blockFn i = some f ∧ s.seq = .run ∧ blockStep i f s = .next t) ∨
    (s.seq ≠ .idle ∧ ∃ code s', t = complete (some i) code s' ∧ FinishFrom i s s') := by
  cases hs : s.seq with
  | idle =>
    rw [exec_idle i hs] at h
    simp only [Host.Outcome.next.injEq] at h
    exact Or.inl ⟨rfl, h.symm⟩
  | run =>
    cases hb : blockFn i with
    | none => exact Or.inr (Or.inr ⟨by simp, exec_finish (Or.inr ⟨hs, hb⟩) h⟩)
    | some f => exact Or.inr (Or.inl ⟨f, rfl, rfl, by rw [← exec_run hb hs]; exact h⟩)
  | finish => exact Or.inr (Or.inr ⟨by simp, exec_finish (Or.inl hs) h⟩)

/-- The finish step of each command, as rule R90 lists them. -/
def finishStep : Instr → State → Result
  | .nop => finishPlain .nop
  | .pad c => finishPlain (.pad c)
  | .unpad c => unpadFinish c
  | .ecbEnc c p => finishPlain (.ecbEnc c p)
  | .ecbDec c p => finishDecrypt (.ecbDec c p)
  | .cbcEnc c p => finishPlain (.cbcEnc c p)
  | .cbcDec c p => finishDecrypt (.cbcDec c p)
  | .genIv c => genIvFinish c

/-- What `exec` does in FINISH, and in RUN for a command without block steps. -/
theorem exec_finishStep {i : Instr} {s : State} (hs : s.seq = .finish ∨ (s.seq = .run ∧ blockFn i = none)) :
    exec i s = finishStep i s := by
  rcases hs with hs | ⟨hs, hb⟩ <;> cases i <;> (try cases hb) <;>
    simp only [exec, execNop, execPad, execUnpad, execEcbEnc, execEcbDec, execCbcEnc, execCbcDec, execGenIv,
      blockCommand, plainCommand, hs, finishStep]

/-! ### Lengths and frames -/

@[simp] theorem engineBytes_length (s : State) (a n : Nat) : (engineBytes s a n).length = n := by
  unfold engineBytes
  split <;> simp

/-- An output block is a whole block, in every state. -/
theorem blockOut_length {i : Instr} {f : BlockFn} (hf : blockFn i = some f) (s : State) :
    (blockOut i f s).1.length = bs i.cipher := by
  unfold blockOut
  apply blockFn_length hf
  cases hp : padsInput i
  · simp [fillTo, hp, inSpan]
  · simp only [fillTo, hp, if_true, inSpan, List.length_append, List.length_replicate, engineBytes_length]
    omega

/-- A command with no blocks has no DST region to free. -/
theorem freeDst_mem_of_empty {s : State} (h : dstLen s = 0) : (freeDst s).mem = s.mem := by
  simp [freeDst, h, drawn, Memory.writeBytes]

/-- What a finish step hands to its completion keeps all but `outlen`, the draws, IV and IV_WR. -/
theorem FinishFrom.kept {i : Instr} {s s' : State} (h : FinishFrom i s s') :
    s'.params = s.params ∧ s'.mem = s.mem ∧ s'.chain = s.chain ∧ s'.blkIdx = s.blkIdx ∧ s'.faultSet = s.faultSet ∧
      s'.dstOpen = s.dstOpen ∧ s'.nblk = s.nblk ∧ s'.opc = s.opc ∧ s'.dstAddr = s.dstAddr ∧ s'.seq = s.seq := by
  rw [h.same]
  exact ⟨rfl, rfl, rfl, rfl, rfl, rfl, rfl, rfl, rfl, rfl⟩

end Sys2Proof.Machine
end

