-- ==== Sys2Proof/Laws/Blocks.lean ====
section
/-!
SUPPORT. The input block of a block step is a block of the input stream (20_memory.md rule R53), and the blocks of a
command one after the other are the modes of Machine/Modes.lean.
-/
namespace Sys2Proof.Machine

theorem derive_padded {i : Instr} (h : padsInput i = true) (l : Nat) :
    derive i l = derivedPadded i.cipher i.isCbc l := by
  cases i <;> simp_all [padsInput, derive, Instr.cipher, Instr.isCbc]

theorem derive_aligned {i : Instr} {f : BlockFn} (hf : blockFn i = some f) (h : padsInput i = false) (l : Nat) :
    derive i l = derivedAligned i.cipher i.isCbc l := by
  cases i <;> simp_all [padsInput, derive, Instr.cipher, Instr.isCbc, blockFn]

/-- The input stream of a command as memory `m` holds it. -/
def streamIn (i : Instr) (s : State) (m : Memory) : List Byte :=
  if padsInput i then pad (Memory.readBytes m s.srcAddr.toNat s.len.toNat) (bs i.cipher)
  else Memory.readBytes m s.srcAddr.toNat s.len.toNat

theorem inStream_eq (i : Instr) (s : State) : inStream i s = streamIn i s s.mem := rfl

/-- The input stream is as long as the blocks it feeds (rule R83). -/
theorem streamIn_length {i : Instr} {f : BlockFn} (hf : blockFn i = some f) (s : State) (m : Memory)
    (ha : (derive i s.len.toNat).aligned = true → s.len.toNat % bs i.cipher = 0) :
    (streamIn i s m).length = (derive i s.len.toNat).nblk * bs i.cipher := by
  have hb := bs_pos i.cipher
  unfold streamIn
  cases hp : padsInput i
  · rw [derive_aligned hf hp] at ha ⊢
    have hm := ha rfl
    have := Nat.div_add_mod s.len.toNat (bs i.cipher)
    simp only [derivedAligned, Bool.false_eq_true, if_false, readBytes_length]
    rw [Nat.mul_comm]
    omega
  · rw [derive_padded hp]
    simp only [derivedPadded, if_true, pad_length, readBytes_length]
    rw [add_padlen_div _ hb, add_padlen _ hb]

theorem inSpan_padded {i : Instr} {s : State} (h : padsInput i = true) :
    inSpan i s = (s.srcAddr.toNat + s.blkI * bs i.cipher,
      min (s.blkI * bs i.cipher + bs i.cipher) s.len.toNat - s.blkI * bs i.cipher) := by simp [inSpan, h]

theorem inSpan_aligned {i : Instr} {s : State} (h : padsInput i = false) :
    inSpan i s = (s.srcAddr.toNat + s.blkI * bs i.cipher, bs i.cipher) := by simp [inSpan, h]

/-- Every input block lies in the SRC region (rule R55). -/
theorem inSpan_bounds {i : Instr} {f : BlockFn} (hf : blockFn i = some f) {s : State}
    (ha : (derive i s.len.toNat).aligned = true → s.len.toNat % bs i.cipher = 0)
    (hn : s.blkI < (derive i s.len.toNat).nblk) :
    s.srcAddr.toNat + s.blkI * bs i.cipher = (inSpan i s).1 ∧
      (inSpan i s).1 + (inSpan i s).2 ≤ s.srcAddr.toNat + s.len.toNat := by
  have hb := bs_pos i.cipher
  cases hp : padsInput i
  · rw [inSpan_aligned hp]
    rw [derive_aligned hf hp] at hn ha
    have hm := ha rfl
    simp only [derivedAligned] at hn
    have h1 : (s.blkI + 1) * bs i.cipher ≤ s.len.toNat := by
      calc (s.blkI + 1) * bs i.cipher ≤ s.len.toNat / bs i.cipher * bs i.cipher := Nat.mul_le_mul_right _ hn
        _ ≤ s.len.toNat := Nat.div_mul_le_self _ _
    rw [Nat.add_mul] at h1
    refine ⟨rfl, ?_⟩
    simp only
    omega
  · rw [inSpan_padded hp]
    rw [derive_padded hp] at hn
    simp only [derivedPadded, add_padlen_div _ hb] at hn
    have h1 : s.blkI * bs i.cipher ≤ s.len.toNat := by
      calc s.blkI * bs i.cipher ≤ s.len.toNat / bs i.cipher * bs i.cipher := Nat.mul_le_mul_right _ (by omega)
        _ ≤ s.len.toNat := Nat.div_mul_le_self _ _
    refine ⟨rfl, ?_⟩
    simp only
    omega

/-- The input block of block step `I` is block `I` of the input stream (rule R53). -/
theorem fillTo_readBytes {i : Instr} {f : BlockFn} (hf : blockFn i = some f) {s : State} (m : Memory)
    (hn : s.blkI < (derive i s.len.toNat).nblk) :
    fillTo i s (Memory.readBytes m (inSpan i s).1 (inSpan i s).2) = block (bs i.cipher) (streamIn i s m) s.blkI := by
  have hb := bs_pos i.cipher
  cases hp : padsInput i
  · rw [inSpan_aligned hp]
    rw [derive_aligned hf hp] at hn
    simp only [derivedAligned] at hn
    have h1 : (s.blkI + 1) * bs i.cipher ≤ s.len.toNat := by
      calc (s.blkI + 1) * bs i.cipher ≤ s.len.toNat / bs i.cipher * bs i.cipher := Nat.mul_le_mul_right _ hn
        _ ≤ s.len.toNat := Nat.div_mul_le_self _ _
    rw [Nat.add_mul] at h1
    simp only [fillTo, streamIn, hp, Bool.false_eq_true, if_false, block]
    rw [take_drop_readBytes, Nat.min_eq_left (by omega)]
  · rw [inSpan_padded hp]
    rw [derive_padded hp] at hn
    simp only [derivedPadded, add_padlen_div _ hb] at hn
    have h2 := Nat.div_add_mod s.len.toNat (bs i.cipher)
    have h1 : s.blkI * bs i.cipher ≤ s.len.toNat := by
      calc s.blkI * bs i.cipher ≤ s.len.toNat / bs i.cipher * bs i.cipher := Nat.mul_le_mul_right _ (by omega)
        _ ≤ s.len.toNat := Nat.div_mul_le_self _ _
    simp only [fillTo, streamIn, hp, if_true, block, pad, readBytes_length]
    rw [List.drop_append_of_le_length (by simpa using h1), List.take_append, take_drop_readBytes]
    have h3 : min (s.blkI * bs i.cipher + bs i.cipher) s.len.toNat - s.blkI * bs i.cipher =
        min (bs i.cipher) (s.len.toNat - s.blkI * bs i.cipher) := by omega
    rw [h3, List.take_replicate]
    congr 2
    simp only [List.length_drop, readBytes_length]
    rcases Nat.lt_or_ge s.blkI (s.len.toNat / bs i.cipher) with hlt | hge
    · have h4 : (s.blkI + 1) * bs i.cipher ≤ s.len.toNat := by
        calc (s.blkI + 1) * bs i.cipher ≤ s.len.toNat / bs i.cipher * bs i.cipher := Nat.mul_le_mul_right _ hlt
          _ ≤ s.len.toNat := Nat.div_mul_le_self _ _
      rw [Nat.add_mul] at h4
      omega
    · have h5 : s.blkI = s.len.toNat / bs i.cipher := by omega
      have h6 : s.blkI * bs i.cipher = bs i.cipher * (s.len.toNat / bs i.cipher) := by rw [h5, Nat.mul_comm]
      have h7 := Nat.mod_lt s.len.toNat hb
      unfold padlen
      omega

/-! ### The loop of a command -/

/-- What a command has produced so far: CHAIN, the output bytes, LASTBLK. -/
structure Loop where
  chain : Reg128
  out : List Byte
  last : Reg128

/-- One block of the loop (40_command_lifecycle.md rule R88). -/
def loopTurn (f : BlockFn) (key : Reg128) (acc : Loop) (x : List Byte) : Loop :=
  { chain := (f key acc.chain x).2, out := acc.out ++ (f key acc.chain x).1
    last := setPrefix acc.last (f key acc.chain x).1 }

/-- The loop over the first `j` blocks of a stream. -/
def loop (f : BlockFn) (key : Reg128) (acc : Loop) (b : Nat) (l : List Byte) (j : Nat) : Loop :=
  ((List.range j).map (block b l)).foldl (loopTurn f key) acc

theorem loop_zero (f : BlockFn) (key : Reg128) (acc : Loop) (b : Nat) (l : List Byte) : loop f key acc b l 0 = acc := rfl

theorem loop_succ (f : BlockFn) (key : Reg128) (acc : Loop) (b : Nat) (l : List Byte) (j : Nat) :
    loop f key acc b l (j + 1) = loopTurn f key (loop f key acc b l j) (block b l j) := by
  simp [loop, List.range_succ]

theorem loop_out_length {i : Instr} {f : BlockFn} (hf : blockFn i = some f) (key : Reg128) (acc : Loop) {l : List Byte}
    {j : Nat} (hl : j * bs i.cipher ≤ l.length) :
    (loop f key acc (bs i.cipher) l j).out.length = acc.out.length + j * bs i.cipher := by
  induction j with
  | zero => simp [loop]
  | succ j ih =>
    have h1 : j * bs i.cipher ≤ l.length := le_trans (Nat.mul_le_mul_right _ (Nat.le_succ j)) hl
    rw [loop_succ, loopTurn]
    simp only [List.length_append, ih h1, blockFn_length hf key _ (block_length hl)]
    rw [Nat.add_mul]
    omega

/-- LASTBLK after a command with a block is its last output block (10_state.md rule R45). -/
theorem loop_last {i : Instr} {f : BlockFn} (hf : blockFn i = some f) (key : Reg128) (acc : Loop) {l : List Byte}
    {j : Nat} (h0 : acc.out = []) (hl : (j + 1) * bs i.cipher ≤ l.length) :
    blockOf i.cipher (loop f key acc (bs i.cipher) l (j + 1)).last =
      block (bs i.cipher) (loop f key acc (bs i.cipher) l (j + 1)).out j := by
  have h1 : j * bs i.cipher ≤ l.length := le_trans (Nat.mul_le_mul_right _ (Nat.le_succ j)) hl
  have hlen := loop_out_length hf key acc h1
  have hy := blockFn_length hf key (loop f key acc (bs i.cipher) l j).chain (block_length hl)
  rw [loop_succ, loopTurn]
  simp only
  rw [blockOf_setPrefix _ hy]
  generalize (f key (loop f key acc (bs i.cipher) l j).chain (block (bs i.cipher) l j)).1 = y at hy
  rw [block, List.drop_left' (by simpa [h0] using hlen), ← hy, List.take_length]

/-- ECB: the loop's output is ECB of the stream, and CHAIN stays (42_ecb.md rules R115, R116). -/
theorem loop_ecb (c : Cipher) (prim : List Byte → List Byte → List Byte) (key : Reg128) (acc : Loop) (b : Nat)
    (l : List Byte) (j : Nat) :
    (loop (ecbBlock c prim) key acc b l j).chain = acc.chain ∧
      (loop (ecbBlock c prim) key acc b l j).out =
        acc.out ++ (((List.range j).map (block b l)).map (prim (keyOf c key))).flatten := by
  induction j with
  | zero => simp [loop]
  | succ j ih => rw [loop_succ, loopTurn]; simp [ecbBlock, ih.1, ih.2, List.range_succ]

/-- PAD: the loop's output is the stream itself. -/
theorem loop_pad (key : Reg128) (acc : Loop) {b : Nat} {l : List Byte} {j : Nat} (hl : j * b ≤ l.length) :
    (loop padBlock key acc b l j).chain = acc.chain ∧ (loop padBlock key acc b l j).out = acc.out ++ l.take (j * b) := by
  induction j with
  | zero => simp [loop]
  | succ j ih =>
    have h1 : j * b ≤ l.length := le_trans (Nat.mul_le_mul_right _ (Nat.le_succ j)) hl
    obtain ⟨hc, ho⟩ := ih h1
    rw [loop_succ, loopTurn]
    refine ⟨by simp [padBlock, hc], ?_⟩
    simp only [padBlock, ho, List.append_assoc, block]
    rw [Nat.add_mul, Nat.one_mul, List.take_add]

/-- CBC encryption: the loop is the loop of `CBC_encrypt` (43_cbc.md rule R127). -/
theorem loop_cbcEnc (c : Cipher) (key : Reg128) (acc : Loop) (l : List Byte) (j : Nat) :
    let r := ((List.range j).map (block (bs c) l)).foldl (cbcEncTurn (enc c (keyOf c key)))
      (acc.out, blockOf c acc.chain)
    (loop (cbcEncBlock c (enc c)) key acc (bs c) l j).out = r.1 ∧
      blockOf c (loop (cbcEncBlock c (enc c)) key acc (bs c) l j).chain = r.2 := by
  induction j with
  | zero => simp [loop]
  | succ j ih =>
    simp only [List.range_succ, List.map_append, List.foldl_append, List.map_cons, List.map_nil, List.foldl_cons,
      List.foldl_nil] at ih ⊢
    rw [loop_succ, loopTurn, cbcEncTurn]
    simp only [cbcEncBlock, ih.1, ih.2, true_and]
    exact blockOf_setPrefix _ (enc_length c _ _)

/-- CBC decryption: the loop is the loop of `CBC_decrypt` (43_cbc.md rule R131). -/
theorem loop_cbcDec (c : Cipher) (key : Reg128) (acc : Loop) {l : List Byte} {j : Nat} (hl : j * bs c ≤ l.length) :
    let r := ((List.range j).map (block (bs c) l)).foldl (cbcDecTurn (dec c (keyOf c key)))
      (acc.out, blockOf c acc.chain)
    (loop (cbcDecBlock c (dec c)) key acc (bs c) l j).out = r.1 ∧
      blockOf c (loop (cbcDecBlock c (dec c)) key acc (bs c) l j).chain = r.2 := by
  induction j with
  | zero => simp [loop]
  | succ j ih =>
    have ih := ih (le_trans (Nat.mul_le_mul_right _ (Nat.le_succ j)) hl)
    simp only [List.range_succ, List.map_append, List.foldl_append, List.map_cons, List.map_nil, List.foldl_cons,
      List.foldl_nil] at ih ⊢
    rw [loop_succ, loopTurn, cbcDecTurn]
    simp only [cbcDecBlock, ih.1, ih.2, true_and]
    exact blockOf_setPrefix _ (block_length hl)

end Sys2Proof.Machine
end

