-- ==== Sys2Proof/Laws/Bus.lean ====
section
/-!
SUPPORT. What a register write, a host transaction and a step can do, said once each (10_state.md rules R17 to R42,
30_encoding.md rule R79, 00_scope.md rule R9).
-/
namespace Sys2Proof.Machine

/-- The register at a word offset. -/
theorem target_word {off : BitVec 8} (h : off.toNat % 4 = 0) : target off .b4 = some (regAtWord (off.toNat / 4)) := by
  simp [target, h]

/-- A write of CMD while idle: a decoded command's acceptance, or the rejection of an illegal word. -/
theorem cmdWrite_idle {w : Word} {s : State} (h : s.seq = .idle) :
    (∃ i, decode w = .ok i ∧ cmdWrite w s = .next (accept i s)) ∨
      ((∃ e, decode w = .error e) ∧ cmdWrite w s = .next (acceptIllegal s)) := by
  unfold cmdWrite
  cases hd : decode w with
  | ok i => exact Or.inl ⟨i, rfl, exec_idle i h⟩
  | error e => exact Or.inr ⟨⟨e, rfl⟩, rfl⟩

/-- A word that is no command of this implementation, written to CMD while idle, is rejected (rule R82). -/
theorem cmdWrite_illegal {w : Word} {s : State} (h : decodeFor s.params w = none) (hs : s.seq = .idle) :
    cmdWrite w s = .next (acceptIllegal s) := by
  unfold decodeFor at h
  rcases cmdWrite_idle hs (w := w) with ⟨i, hd, hc⟩ | ⟨_, hc⟩
  · rw [hd] at h
    have hw : i.wellFormed s.params = false := by
      by_contra hn
      simp [hn] at h
    rcases accept_cases i s with ⟨_, ha⟩ | ⟨hn, _⟩
    · rw [hc, ha]
    · rw [hw] at hn; cases hn
  · exact hc

/-- What a register write can do: a bus error, an ignored busy-locked write, an acceptance, or the register's effect. -/
theorem regWrite_cases (off : BitVec 8) (size : BusSize) (w : Word) (s : State) :
    regWrite off size w s = .next (respond .busError s) ∨
    (s.seq ≠ .idle ∧ regWrite off size w s = .next (setWign (respond .ack s))) ∨
    (s.seq = .idle ∧ regWrite off size w s = cmdWrite w (respond .ack s)) ∨
    (∃ r, r ≠ .cmd ∧ (busyLocked r = true → s.seq = .idle) ∧
      regWrite off size w s = .next (storeReg r w (respond .ack s))) := by
  unfold regWrite
  cases target off size with
  | none => exact Or.inl rfl
  | some r =>
    right
    simp only [writeReg]
    by_cases hs : s.seq = .idle
    · have hb : (respond .ack s).busy = false := busy_eq_false.mpr hs
      simp only [hb, Bool.and_false, Bool.false_eq_true, if_false]
      by_cases hc : r = .cmd
      · simp [hc, hs]
      · right; right
        exact ⟨r, hc, fun _ => hs, by rw [if_neg hc]⟩
    · have hb : (respond .ack s).busy = true := busy_eq_true.mpr hs
      simp only [hb, Bool.and_true]
      cases hl : busyLocked r with
      | true => left; exact ⟨hs, by simp⟩
      | false =>
        have hc : r ≠ .cmd := by rintro rfl; simp [busyLocked] at hl
        right; right
        exact ⟨r, hc, fun h => (by rw [hl] at h; cases h), by rw [if_neg (by simp), if_neg hc]⟩

/-- A register read changes the host's side of the state only. -/
theorem regRead_frame (off : BitVec 8) (size : BusSize) (s : State) :
    ∃ r n, regRead off size s = respond r (drew n s) := by
  have h0 : drew 0 s = s := rfl
  unfold regRead
  split
  · exact ⟨.busError, 0, by rw [h0]⟩
  · unfold readReg
    split
    · exact ⟨_, 4, rfl⟩
    · exact ⟨_, 0, by rw [h0]⟩

/-- What a host transaction can do: a register write, a write or read of data memory, or a transaction that changes
the host's side of the state only. -/
theorem hostOp_cases (op : HostOp) (s : State) :
    (∃ off size w, hostOp op s = regWrite off size w s) ∨ (∃ a b, hostOp op s = .next (hostMemWrite a b s)) ∨
    (∃ a, hostOp op s = .next (hostMemRead a s)) ∨
    (∃ r n p, hostOp op s = .next { respond r (drew n s) with hostProg := p }) := by
  have hread : ∀ off size, ∃ r n p, (.next (regRead off size s) : Result) =
      .next { respond r (drew n s) with hostProg := p } := by
    intro off size
    obtain ⟨r, n, h⟩ := regRead_frame off size s
    exact ⟨r, n, s.hostProg, by rw [h]; rfl⟩
  cases op with
  | regWr off size w => exact Or.inl ⟨off, size, w, rfl⟩
  | regRd off size => exact Or.inr (Or.inr (Or.inr (hread off size)))
  | busWr addr size w =>
    simp only [hostOp]
    split
    · next off _ => exact Or.inl ⟨off, size, w, rfl⟩
    · exact Or.inr (Or.inr (Or.inr ⟨.unmapped, 0, s.hostProg, rfl⟩))
  | busRd addr size =>
    simp only [hostOp]
    split
    · next off _ => exact Or.inr (Or.inr (Or.inr (hread off size)))
    · exact Or.inr (Or.inr (Or.inr ⟨.unmapped, 0, s.hostProg, rfl⟩))
  | wait =>
    right; right; right
    simp only [hostOp, readReg, openRead]
    cases s.busy
    · exact ⟨_, 0, s.hostProg, rfl⟩
    · exact ⟨_, 0, .wait :: s.hostProg, rfl⟩
  | memWr a b => exact Or.inr (Or.inl ⟨a, b, rfl⟩)
  | memRd a => exact Or.inr (Or.inr (Or.inl ⟨a, rfl⟩))
  | irqRd => exact Or.inr (Or.inr (Or.inr ⟨_, 0, s.hostProg, rfl⟩))

/-- What a step is: the turn of one agent, with the rest of the schedule. -/
theorem step_cases (s : State) :
    (s.sched = [] ∧ step s = turn (idleAgent s) s) ∨
      ∃ a rest, s.sched = a :: rest ∧ step s = turn a { s with sched := rest } := by
  unfold step
  cases hs : s.sched with
  | nil => exact Or.inl ⟨rfl, rfl⟩
  | cons a rest => exact Or.inr ⟨a, rest, rfl, rfl⟩

/-- What a turn is: one host transaction, one transition of the latched command, the reset, or nothing. -/
theorem turn_cases (a : Agent) (s : State) :
    turn a s = .next s ∨ (∃ op rest, s.hostProg = op :: rest ∧ turn a s = hostOp op { s with hostProg := rest }) ∨
      (s.seq ≠ .idle ∧ turn a s = exec s.opc s) ∨ turn a s = .next (assertReset s) := by
  cases a with
  | host =>
    simp only [turn, hostTurn]
    cases hs : s.hostProg with
    | nil => exact Or.inl rfl
    | cons op rest => exact Or.inr (Or.inl ⟨op, rest, rfl, rfl⟩)
  | engine =>
    simp only [turn, engineTurn]
    by_cases hs : s.seq = .idle
    · left; rw [if_neg (by simp [hs])]
    · right; right; left; exact ⟨hs, by rw [if_pos (by simp [hs])]⟩
  | reset => exact Or.inr (Or.inr (Or.inr rfl))

end Sys2Proof.Machine
end

