-- ==== Sys2Proof/Laws/PerInstr.lean ====
section
/-!
SUPPORT. The per-instruction family `RoundTrip`: decoding a command's word gives the command back (30_encoding.md rules
R74, R77), for every operand.
-/
namespace Sys2Proof.Laws

/-- The decoder gives back what the encoder wrote. -/
def RoundTrip.Statement (i : Instr) : Prop := decode (encode i) = .ok i

theorem RoundTrip.nop : RoundTrip.Statement .nop := by unfold RoundTrip.Statement; decide

theorem RoundTrip.pad (c : Cipher) : RoundTrip.Statement (.pad c) := by
  unfold RoundTrip.Statement; cases c <;> decide

theorem RoundTrip.unpad (c : Cipher) : RoundTrip.Statement (.unpad c) := by
  unfold RoundTrip.Statement; cases c <;> decide

theorem RoundTrip.ecbEnc (c : Cipher) (p : Bool) : RoundTrip.Statement (.ecbEnc c p) := by
  unfold RoundTrip.Statement; cases c <;> cases p <;> decide

theorem RoundTrip.ecbDec (c : Cipher) (p : Bool) : RoundTrip.Statement (.ecbDec c p) := by
  unfold RoundTrip.Statement; cases c <;> cases p <;> decide

theorem RoundTrip.cbcEnc (c : Cipher) (p : Bool) : RoundTrip.Statement (.cbcEnc c p) := by
  unfold RoundTrip.Statement; cases c <;> cases p <;> decide

theorem RoundTrip.cbcDec (c : Cipher) (p : Bool) : RoundTrip.Statement (.cbcDec c p) := by
  unfold RoundTrip.Statement; cases c <;> cases p <;> decide

theorem RoundTrip.genIv (c : Cipher) : RoundTrip.Statement (.genIv c) := by
  unfold RoundTrip.Statement; cases c <;> decide

end Sys2Proof.Laws
end

