-- ==== Sys2Proof/Laws/Run.lean ====
section
/-!
SUPPORT. Runs of the machine: how steps compose, and the state of a command after its first `j` block steps
(40_command_lifecycle.md rules R88, R97).
-/
namespace Sys2Proof.Machine

theorem runs_zero (s : State) : runs 0 s = .next s := rfl

theorem runs_succ {n : Nat} {s t : State} (h : step s = .next t) : runs (n + 1) s = runs n t := by simp [runs, h]

theorem core_run_next (M : Host.Core) (n : Nat) {s t : M.State} (h : M.step s = .next t) :
    M.run (n + 1) s = M.run n t := by rw [Host.Core.run, h]

theorem core_run_fault (M : Host.Core) (n : Nat) {s : M.State} {r : M.Fault} (h : M.step s = .fault r) :
    M.run (n + 1) s = .fault r := by rw [Host.Core.run, h]

theorem core_run_refused (M : Host.Core) (n : Nat) {s : M.State} {r : M.Refusal} (h : M.step s = .refused r) :
    M.run (n + 1) s = .refused r := by rw [Host.Core.run, h]

/-- `runs` is the host's run of the machine. -/
theorem runs_eq_core_run (n : Nat) (s : State) : runs n s = Host.Core.run Sys2Proof.core n s := by
  induction n generalizing s with
  | zero => rfl
  | succ n ih =>
    cases h : step s with
    | next t => rw [runs_succ h, ih]; exact (core_run_next Sys2Proof.core n h).symm
    | fault r => simp only [runs, h]; exact (core_run_fault Sys2Proof.core n h).symm
    | refused r => simp only [runs, h]; exact (core_run_refused Sys2Proof.core n h).symm

theorem runs_add {m n : Nat} {s t : State} (h : runs m s = .next t) : runs (m + n) s = runs n t := by
  induction m generalizing s with
  | zero =>
    rw [runs_zero] at h
    simp only [Host.Outcome.next.injEq] at h
    rw [h, Nat.zero_add]
  | succ m ih =>
    cases hs : step s with
    | next s' =>
      rw [runs_succ hs] at h
      rw [show m + 1 + n = m + n + 1 by omega, runs_succ hs]
      exact ih h
    | fault r => simp [runs, hs] at h
    | refused r => simp [runs, hs] at h

theorem runs_last {n : Nat} {s t u : State} (h : runs n s = .next t) (hs : step t = .next u) :
    runs (n + 1) s = .next u := by rw [runs_add h, runs_succ hs, runs_zero]

/-! ### One turn -/

/-- The engine's turn while BUSY, named by the schedule, or by log entry 7 when it is empty. -/
theorem step_engine {s : State} {later : List Agent}
    (h : (s.sched = [] ∧ later = []) ∨ s.sched = .engine :: later) (hb : s.seq ≠ .idle) :
    step s = exec s.opc { s with sched := later } := by
  have : s.busy = true := busy_eq_true.mpr hb
  rcases h with ⟨h, rfl⟩ | h
  · have hs : s = { s with sched := [] } := by rw [← h]
    rw [← hs]
    simp [step, h, idleAgent, this, turn, engineTurn]
  · simp only [step, h, turn, engineTurn]
    rw [if_pos]
    exact this

/-- The host's turn, named by the schedule. -/
theorem step_host {s : State} {later : List Agent} (h : s.sched = .host :: later) :
    step s = hostTurn { s with sched := later } := by simp [step, h, turn]

/-- A host's turn is its next transaction. -/
theorem hostTurn_cons {op : HostOp} {rest : List HostOp} {s : State} (h : s.hostProg = op :: rest) :
    hostTurn s = hostOp op { s with hostProg := rest } := by rw [hostTurn, h]

/-- A command the host writes to an idle block is accepted in that transaction (rule R80). -/
theorem step_issue {i : Instr} {rest : List HostOp} {later : List Agent} {s : State} (h : HostWrites i rest s)
    (ht : (s.sched = [] ∧ later = []) ∨ s.sched = .host :: later) (hi : s.seq = .idle)
    (hd : decode (encode i) = .ok i) :
    step s = .next (accept i (respond .ack { s with hostProg := rest, sched := later })) := by
  have h1 : step s = hostTurn { s with sched := later } := by
    rcases ht with ⟨ht, rfl⟩ | ht
    · have hb : s.busy = false := busy_eq_false.mpr hi
      have hs : s = { s with sched := [] } := by rw [← ht]
      rw [← hs]
      simp [step, ht, idleAgent, hb, turn]
    · exact step_host ht
  have htar : target 0x10#8 .b4 = some .cmd := by decide
  have hb' : (respond .ack { s with hostProg := rest, sched := later }).busy = false := busy_eq_false.mpr hi
  rw [h1, hostTurn_cons (s := { s with sched := later }) h]
  simp only [hostOp, regWrite, htar, writeReg, busyLocked, hb', Bool.and_false, Bool.false_eq_true, if_false, if_true,
    cmdWrite, hd]
  exact exec_idle i hi

/-! ### Host turns while a command runs -/

/-- Two states that differ at most on the host's side: CTRL, WIGN, the free values drawn, the host's program, schedule
and responses. -/
def SameCommand (s t : State) : Prop :=
  t = { s with irqEn := t.irqEn, wign := t.wign, draws := t.draws, hostProg := t.hostProg, sched := t.sched, obs := t.obs }

/-- The second of two such states, written over the first. -/
theorem SameCommand.exists_eq {s t : State} (h : SameCommand s t) : ∃ irqEn wign draws hostProg sched obs,
    t = { s with irqEn := irqEn, wign := wign, draws := draws, hostProg := hostProg, sched := sched, obs := obs } :=
  ⟨_, _, _, _, _, _, h⟩

theorem SameCommand.refl (s : State) : SameCommand s s := rfl

theorem SameCommand.trans {s t u : State} (h : SameCommand s t) (k : SameCommand t u) : SameCommand s u := by
  unfold SameCommand at *
  rw [k, h]

/-- No outcome is shown, as it is while a command runs (rule R81). -/
def NoOutcome (s : State) : Prop := s.done = false ∧ s.err = false ∧ s.errcode = .none

/-- A register write while BUSY changes the host's side only (rules R41, R31, R23). -/
theorem regWrite_busy (off : BitVec 8) (size : BusSize) (w : Word) {s : State} (hb : s.seq ≠ .idle) (ho : NoOutcome s) :
    ∃ t, regWrite off size w s = .next t ∧ SameCommand s t ∧ t.hostProg = s.hostProg ∧ t.sched = s.sched := by
  obtain ⟨h1, h2, h3⟩ := ho
  rcases regWrite_cases off size w s with h | ⟨_, h⟩ | ⟨h, _⟩ | ⟨r, hc, hl, h⟩
  · exact ⟨_, h, rfl, rfl, rfl⟩
  · exact ⟨_, h, rfl, rfl, rfl⟩
  · exact (hb h).elim
  · have hl' : ¬busyLocked r = true := fun h => hb (hl h)
    refine ⟨_, h, ?_, ?_, ?_⟩ <;> cases r <;>
      first
        | exact absurd rfl hl'
        | rfl
        | simp [SameCommand, storeReg, clearStatus, respond, h1, h2, h3]

/-- A quiet host turn while BUSY changes the host's side only; the transactions left are among those there were. -/
theorem hostTurn_quiet {s : State} (hb : s.seq ≠ .idle) (ho : NoOutcome s) {n : Nat}
    (hq : ∀ op ∈ s.hostProg.take (n + 1), Quiet s.dstAddr.toNat (dstLen s) op) :
    ∃ t, hostTurn s = .next t ∧ SameCommand s t ∧ t.sched = s.sched ∧
      ∀ op ∈ t.hostProg.take n, op ∈ s.hostProg.take (n + 1) := by
  cases hp : s.hostProg with
  | nil => exact ⟨s, by simp [hostTurn, hp], .refl s, rfl, by simp [hp]⟩
  | cons op rest =>
    have hin : ∀ o ∈ rest.take n, o ∈ (op :: rest).take (n + 1) := fun o h => by simp [h]
    rw [hp] at hq
    have hw : ∀ off size w, hostOp op { s with hostProg := rest } = regWrite off size w { s with hostProg := rest } →
        ∃ t, hostTurn s = .next t ∧ SameCommand s t ∧ t.sched = s.sched ∧
          ∀ o ∈ t.hostProg.take n, o ∈ (op :: rest).take (n + 1) := by
      intro off size w h
      obtain ⟨t, h1, h2, h3, h4⟩ := regWrite_busy off size w (s := { s with hostProg := rest }) hb ho
      exact ⟨t, (hostTurn_cons hp).trans (h.trans h1), h2, h4, by rw [h3]; exact hin⟩
    have hr : ∀ r k p, (∀ o ∈ p.take n, o ∈ (op :: rest).take (n + 1)) →
        hostOp op { s with hostProg := rest } =
          .next { respond r (drew k { s with hostProg := rest }) with hostProg := p } →
        ∃ t, hostTurn s = .next t ∧ SameCommand s t ∧ t.sched = s.sched ∧
          ∀ o ∈ t.hostProg.take n, o ∈ (op :: rest).take (n + 1) := by
      intro r k p hin' h
      exact ⟨_, (hostTurn_cons hp).trans h, rfl, rfl, hin'⟩
    have hread : ∀ off size,
        hostOp op { s with hostProg := rest } = .next (regRead off size { s with hostProg := rest }) →
        ∃ t, hostTurn s = .next t ∧ SameCommand s t ∧ t.sched = s.sched ∧
          ∀ o ∈ t.hostProg.take n, o ∈ (op :: rest).take (n + 1) := by
      intro off size h
      obtain ⟨r, k, h1⟩ := regRead_frame off size { s with hostProg := rest }
      exact hr r k rest hin (by rw [h, h1]; rfl)
    cases op with
    | regWr off size w => exact hw off size w rfl
    | regRd off size => exact hread off size rfl
    | busWr addr size w =>
      cases h : windowOffset s.params addr with
      | some off => exact hw off size w (by simp only [hostOp, h])
      | none => exact hr .unmapped 0 rest hin (by simp only [hostOp, h]; rfl)
    | busRd addr size =>
      cases h : windowOffset s.params addr with
      | some off => exact hread off size (by simp only [hostOp, h])
      | none => exact hr .unmapped 0 rest hin (by simp only [hostOp, h]; rfl)
    | wait =>
      refine hr (.data (statusWord s)) 0 (.wait :: rest) (fun o h => ?_) ?_
      · cases n with
        | zero => simp at h
        | succ n =>
          simp only [List.take_succ_cons, List.mem_cons] at h ⊢
          rcases h with h | h
          · exact Or.inl h
          · right
            exact List.mem_of_mem_take (i := n) (by simpa [List.take_take] using h)
      · have : ({ s with hostProg := rest } : State).busy = true := busy_eq_true.mpr hb
        simp only [hostOp, this, if_true]
        rfl
    | memWr a b => exact (hq (.memWr a b) (by simp)).elim
    | memRd a =>
      have hd : inDst { s with hostProg := rest } a.toNat = false := by
        have := hq (.memRd a) (by simp)
        simp only [Quiet] at this
        simp only [inDst, Bool.and_eq_false_iff, decide_eq_false_iff_not]
        change ¬s.dstAddr.toNat ≤ a.toNat ∨ ¬a.toNat < s.dstAddr.toNat + dstLen s
        omega
      refine hr (.byte (Memory.read s.mem a.toNat)) 0 rest hin ?_
      simp only [hostOp, hostMemRead, hd, Bool.and_false, Bool.false_eq_true, if_false]
      rfl
    | irqRd => exact hr (.irq s.irq) 0 rest hin rfl

/-- Whatever the host does in its turn while BUSY, the command goes on where it was (rules R41, R61). -/
theorem hostTurn_busy {s : State} (hb : s.seq ≠ .idle) :
    ∃ t, hostTurn s = .next t ∧ t.seq = s.seq ∧ t.opc = s.opc ∧ t.nblk = s.nblk ∧ t.blkI = s.blkI ∧
      t.sched = s.sched := by
  cases hp : s.hostProg with
  | nil => exact ⟨s, by simp [hostTurn, hp], rfl, rfl, rfl, rfl, rfl⟩
  | cons op rest =>
    rw [hostTurn_cons hp]
    rcases hostOp_cases op { s with hostProg := rest } with ⟨off, size, w, h⟩ | ⟨a, b, h⟩ | ⟨a, h⟩ | ⟨r, n, p, h⟩
    · rw [h]
      rcases regWrite_cases off size w { s with hostProg := rest } with h | ⟨_, h⟩ | ⟨h, _⟩ | ⟨r, _, _, h⟩
      · exact ⟨_, h, rfl, rfl, rfl, rfl, rfl⟩
      · exact ⟨_, h, rfl, rfl, rfl, rfl, rfl⟩
      · exact (hb h).elim
      · exact ⟨_, h, by cases r <;> exact ⟨rfl, rfl, rfl, rfl, rfl⟩⟩
    · refine ⟨_, h, ?_⟩
      unfold hostMemWrite
      simp only
      split <;> exact ⟨rfl, rfl, rfl, rfl, rfl⟩
    · refine ⟨_, h, ?_⟩
      unfold hostMemRead
      split <;> exact ⟨rfl, rfl, rfl, rfl, rfl⟩
    · exact ⟨_, h, rfl, rfl, rfl, rfl, rfl⟩

/-- Turns of the engine and quiet turns of the host, while a command runs: whatever `P j` says of the command after `j`
engine steps, kept by changes on the host's side and by engine steps up to the `n`-th, holds after the turns `l`. -/
theorem runs_turns {n lo len : Nat} {P : Nat → State → Prop}
    (hrun : ∀ j v, P j v → j ≤ n → v.seq ≠ .idle ∧ NoOutcome v ∧ v.dstAddr.toNat = lo ∧ dstLen v = len)
    (hhost : ∀ j v t, P j v → SameCommand v t → P j t)
    (hengine : ∀ j v, P j v → j < n →
      ∃ t, exec v.opc v = .next t ∧ P (j + 1) t ∧ t.sched = v.sched ∧ t.hostProg = v.hostProg)
    (l later : List Agent) {j : Nat} {v : State} (hp : P j v) (hr : Agent.reset ∉ l)
    (ht : (v.sched = [] ∧ later = [] ∧ Agent.host ∉ l) ∨ v.sched = l ++ later) (hn : j + l.count .engine ≤ n)
    (hq : ∀ op ∈ v.hostProg.take (l.count .host), Quiet lo len op) :
    ∃ t, runs l.length v = .next t ∧ P (j + l.count .engine) t ∧ t.sched = later ∧
      (Agent.host ∉ l → t.hostProg = v.hostProg) := by
  induction l generalizing j v with
  | nil =>
    refine ⟨v, rfl, hp, ?_, fun _ => rfl⟩
    rcases ht with ⟨h1, h2, _⟩ | h
    · rw [h1, h2]
    · exact h
  | cons a l ih =>
    obtain ⟨hb, ho, hlo, hlen⟩ := hrun j v hp (by omega)
    have hr' : Agent.reset ∉ l := fun h => hr (List.mem_cons_of_mem _ h)
    cases a with
    | reset => exact (hr (List.mem_cons_self ..)).elim
    | host =>
      have hs : v.sched = .host :: (l ++ later) := by
        rcases ht with ⟨_, _, h⟩ | h
        · exact (h (List.mem_cons_self ..)).elim
        · exact h
      simp only [List.count_cons_self] at hq
      rw [List.count_cons_of_ne (by decide)] at hn ⊢
      obtain ⟨u, h1, h2, h3, h4⟩ := hostTurn_quiet (s := { v with sched := l ++ later }) hb ho (n := l.count .host)
        (fun op h => by
          change Quiet v.dstAddr.toNat (dstLen v) op
          rw [hlo, hlen]; exact hq op h)
      obtain ⟨t, t1, t2, t3, _⟩ := ih (hhost j v u hp (SameCommand.trans (t := { v with sched := l ++ later }) rfl h2))
        hr' (Or.inr h3) hn (fun op h => hq op (h4 op h))
      exact ⟨t, by rw [List.length_cons, runs_succ ((step_host hs).trans h1)]; exact t1, t2, t3,
        fun h => (h (List.mem_cons_self ..)).elim⟩
    | engine =>
      rw [List.count_cons_self] at hn ⊢
      rw [List.count_cons_of_ne (by decide)] at hq
      have hs : ∃ w : List Agent, ((v.sched = [] ∧ w = []) ∨ v.sched = .engine :: w) ∧
          ((w = [] ∧ later = [] ∧ Agent.host ∉ l) ∨ w = l ++ later) := by
        rcases ht with ⟨h1, h2, h3⟩ | h
        · exact ⟨[], Or.inl ⟨h1, rfl⟩, Or.inl ⟨rfl, h2, fun h => h3 (List.mem_cons_of_mem _ h)⟩⟩
        · exact ⟨l ++ later, Or.inr h, Or.inr rfl⟩
      obtain ⟨w, hw1, hw2⟩ := hs
      obtain ⟨u, h1, h2, h3, h4⟩ := hengine j { v with sched := w } (hhost j v _ hp rfl) (by omega)
      obtain ⟨t, t1, t2, t3, t4⟩ := ih h2 hr' (by rw [h3]; exact hw2) (by omega) (by rw [h4]; exact hq)
      refine ⟨t, by rw [List.length_cons, runs_succ ((step_engine hw1 hb).trans h1)]; exact t1, ?_, t3, fun h => ?_⟩
      · rw [show j + (l.count .engine + 1) = j + 1 + l.count .engine by omega]; exact t2
      · rw [t4 (fun k => h (List.mem_cons_of_mem _ k)), h4]

/-- The state of a command after its first `j` block steps, none of them refused. -/
def progress (i : Instr) (f : BlockFn) (s : State) (j : Nat) : State :=
  let r := loop f s.key ⟨s.chain, [], s.lastBlk⟩ (bs i.cipher) (inStream i s) j
  { s with
    chain := r.chain
    mem := Memory.writeBytes s.mem s.dstAddr.toNat r.out
    lastBlk := r.last
    blkI := j
    blkIdx := BitVec.ofNat 32 j
    seq := if j = s.nblk then .finish else .run }

theorem writeBytes_append (m : Memory) (a : Nat) (l k : List Byte) :
    Memory.writeBytes m a (l ++ k) = Memory.writeBytes (Memory.writeBytes m a l) (a + l.length) k := by
  induction l generalizing m a with
  | nil => rfl
  | cons b l ih =>
    simp only [List.cons_append, Memory.writeBytes, ih, List.length_cons]
    congr 1
    omega

/-- What a command that was accepted and is about to take its first block step has. -/
structure Fresh (i : Instr) (s : State) : Prop where
  opc : s.opc = i
  seq : s.seq = if 0 < s.nblk then .run else .finish
  blkI : s.blkI = 0
  blkIdx : s.blkIdx = 0
  nblk : s.nblk = (derive i s.len.toNat).nblk
  alignedLen : (derive i s.len.toNat).aligned = true → s.len.toNat % bs i.cipher = 0
  closed : s.dstOpen = false
  apart : BuffersApart s (s.nblk * bs i.cipher)
  serves : MemoryServes s (s.nblk * bs i.cipher)
  srcInside : s.srcAddr.toNat + s.len.toNat ≤ addrSpace
  dstInside : s.dstAddr.toNat + s.nblk * bs i.cipher ≤ addrSpace

/-- One block step of an undisturbed command: from `progress j` to `progress (j + 1)`. -/
theorem exec_progress {i : Instr} {f : BlockFn} (hf : blockFn i = some f) {s : State} (h : Fresh i s) {j : Nat}
    (hj : j < s.nblk) : exec i (progress i f s j) = .next (progress i f s (j + 1)) := by
  have hb := bs_pos i.cipher
  have hlen := streamIn_length hf s s.mem h.alignedLen
  rw [← inStream_eq, ← h.nblk] at hlen
  have hj1 : (j + 1) * bs i.cipher ≤ s.nblk * bs i.cipher := Nat.mul_le_mul_right _ hj
  have hj0 : j * bs i.cipher + bs i.cipher = (j + 1) * bs i.cipher := by ring
  have hseq : (progress i f s j).seq = .run := by simp [progress, Nat.ne_of_lt hj]
  rw [exec_run hf hseq]
  set p := progress i f s j with hp
  have hn : p.blkI < (derive i p.len.toNat).nblk := by
    change j < (derive i s.len.toNat).nblk
    rw [← h.nblk]; exact hj
  obtain ⟨hin1, hin2⟩ := inSpan_bounds hf (s := p) h.alignedLen hn
  have hout : (loop f s.key ⟨s.chain, [], s.lastBlk⟩ (bs i.cipher) (inStream i s) j).out.length = j * bs i.cipher := by
    rw [loop_out_length hf _ _ (by omega)]; simp
  have hread : fillTo i p (engineBytes p (inSpan i p).1 (inSpan i p).2) = block (bs i.cipher) (inStream i s) j := by
    have hbytes : engineBytes p (inSpan i p).1 (inSpan i p).2 =
        Memory.readBytes s.mem (inSpan i p).1 (inSpan i p).2 := by
      have hcl : p.dstOpen = false := h.closed
      simp only [engineBytes, hcl, Bool.false_eq_true, if_false]
      apply readBytes_congr
      intro x hx1 hx2
      apply read_writeBytes_out
      rw [hout]
      change s.srcAddr.toNat + j * bs i.cipher = _ at hin1
      change _ ≤ s.srcAddr.toNat + s.len.toNat at hin2
      rcases h.apart with ha | ha | ha | ha | ha
      · right; rw [← ha]; omega
      · omega
      · omega
      · left; omega
      · right; omega
    rw [hbytes]
    exact fillTo_readBytes hf s.mem hn
  have hy : (blockOut i f p) = f s.key (loop f s.key ⟨s.chain, [], s.lastBlk⟩ (bs i.cipher) (inStream i s) j).chain
      (block (bs i.cipher) (inStream i s) j) := by
    rw [blockOut, hread]; rfl
  have hylen : (blockOut i f p).1.length = bs i.cipher := by
    rw [hy]; exact blockFn_length hf _ _ (block_length (by omega))
  have hr : accessStop p.params .read (inSpan i p).1 (inSpan i p).2 = none := by
    rw [accessStop_eq_none]
    change s.srcAddr.toNat + j * bs i.cipher = _ at hin1
    change _ ≤ s.srcAddr.toNat + s.len.toNat at hin2
    refine ⟨le_trans hin2 h.srcInside, fun k hk => ?_⟩
    exact h.serves.1 _ (by omega) (by omega)
  have hw : accessStop p.params .write (p.dstAddr.toNat + p.blkI * bs i.cipher) (blockOut i f p).1.length = none := by
    rw [accessStop_eq_none, hylen]
    change s.dstAddr.toNat + j * bs i.cipher + bs i.cipher ≤ addrSpace ∧
      ∀ k, k < bs i.cipher → memOK s.params (s.dstAddr.toNat + j * bs i.cipher + k) .write = true
    have := h.dstInside
    refine ⟨by omega, fun k hk => h.serves.2 _ (by omega) (by omega)⟩
  rw [blockStep_served hr hw, afterBlock, afterRead_closed _ (s := p) h.closed]
  simp only [Host.Outcome.next.injEq]
  simp only [hy]
  rw [hp]
  simp only [progress, noteBlock, withMem, withChain, loop_succ, loopTurn, writeBytes_append, hout]
  rfl

/-- The block steps of an undisturbed command, with quiet host turns between them: after the turns `l` it is at
`progress` of as many blocks as the engine had turns, but for the host's side. -/
theorem runs_progress {i : Instr} {f : BlockFn} (hf : blockFn i = some f) {s : State} (h : Fresh i s)
    (ho : NoOutcome s) (l later : List Agent) (hr : Agent.reset ∉ l)
    (ht : (s.sched = [] ∧ later = [] ∧ Agent.host ∉ l) ∨ s.sched = l ++ later) (hn : l.count .engine ≤ s.nblk)
    (hq : ∀ op ∈ s.hostProg.take (l.count .host), Quiet s.dstAddr.toNat (dstLen s) op) :
    ∃ t u, runs l.length s = .next t ∧ SameCommand s u ∧ t = progress i f u (l.count .engine) ∧ t.sched = later ∧
      (Agent.host ∉ l → t.hostProg = s.hostProg) := by
  have hs0 : s = progress i f s 0 := by
    have hs : (if (0 : Nat) = s.nblk then Seq.finish else Seq.run) = s.seq := by
      rw [h.seq]; split <;> split <;> first | rfl | omega
    have h1 : (0 : Nat) = s.blkI := h.blkI.symm
    have h2 : BitVec.ofNat 32 0 = s.blkIdx := h.blkIdx.symm
    unfold progress
    rw [loop_zero, hs, h2]
    simp only [Memory.writeBytes]
    conv_rhs => rw [h1]
  have hstep : ∀ j v, (∃ u, SameCommand s u ∧ v = progress i f u j) → j < s.nblk →
      ∃ t, exec v.opc v = .next t ∧ (∃ u, SameCommand s u ∧ t = progress i f u (j + 1)) ∧ t.sched = v.sched ∧
        t.hostProg = v.hostProg := by
    rintro j v ⟨u, hu, rfl⟩ hj
    have hfu : Fresh i u := by
      rw [hu]
      exact ⟨h.opc, h.seq, h.blkI, h.blkIdx, h.nblk, h.alignedLen, h.closed, h.apart, h.serves, h.srcInside,
        h.dstInside⟩
    have hju : j < u.nblk := by rw [hu]; exact hj
    have hopc : (progress i f u j).opc = i := hfu.opc
    exact ⟨_, by rw [hopc]; exact exec_progress hf hfu hju, ⟨u, hu, rfl⟩, rfl, rfl⟩
  obtain ⟨t, t1, ⟨u, hu, t2⟩, t3, t4⟩ := runs_turns (n := s.nblk) (lo := s.dstAddr.toNat) (len := dstLen s)
    (P := fun j v => ∃ u, SameCommand s u ∧ v = progress i f u j)
    (by
      rintro j v ⟨u, hu, rfl⟩ _
      rw [hu]
      refine ⟨?_, ho, rfl, rfl⟩
      simp only [progress]
      split <;> simp)
    (by
      rintro j v t ⟨u, hu, rfl⟩ ht
      refine ⟨{ u with
          irqEn := t.irqEn, wign := t.wign, draws := t.draws, hostProg := t.hostProg, sched := t.sched, obs := t.obs },
        hu.trans rfl, ?_⟩
      rw [ht]
      rfl)
    hstep l later (j := 0) (v := s) ⟨s, .refl s, hs0⟩ hr ht (by omega) hq
  exact ⟨t, u, t1, hu, by rw [t2, Nat.zero_add], t3, t4⟩

end Sys2Proof.Machine
end

