-- ==== Sys2Proof/Laws/Command.lean ====
section
/-!
SUPPORT. A whole command: the step in which the host issues it, and the state it is in before its finish step, after the
turns in between (40_command_lifecycle.md rules R80, R88, R97).
-/
namespace Sys2Proof.Machine

/-! ### Issue -/

/-- Acceptance of a command that passes its checks starts it (rule R87). -/
theorem accept_of_accepts {i : Instr} {s : State} (h : Accepts i s) :
    accept i s = start i (derive i s.len.toNat) (latch i (derive i s.len.toNat) (clearOutcome s)) := by
  have he : acceptError i (derive i s.len.toNat) (clearOutcome s) = .none := by
    rw [acceptError_eq_none, rangeOK_iff]
    exact ⟨h.alignedLen, h.ivThere, h.srcInside, h.dstInside, h.lengthFits⟩
  rcases accept_cases i s with ⟨hw, _⟩ | ⟨_, ⟨hn, _⟩ | ⟨_, h2⟩⟩
  · rw [h.present] at hw; cases hw
  · exact (hn he).elim
  · exact h2

/-- The state after the host issued command `i`, its program then `rest` and the schedule `later`. -/
def issued (i : Instr) (rest : List HostOp) (later : List Agent) (s : State) : State :=
  start i (derive i s.len.toNat)
    (latch i (derive i s.len.toNat) (clearOutcome (respond .ack { s with hostProg := rest, sched := later })))

theorem decode_encode (i : Instr) : decode (encode i) = .ok i := by
  cases i with
  | nop => exact Laws.RoundTrip.nop
  | pad c => exact Laws.RoundTrip.pad c
  | unpad c => exact Laws.RoundTrip.unpad c
  | ecbEnc c p => exact Laws.RoundTrip.ecbEnc c p
  | ecbDec c p => exact Laws.RoundTrip.ecbDec c p
  | cbcEnc c p => exact Laws.RoundTrip.cbcEnc c p
  | cbcDec c p => exact Laws.RoundTrip.cbcDec c p
  | genIv c => exact Laws.RoundTrip.genIv c

theorem step_issued {i : Instr} {rest : List HostOp} {later : List Agent} {s : State} (h : Accepts i s)
    (hi : HostWrites i rest s) (ht : (s.sched = [] ∧ later = []) ∨ s.sched = .host :: later) :
    step s = .next (issued i rest later s) := by
  rw [step_issue hi ht h.idle (decode_encode i)]
  rw [accept_of_accepts (s := respond .ack { s with hostProg := rest, sched := later })
    ⟨h.idle, h.present, h.alignedLen, h.ivThere, h.srcInside, h.dstInside, h.lengthFits⟩]
  rfl

/-- An issued command is BUSY. -/
theorem issued_busy (i : Instr) (rest : List HostOp) (later : List Agent) (s : State) :
    (issued i rest later s).seq ≠ .idle := by
  simp only [issued, start]
  split <;> simp

/-- The schedule after the issuing step `w`, after the turns `l` too, and after one engine's turn more. -/
theorem turns_split {l : List Agent} {s : State} (h : TurnsAfter (l ++ [.engine]) s) :
    Agent.reset ∉ l ∧ ∃ w later last, ((s.sched = [] ∧ w = []) ∨ s.sched = .host :: w) ∧
      ((w = [] ∧ later = [] ∧ Agent.host ∉ l) ∨ w = l ++ later) ∧
      ((later = [] ∧ last = []) ∨ later = .engine :: last) := by
  obtain ⟨h1, h2⟩ := h
  refine ⟨fun h => h1 (by simp [h]), ?_⟩
  rcases h2 with ⟨h2, h3⟩ | ⟨z, h2⟩
  · exact ⟨[], [], [], Or.inl ⟨h2, rfl⟩, Or.inl ⟨rfl, rfl, fun h => h3 (by simp [h])⟩, Or.inl ⟨rfl, rfl⟩⟩
  · exact ⟨l ++ ([.engine] ++ z), [.engine] ++ z, z, Or.inr (by rw [h2]; simp), Or.inr rfl, Or.inr rfl⟩

/-- The last turn of a command: the engine's, after the turns `l`. -/
theorem runs_issued {i : Instr} {rest : List HostOp} {l w later last : List Agent} {s p t : State} (h : Accepts i s)
    (hi : HostWrites i rest s) (hw : (s.sched = [] ∧ w = []) ∨ s.sched = .host :: w)
    (hp : runs l.length (issued i rest w s) = .next p) (hs : p.sched = later) (hb : p.seq ≠ .idle)
    (hl : (later = [] ∧ last = []) ∨ later = .engine :: last) (ht : exec p.opc { p with sched := last } = .next t) :
    runs (l.length + 2) s = .next t := by
  rw [show l.length + 2 = l.length + 1 + 1 by omega, runs_succ (step_issued h hi hw)]
  subst hs
  exact runs_last hp ((step_engine hl hb).trans ht)

/-! ### Before the finish step -/

/-- Regions in place or disjoint do not overlap partially (20_memory.md rule R62). -/
theorem not_partialOverlap {i : Instr} {s u : State} (h1 : u.srcAddr = s.srcAddr) (h2 : u.dstAddr = s.dstAddr)
    (h3 : u.len = s.len) (hb : BuffersApart s ((derive i s.len.toNat).nblk * bs i.cipher)) :
    partialOverlap i.cipher (derive i s.len.toNat) u = false := by
  rw [Bool.eq_false_iff]
  intro hp
  simp only [partialOverlap, overlap, Bool.and_eq_true, decide_eq_true_eq, bne_iff_ne, ne_eq, h1, h2, h3] at hp
  unfold BuffersApart at hb
  rcases hb with hb | hb
  · exact hp.2 hb
  · omega

/-- The block steps of a command taken together, over its input stream. -/
def loopOf (i : Instr) (f : BlockFn) (s : State) : Loop :=
  loop f s.key ⟨chainAtStart i s, [], s.lastBlk⟩ (bs i.cipher) (inStream i s) (derive i s.len.toNat).nblk

/-- The state `p` before the finish step of a command with block steps, issued in `s`, after the turns `l`. -/
structure Ready (i : Instr) (f : BlockFn) (l : List Agent) (rest : List HostOp) (s p : State) : Prop where
  seq : p.seq = .finish
  closed : p.dstOpen = false
  nblk : p.nblk = (derive i s.len.toNat).nblk
  outlen : p.outlen = (derive i s.len.toNat).outlen
  blkIdx : p.blkIdx = BitVec.ofNat 32 (derive i s.len.toNat).nblk
  iv : p.iv = s.iv
  ivWr : p.ivWr = s.ivWr
  key : p.key = s.key
  len : p.len = s.len
  faultSet : p.faultSet = s.faultSet
  hostProg : Agent.host ∉ l → p.hostProg = rest
  dstAddr : p.dstAddr = s.dstAddr
  mem : p.mem = Memory.writeBytes s.mem s.dstAddr.toNat (loopOf i f s).out
  chain : p.chain = (loopOf i f s).chain
  lastBlk : p.lastBlk = (loopOf i f s).last

/-- A command with block steps comes to its finish step, and what `exec` does there ends the run. -/
theorem exists_ready {i : Instr} {f : BlockFn} (hf : blockFn i = some f) {l : List Agent} {rest : List HostOp}
    {s : State} (h : Accepts i s) (hi : Issues i l rest s)
    (hb : BuffersApart s ((derive i s.len.toNat).nblk * bs i.cipher))
    (hm : MemoryServes s ((derive i s.len.toNat).nblk * bs i.cipher)) :
    ∃ p, Ready i f l rest s p ∧ ∀ t, exec i p = .next t → runs (l.length + 2) s = .next t := by
  obtain ⟨hr, w, later, last, hw, hl, he⟩ := turns_split hi.turns
  have hd := derive_of_blockFn hf s.len.toNat
  have hnp : partialOverlap i.cipher (derive i s.len.toNat) (latch i (derive i s.len.toNat)
      (clearOutcome (respond .ack { s with hostProg := rest, sched := w }))) = false := not_partialOverlap rfl rfl rfl hb
  have hfr : Fresh i (issued i rest w s) :=
    ⟨rfl, rfl, rfl, rfl, rfl, h.alignedLen, hnp, hb, hm, h.srcInside hd.1, h.dstInside hd.2⟩
  have hfa : (issued i rest w s).faultSet = s.faultSet := by
    simp only [issued, start, hnp, Bool.or_false]
    rfl
  have hn : (issued i rest w s).nblk = (derive i s.len.toNat).nblk := rfl
  obtain ⟨t, u, h1, h2, h3, h4, h5⟩ :=
    runs_progress hf hfr ⟨rfl, rfl, rfl⟩ l later hr hl (le_of_eq hi.blocks) hi.quiet
  rw [hi.blocks] at h3
  obtain ⟨a1, a2, a3, a4, a5, a6, rfl⟩ := h2.exists_eq
  subst h3
  set v : State := { issued i rest w s with
    irqEn := a1, wign := a2, draws := a3, hostProg := a4, sched := a5, obs := a6 } with hv
  refine ⟨{ progress i f v (derive i s.len.toNat).nblk with sched := last }, ⟨?_, hfr.closed, rfl, rfl, rfl, rfl, rfl, rfl, rfl, hfa, h5, rfl, rfl,
    rfl, rfl⟩, fun t ht => runs_issued h hi.command hw h1 h4 ?_ he ht⟩
  · simp [progress, hv, hn]
  · simp [progress, hv, hn]

/-- A command without block steps comes to its one engine step, changed on the host's side only. -/
theorem exists_ready_of_no_blockFn {i : Instr} (hf : blockFn i = none) {l : List Agent} {rest : List HostOp}
    {s : State} (h : Accepts i s) (hi : Issues i l rest s) :
    ∃ w p, SameCommand (issued i rest w s) p ∧ (Agent.host ∉ l → p.hostProg = rest) ∧
      ∀ t, exec i p = .next t → runs (l.length + 2) s = .next t := by
  have hn := (derive_of_no_blockFn hf s.len.toNat).1
  obtain ⟨hr, w, later, last, hw, hl, he⟩ := turns_split hi.turns
  have hb := issued_busy i rest w s
  obtain ⟨t, h1, ⟨_, h2⟩, h3, h4⟩ := runs_turns (n := 0) (lo := s.dstAddr.toNat)
    (len := (derive i s.len.toNat).nblk * bs i.cipher) (P := fun j v => j = 0 ∧ SameCommand (issued i rest w s) v)
    (by
      rintro j v ⟨_, hv⟩ _
      obtain ⟨a1, a2, a3, a4, a5, a6, rfl⟩ := hv.exists_eq
      exact ⟨hb, ⟨rfl, rfl, rfl⟩, rfl, rfl⟩)
    (fun _ _ _ hv ht => ⟨hv.1, hv.2.trans ht⟩) (fun _ _ _ hj => absurd hj (Nat.not_lt_zero _)) l later (j := 0)
    (v := issued i rest w s) ⟨rfl, .refl _⟩ hr hl (by rw [hi.blocks, hn]) hi.quiet
  obtain ⟨a1, a2, a3, a4, a5, a6, rfl⟩ := h2.exists_eq
  exact ⟨w, { issued i rest w s with irqEn := a1, wign := a2, draws := a3, hostProg := a4, sched := last, obs := a6 },
    rfl, h4, fun t ht => runs_issued h hi.command hw h1 h3 hb he ht⟩

end Sys2Proof.Machine
end

