-- ==== Sys2Proof/Laws/Modes.lean ====
section
/-!
SUPPORT. The modes block by block (42_ecb.md rules R115, R116; 43_cbc.md rules R127, R131): what each does with the
first block of a byte sequence, and induction over whole blocks.
-/
namespace Sys2Proof.Machine

theorem block_first {b : Nat} {x : List Byte} (y : List Byte) (hx : x.length = b) : block b (x ++ y) 0 = x := by
  simp [block, ← hx]

theorem block_later {b : Nat} {x : List Byte} (y : List Byte) (hx : x.length = b) (i : Nat) :
    block b (x ++ y) (i + 1) = block b y i := by
  unfold block
  rw [show (i + 1) * b = x.length + i * b by rw [hx]; ring, List.drop_append, List.drop_of_length_le (by omega)]
  simp

@[simp] theorem blocks_nil (b : Nat) : blocks b [] = [] := by simp [blocks]

theorem blocks_append {b : Nat} (hb : 0 < b) {x : List Byte} (y : List Byte) (hx : x.length = b) :
    blocks b (x ++ y) = x :: blocks b y := by
  unfold blocks
  rw [List.length_append, hx, Nat.add_div_left _ hb, List.range_succ_eq_map, List.map_cons, block_first y hx,
    List.map_map]
  congr 1
  exact List.map_congr_left fun i _ => block_later y hx i

theorem blocks_of_length {b n : Nat} (hb : 0 < b) {l : List Byte} (h : l.length = n * b) :
    blocks b l = (List.range n).map (block b l) := by rw [blocks, h, Nat.mul_div_cancel _ hb]

/-- Induction over whole blocks. -/
theorem whole_blocks_induction {b : Nat} (hb : 0 < b) {P : List Byte → Prop} (h0 : P [])
    (h1 : ∀ x y : List Byte, x.length = b → y.length % b = 0 → P y → P (x ++ y)) :
    ∀ l : List Byte, l.length % b = 0 → P l := by
  intro l
  generalize hn : l.length / b = n
  induction n generalizing l with
  | zero =>
    intro hm
    have h2 := Nat.div_add_mod l.length b
    rw [hn, hm] at h2
    have hl : l = [] := List.eq_nil_of_length_eq_zero (by simpa using h2.symm)
    rw [hl]
    exact h0
  | succ n ih =>
    intro hm
    have hge : b ≤ l.length := by
      by_contra hc
      rw [Nat.div_eq_of_lt (by omega)] at hn
      omega
    have hy : (l.drop b).length = l.length - b := by simp
    have hm' : (l.drop b).length % b = 0 := by rw [hy, ← Nat.mod_eq_sub_mod hge]; exact hm
    rw [← List.take_append_drop b l]
    apply h1 _ _ (by simp; omega) hm'
    apply ih _ _ hm'
    rw [Nat.div_eq_sub_div hb hge] at hn
    rw [hy]
    omega

@[simp] theorem ecb_nil (f : List Byte → List Byte) (b : Nat) : ecb f b [] = [] := by simp [ecb]

theorem ecb_append (f : List Byte → List Byte) {b : Nat} (hb : 0 < b) {x : List Byte} (y : List Byte)
    (hx : x.length = b) : ecb f b (x ++ y) = f x ++ ecb f b y := by simp [ecb, blocks_append hb y hx]

/-- The output so far only stands before the rest. -/
theorem foldl_cbcEncTurn (e : List Byte → List Byte) (o iv : List Byte) (l : List (List Byte)) :
    l.foldl (cbcEncTurn e) (o, iv) =
      (o ++ (l.foldl (cbcEncTurn e) ([], iv)).1, (l.foldl (cbcEncTurn e) ([], iv)).2) := by
  induction l generalizing o iv with
  | nil => simp
  | cons x l ih =>
    simp only [List.foldl_cons, cbcEncTurn]
    rw [ih, ih ([] ++ _)]
    simp

theorem foldl_cbcDecTurn (d : List Byte → List Byte) (o iv : List Byte) (l : List (List Byte)) :
    l.foldl (cbcDecTurn d) (o, iv) =
      (o ++ (l.foldl (cbcDecTurn d) ([], iv)).1, (l.foldl (cbcDecTurn d) ([], iv)).2) := by
  induction l generalizing o iv with
  | nil => simp
  | cons x l ih =>
    simp only [List.foldl_cons, cbcDecTurn]
    rw [ih, ih ([] ++ _)]
    simp

theorem cbcEncrypt_append (e : List Byte → List Byte) {b : Nat} (hb : 0 < b) (iv : List Byte) {x : List Byte}
    (y : List Byte) (hx : x.length = b) :
    cbcEncrypt e b iv (x ++ y) =
      (e (xorBytes x iv) ++ (cbcEncrypt e b (e (xorBytes x iv)) y).1, (cbcEncrypt e b (e (xorBytes x iv)) y).2) := by
  unfold cbcEncrypt
  rw [blocks_append hb y hx, List.foldl_cons]
  simp only [cbcEncTurn, List.nil_append]
  rw [foldl_cbcEncTurn]

theorem cbcDecrypt_append (d : List Byte → List Byte) {b : Nat} (hb : 0 < b) (iv : List Byte) {x : List Byte}
    (y : List Byte) (hx : x.length = b) :
    cbcDecrypt d b iv (x ++ y) = (xorBytes (d x) iv ++ (cbcDecrypt d b x y).1, (cbcDecrypt d b x y).2) := by
  unfold cbcDecrypt
  rw [blocks_append hb y hx, List.foldl_cons]
  simp only [cbcDecTurn, List.nil_append]
  rw [foldl_cbcDecTurn]

end Sys2Proof.Machine
end

