-- ==== Sys2Proof/Laws/Padding.lean ====
section
/-!
SUPPORT. The padding check of a block (41_padding.md rule R102): it finds `n` exactly when the block is padded by `n`.
-/
namespace Sys2Proof.Machine

theorem bs_eight_or_sixteen (c : Cipher) : bs c = 8 ∨ bs c = 16 := by cases c <;> simp [bs]

theorem all_eq_iff_replicate (l : List Byte) (v : Byte) : l.all (· == v) = true ↔ l = List.replicate l.length v := by
  rw [List.all_eq_true, List.eq_replicate_iff]
  simp

/-- `PaddedBy` of one block, in the words of the check. -/
theorem paddedBy_block {t : List Byte} {b n : Nat} (hb : b = 8 ∨ b = 16) (ht : t.length = b) :
    PaddedBy t b n ↔ 1 ≤ n ∧ n ≤ b ∧ (t.getD (b - 1) 0).toNat = n ∧
      ((t.take b).drop (b - n)).all (· == BitVec.ofNat 8 n) = true := by
  have htk : t.take b = t := by rw [← ht]; simp
  rw [all_eq_iff_replicate, htk]
  unfold PaddedBy
  rw [ht]
  simp only [List.length_drop, ht]
  constructor
  · rintro ⟨h1, h2, _, h4⟩
    refine ⟨h1, h2, ?_, by rw [h4]; simp; omega⟩
    have h5 : (t.drop (b - n))[n - 1]? = some (BitVec.ofNat 8 n) := by
      rw [h4, List.getElem?_replicate, if_pos (by omega)]
    rw [List.getElem?_drop, show b - n + (n - 1) = b - 1 by omega] at h5
    rw [List.getD_eq_getElem?_getD, h5]
    simp
    omega
  · rintro ⟨h1, h2, _, h4⟩
    refine ⟨h1, h2, h2, ?_⟩
    rw [h4]
    congr 1
    omega

/-- A block is padded by at most one `n`. -/
theorem paddedBy_unique {t : List Byte} {b n m : Nat} (hb : b = 8 ∨ b = 16) (ht : t.length = b) (h : PaddedBy t b n)
    (h' : PaddedBy t b m) : n = m :=
  ((paddedBy_block hb ht).1 h).2.2.1.symm.trans ((paddedBy_block hb ht).1 h').2.2.1

theorem unpadCheckBlock_some {t : List Byte} {nblk b n : Nat} (hb : b = 8 ∨ b = 16) (ht : t.length = b) (hn : nblk ≠ 0)
    (h : PaddedBy t b n) : unpadCheckBlock t nblk b = some n := by
  obtain ⟨h1, h2, h3, h4⟩ := (paddedBy_block hb ht).1 h
  unfold unpadCheckBlock
  rw [if_neg hn]
  simp only [h3]
  rw [if_neg (by omega), if_pos h4]

theorem unpadCheckBlock_none {t : List Byte} {nblk b : Nat} (hb : b = 8 ∨ b = 16) (ht : t.length = b)
    (h : nblk = 0 ∨ ∀ n, ¬PaddedBy t b n) : unpadCheckBlock t nblk b = none := by
  unfold unpadCheckBlock
  split
  · rfl
  · next hn =>
    have h := h.resolve_left hn
    simp only
    split
    · rfl
    · split
      · next h3 => exact (h _ ((paddedBy_block hb ht).2 ⟨by omega, by omega, rfl, h3⟩)).elim
      · rfl

end Sys2Proof.Machine
end

