-- ==== Sys2Proof/Machine/HostProg.lean ====
section
/-!
DEFINITION. Host-side text and functions (log entry 25): the command syntax (30_encoding.md rule R78), the
pseudo-instructions of host programs as lists of transactions (rule R79), and the key derivation of 00_scope.md rule
R15. Nothing here is read by a step.
-/
namespace Sys2Proof.Machine

/-- `<cipher>` of the syntax (rule R78). -/
def cipherText : Cipher → String
  | .c128 => " c128"
  | .c64 => " c64"

/-- `, <flag>` of the syntax (rule R78). -/
def flagText (p : Bool) (flag : String) : String := if p then ", " ++ flag else ""

/-- The spelling of a command (rules R74, R78). -/
def spell : Instr → String
  | .nop => "nop"
  | .pad c => "pad" ++ cipherText c
  | .unpad c => "unpad" ++ cipherText c
  | .ecbEnc c p => "ecb.enc" ++ cipherText c ++ flagText p "pad"
  | .ecbDec c p => "ecb.dec" ++ cipherText c ++ flagText p "unpad"
  | .cbcEnc c p => "cbc.enc" ++ cipherText c ++ flagText p "pad"
  | .cbcDec c p => "cbc.dec" ++ cipherText c ++ flagText p "unpad"
  | .genIv c => "geniv" ++ cipherText c

/-- The commands of one cipher. -/
def commandsOf (c : Cipher) : List Instr :=
  [.pad c, .unpad c, .ecbEnc c false, .ecbEnc c true, .ecbDec c false, .ecbDec c true, .cbcEnc c false, .cbcEnc c true,
    .cbcDec c false, .cbcDec c true, .genIv c]

/-- Every command, 23 in number (rule R74). -/
def allCommands : List Instr := .nop :: (commandsOf .c128 ++ commandsOf .c64)

/-- The assembler (rule R78): the word of a spelled command; any other spelling is refused. -/
def assemble (text : String) : Option Word := (allCommands.find? fun i => spell i == text).map encode

/-- `cmd <command>`. -/
def pseudoCmd (i : Instr) : List HostOp := [.regWr 0x10#8 .b4 (encode i)]

/-- `ldkey <cipher>, k`. -/
def pseudoLdkey (c : Cipher) (k : List Byte) : List HostOp :=
  let two := [HostOp.regWr 0x30#8 .b4 (wordOfBytes k 0), .regWr 0x34#8 .b4 (wordOfBytes k 1)]
  match c with
  | .c128 => two ++ [.regWr 0x38#8 .b4 (wordOfBytes k 2), .regWr 0x3C#8 .b4 (wordOfBytes k 3)]
  | .c64 => two

/-- `ldiv <cipher>, iv`. -/
def pseudoLdiv (c : Cipher) (iv : List Byte) : List HostOp :=
  let two := [HostOp.regWr 0x40#8 .b4 (wordOfBytes iv 0), .regWr 0x44#8 .b4 (wordOfBytes iv 1)]
  match c with
  | .c128 => two ++ [.regWr 0x48#8 .b4 (wordOfBytes iv 2), .regWr 0x4C#8 .b4 (wordOfBytes iv 3)]
  | .c64 => two

/-- `clr`. -/
def pseudoClr : List HostOp := [.regWr 0x14#8 .b4 0x0000000E#32]

/-- `setbuf s, d, n`. -/
def pseudoSetbuf (s d n : Word) : List HostOp := [.regWr 0x18#8 .b4 s, .regWr 0x1C#8 .b4 d, .regWr 0x20#8 .b4 n]

/-- `mem A, bytes`: one byte write a transaction (log entry 19). -/
def pseudoMem (a : Word) (l : List Byte) : List HostOp :=
  l.mapIdx fun j b => .memWr (a + BitVec.ofNat 32 j) b

/-- `key128(id)` (00_scope.md rule R15): right-padded with the character 0x30, or its first 16 bytes. -/
def key128 (id : List Byte) : List Byte := id.take 16 ++ List.replicate (16 - id.length) 0x30#8

/-- `key64(id)` (rule R15): the first 8 bytes; a shorter identifier is a fatal host precondition failure (`none`). -/
def key64 (id : List Byte) : Option (List Byte) := if 8 ≤ id.length then some (id.take 8) else none

end Sys2Proof.Machine
end

