-- ==== Sys2Proof/Tests/Slice0.lean ====
section
/-!
SUPPORT. Tests: words of 30_encoding.md rule R74 decoded, single steps with the values of 95_test_vectors.md, and for
every statement with hypotheses a witness that meets them.
-/
namespace Sys2Proof.Tests

open Sys2Proof.Machine

/-! ### Helpers -/

/-- The bytes of `l` at `a`, as canonical memory when none is 0. -/
def bytesAt (a : Nat) (l : List Byte) : Memory := l.mapIdx fun j b => (a + j, b)

/-- "HELLO" and the padding of PAD for C64 (95_test_vectors.md T2). -/
def hello : List Byte := [0x48, 0x45, 0x4C, 0x4C, 0x4F]

def helloPadded : List Byte := hello ++ [3, 3, 3]

/-- An idle block with its buffers set. -/
def ready (src dst len : Word) (m : Memory) : State := { State.reset with srcAddr := src, dstAddr := dst, len := len, mem := m }

/-- HELLO at 0x400, the output at 0x500. -/
def readyHello : State := ready 0x400 0x500 5 (bytesAt 0x400 hello)

/-- The padded HELLO at 0x400. -/
def readyPadded : State := ready 0x400 0x500 8 (bytesAt 0x400 helloPadded)

/-- The next state of a result. -/
def after : Result → State
  | .next t => t
  | .fault _ => State.reset
  | .refused _ => State.reset

/-- A result that is a next state. -/
def isNext : Result → Bool
  | .next _ => true
  | .fault _ => false
  | .refused _ => false

theorem next_after {r : Result} (h : isNext r = true) : r = .next (after r) := by
  cases r <;> first | rfl | cases h

/-- STATUS after a transition of a command. -/
def statusAfter (i : Instr) (s : State) : Word := statusWord (after (exec i s))

/-- A command after its acceptance, and after its first block step. -/
def accepted (i : Instr) (s : State) : State := after (exec i s)

/-- TOYROT (95_test_vectors.md): the rotation with addition of the key, and its inverse. -/
def toyE (k x : List Byte) : List Byte := (x.rotate 1).zipWith (· + ·) k

def toyD (k y : List Byte) : List Byte := (y.zipWith (· - ·) k).rotate (y.length - 1)

/-- KEY with K8 in KEY0 and KEY1. -/
def k8 : Reg128 := ⟨0x34323430, 0x30323133, 0, 0⟩

/-- IV8, 00 to 07. -/
def iv8 : Reg128 := ⟨0x03020100, 0x07060504, 0, 0⟩

/-! ### Well-formed commands: an ill-formed one for each check (30_encoding.md rule R73) -/

theorem test_wf_default : Instr.wellFormed Params.default (.cbcDec .c64 true) = true := by decide

theorem test_ill_no_c128 : Instr.wellFormed { Params.default with units := .c64Only } (.ecbEnc .c128 true) = false := by
  decide

theorem test_ill_no_c64 : Instr.wellFormed { Params.default with units := .c128Only } (.pad .c64) = false := by decide

theorem test_ill_no_rng : Instr.wellFormed { Params.default with hasRng := false } (.genIv .c128) = false := by decide

/-- T6: an absent cipher is IllegalCommand at acceptance. -/
theorem test_ill_status :
    statusAfter (.ecbEnc .c64 false) { readyHello with params := { Params.default with units := .c128Only } } = 0x46 := by
  decide

/-! ### Decoding, bit by bit: RSVD (26 bits), PADF, CSEL, OP (4 bits) (rule R68) -/

theorem test_decode_nop : decode (0#26 ++ 0#1 ++ 0#1 ++ 0b0000#4) = .ok .nop := by decide

theorem test_decode_pad : decode (0#26 ++ 0#1 ++ 1#1 ++ 0b0001#4) = .ok (.pad .c64) := by decide

theorem test_decode_unpad : decode (0#26 ++ 0#1 ++ 0#1 ++ 0b0010#4) = .ok (.unpad .c128) := by decide

theorem test_decode_ecbEnc : decode (0#26 ++ 1#1 ++ 0#1 ++ 0b0011#4) = .ok (.ecbEnc .c128 true) := by decide

theorem test_decode_ecbDec : decode (0#26 ++ 0#1 ++ 1#1 ++ 0b0100#4) = .ok (.ecbDec .c64 false) := by decide

theorem test_decode_cbcEnc : decode (0#26 ++ 1#1 ++ 1#1 ++ 0b0101#4) = .ok (.cbcEnc .c64 true) := by decide

theorem test_decode_cbcDec : decode (0#26 ++ 0#1 ++ 0#1 ++ 0b0110#4) = .ok (.cbcDec .c128 false) := by decide

theorem test_decode_genIv : decode (0#26 ++ 0#1 ++ 1#1 ++ 0b0111#4) = .ok (.genIv .c64) := by decide

/-- T6: the words that are refused, each by the name of its reason. -/
theorem test_decode_refused :
    decode 0x00000008 = .error .reservedOp ∧ decode 0x0000000F = .error .reservedOp ∧
      decode 0x00000040 = .error .reservedBits ∧ decode 0x80000003 = .error .reservedBits ∧
      decode 0x00000010 = .error .cselNotAllowed ∧ decode 0x00000020 = .error .padfNotAllowed ∧
      decode 0x00000021 = .error .padfNotAllowed ∧ decode 0x00000022 = .error .padfNotAllowed ∧
      decode 0x00000027 = .error .padfNotAllowed := by decide

theorem test_decodeTableWord : decodeTableWord 32 0x35 = some (.cbcEnc .c64 true) ∧ decodeTableWord 32 8 = none := by
  decide

/-- The assembler's spelling (rules R74, R78). -/
theorem test_assemble : assemble "cbc.dec c64, unpad" = some 0x36 ∧ assemble "geniv c128" = some 0x07 := by decide

/-- The reset state fetches what withFetchWord places: one step accepts the command (T8, STATUS = 1). -/
theorem test_withFetchWord : statusWord (after (step (State.reset.withFetchWord 32 0))) = 0x00000001 := by decide

/-! ### NOP (T8) -/

theorem test_nop_accept :
    statusAfter .nop { State.reset with done := true, err := true, errcode := .invalidPadding } = 0x00000001 := by decide

theorem test_nop_finish : statusAfter .nop (accepted .nop State.reset) = 0x00000002 := by decide

/-! ### PAD (T2) -/

theorem test_pad_block :
    dstBytes (accepted (.pad .c64) (accepted (.pad .c64) readyHello)) 8 = [0x48, 0x45, 0x4C, 0x4C, 0x4F, 3, 3, 3] ∧
      (accepted (.pad .c64) (accepted (.pad .c64) readyHello)).blkIdx = 1 := by decide

theorem test_pad_lengths :
    (accepted (.pad .c64) (ready 0 0 16 [])).outlen = 24 ∧ (accepted (.pad .c128) (ready 0 0 17 [])).outlen = 32 ∧
      (accepted (.pad .c64) (ready 0 0 0 [])).nblk = 1 ∧ (accepted (.pad .c128) (ready 0 0 16 [])).nblk = 2 := by decide

/-! ### UNPAD (T3) -/

theorem test_unpad_valid :
    let t := after (exec (.unpad .c64) (accepted (.unpad .c64) readyPadded))
    statusWord t = 0x00000002 ∧ t.outLen = 5 ∧ t.blkIdx = 0 := by decide

theorem test_unpad_invalid :
    statusAfter (.unpad .c64) (accepted (.unpad .c64) (ready 0x400 0 8 (bytesAt 0x400 (hello ++ [3, 2, 3])))) = 0x16 ∧
      statusAfter (.unpad .c64) (accepted (.unpad .c64) (ready 0x400 0 0 [])) = 0x16 ∧
      statusAfter (.unpad .c64) (ready 0x400 0 7 []) = 0x26 := by decide

/-! ### ECB (T4, TOYROT) -/

theorem test_ecbEnc_block :
    (ecbBlock .c64 toyE k8 ⟨1, 2, 3, 4⟩ helloPadded).1 = [0x75, 0x80, 0x7E, 0x83, 0x36, 0x34, 0x35, 0x78] ∧
      (ecbBlock .c64 toyE k8 ⟨1, 2, 3, 4⟩ helloPadded).2 = ⟨1, 2, 3, 4⟩ := by decide

/-- Alignment and ranges of T6. -/
theorem test_ecbEnc_accept :
    statusAfter (.ecbEnc .c128 false) (ready 0 0 17 []) = 0x26 ∧
      statusAfter (.ecbEnc .c64 false) (ready 0xFFFFFFF8 0 16 []) = 0x56 ∧
      statusAfter (.ecbEnc .c64 false) (ready 0xFFFFFFF0 0x2000 16 []) = 0x01 ∧
      statusAfter (.ecbEnc .c64 true) (ready 0 0 0xFFFFFFF8 []) = 0x56 := by decide

theorem test_ecbDec_block :
    (ecbBlock .c64 toyD k8 ⟨0, 0, 0, 0⟩ [0x75, 0x80, 0x7E, 0x83, 0x36, 0x34, 0x35, 0x78]).1 = helloPadded := by decide

/-- A decryption at its finish step with `last` as its last output block. -/
def decrypted (i : Instr) (last : List Byte) : State :=
  { State.reset with
    seq := .finish, opc := i, nblk := 1, outlen := 8, blkI := 1, len := 8, ivWr := 0b0011, lastBlk := regOfBytes last }

/-- T4: the padding of the last block checked. -/
theorem test_ecbDec_finish :
    (after (exec (.ecbDec .c64 true) (decrypted (.ecbDec .c64 true) helloPadded))).outLen = 5 ∧
      statusAfter (.ecbDec .c64 true)
        (decrypted (.ecbDec .c64 true) [0x78, 0x75, 0x80, 0x7E, 0x83, 0x36, 0x34, 0x35]) = 0x316 ∧
      (after (exec (.ecbDec .c64 false) (decrypted (.ecbDec .c64 false) helloPadded))).outLen = 8 := by decide

/-! ### CBC (T5, TOYROT) -/

theorem test_cbcEnc_block :
    cbcEncBlock .c64 toyE k8 iv8 helloPadded =
      ([0x74, 0x82, 0x81, 0x7F, 0x39, 0x36, 0x36, 0x78], ⟨0x7F818274, 0x78363639, 0, 0⟩) := by decide

/-- T6: alignment before the IV, the IV words of C128, and the range after the IV, which is cleared. -/
theorem test_cbc_accept :
    statusAfter (.cbcDec .c128 false) (ready 0 0 17 []) = 0x26 ∧
      statusAfter (.cbcEnc .c128 false) { ready 0 0 16 [] with ivWr := 0b0011 } = 0x36 ∧
      statusAfter (.cbcEnc .c64 false) { ready 0 0 16 [] with ivWr := 0b0011 } = 0x301 ∧
      statusAfter (.cbcEnc .c128 false) { ready 0xFFFFFFF8 0 16 [] with ivWr := 0b1111 } = 0x56 := by decide

/-- CHAIN keeps the ciphertext block, not the plaintext (rule R133). -/
theorem test_cbcDec_block :
    cbcDecBlock .c64 toyD k8 iv8 [0x74, 0x82, 0x81, 0x7F, 0x39, 0x36, 0x36, 0x78] =
      (helloPadded, ⟨0x7F818274, 0x78363639, 0, 0⟩) := by decide

theorem test_cbcDec_finish :
    statusAfter (.cbcDec .c64 true) (decrypted (.cbcDec .c64 true) helloPadded) = 0x02 ∧
      (after (exec (.cbcDec .c64 true) (decrypted (.cbcDec .c64 true) helloPadded))).outLen = 5 := by decide

/-- T5: the two-block message under CBC with padding. -/
theorem test_cbcEncrypt :
    let m : List Byte := [0x41, 0x42, 0x43, 0x44, 0x45, 0x46, 0x47, 0x48]
    cbcEncrypt (toyE (keyOf .c64 k8)) 8 [0, 1, 2, 3, 4, 5, 6, 7] (pad (m ++ m) 8) =
      ([0x73, 0x75, 0x79, 0x75, 0x76, 0x72, 0x81, 0x71, 0x67, 0x6E, 0x63, 0x67, 0x67, 0xF7, 0x6B, 0x62, 0x96, 0x9F,
        0xA1, 0xA3, 0x32, 0x94, 0x9C, 0x9F], [0x96, 0x9F, 0xA1, 0xA3, 0x32, 0x94, 0x9C, 0x9F]) := by decide

/-! ### GEN_IV (T7): the drawn bytes are free, IV_WR and the upper words are not -/

theorem test_genIv_status :
    statusAfter (.genIv .c128) (accepted (.genIv .c128) State.reset) = 0xF02 ∧
      statusAfter (.genIv .c64) (accepted (.genIv .c64) State.reset) = 0x302 := by decide

theorem test_genIv_c64_upper :
    (after (exec (.genIv .c64) { accepted (.genIv .c64) State.reset with iv := ⟨1, 2, 3, 4⟩ })).iv.w2 = 0 ∧
      (after (exec (.genIv .c64) { accepted (.genIv .c64) State.reset with iv := ⟨1, 2, 3, 4⟩ })).iv.w3 = 0 := by decide

/-! ### The register bus (T8) -/

/-- PAD of HELLO running, before its block step. -/
def running : State := accepted (.pad .c64) readyHello

/-- The same command before its finish step. -/
def finishing : State := accepted (.pad .c64) running

theorem test_busy_writes :
    statusWord (after (hostOp (.regWr 0x30 .b4 7) running)) = 0x09 ∧
      statusWord (after (hostOp (.regWr 0x48 .b4 7) running)) = 0x09 ∧
      statusWord (after (hostOp (.regWr 0x10 .b4 3) running)) = 0x09 ∧
      (after (hostOp (.regWr 0x30 .b4 7) running)).key = ⟨0, 0, 0, 0⟩ := by decide

/-- STATUS 0x2E with IV_WR = `v`. -/
def status2E (v : BitVec 4) : State :=
  { State.reset with done := true, err := true, wign := true, errcode := .invalidBlockAlignment, ivWr := v }

theorem test_status_writes :
    statusWord (status2E 0) = 0x2E ∧ statusWord (after (hostOp (.regWr 0x14 .b4 0x02) (status2E 0))) = 0x2C ∧
      statusWord (after (hostOp (.regWr 0x14 .b4 0x04) (status2E 0))) = 0x0A ∧
      statusWord (after (hostOp (.regWr 0x14 .b4 0x0E) (status2E 0b1111))) = 0xF00 := by decide

theorem test_ctrl_write : ctrlWord (after (hostOp (.regWr 0x0C .b4 0xFFFFFFFF) State.reset)) = 1 := by decide

theorem test_bus_size : (after (hostOp (.regRd 0x14 .b2) State.reset)).obs = [.busError] := by decide

/-- Reads of the identity registers, and of KEY, which is not readable back. -/
theorem test_reads :
    (after (hostOp (.regRd 0x00 .b4) State.reset)).obs = [.data 0x4D4F4445] ∧
      (after (hostOp (.regRd 0x08 .b4) State.reset)).obs = [.data 0x00101007] ∧
      (after (hostOp (.regRd 0x30 .b4) { State.reset with key := k8 })).obs = [.data 0] := by decide

/-- Writes of the read-only registers OUT_LEN and CHAIN0 (rule R19). -/
theorem test_read_only :
    (after (hostOp (.regWr 0x24 .b4 7) State.reset)).outLen = 0 ∧
      (after (hostOp (.regWr 0x50 .b4 7) State.reset)).chain = State.reset.chain := by decide

/-- K16 of V1 and its register words, K8, and a short identifier refused (00_scope.md rule R15). -/
theorem test_key_derivation :
    regOfBytes (key128 [0x30, 0x34, 0x32, 0x34, 0x33, 0x31, 0x32, 0x30, 0x34, 0x32]) =
        ⟨0x34323430, 0x30323133, 0x30303234, 0x30303030⟩ ∧
      key64 [0x30, 0x34, 0x32, 0x34, 0x33, 0x31, 0x32, 0x30, 0x34, 0x32] =
        some [0x30, 0x34, 0x32, 0x34, 0x33, 0x31, 0x32, 0x30] ∧ key64 [0x30] = none := by decide

/-- T6: the write of block 1 refused at 0x5000, while block 0 was written. -/
theorem test_busError :
    statusAfter (.pad .c64)
      (accepted (.pad .c64) (accepted (.pad .c64)
        { ready 0x1000 0x4FF8 8 [] with
          params := { Params.default with noAccess := [⟨0x5000, 0x5FFF, .write⟩] } })) = 0x66 := by decide

theorem test_reset_busy : statusWord (after (step { running with sched := [.reset] })) = 0 := by decide

/-! ### Witnesses: states and operands that meet the hypotheses of each statement -/

theorem witness_DecoderFollowsLegality :
    ¬LegalWord State.reset.params 0x08#32 ∧ ¬LegalWord State.reset.params 0x40#32 ∧ State.reset.seq = .idle ∧
      LegalWord State.reset.params 0x07#32 ∧ LegalWord State.reset.params 0x36#32 := by unfold LegalWord; decide

theorem witness_CommandWriteRunsTheDecodedCommand :
    let op : HostOp := .regWr 0x10#8 .b4 0x01#32
    State.reset.seq = .idle ∧ ({ State.reset with hostProg := [op] }).hostProg = [op] ∧ State.reset.sched = [] ∧
      ({ State.reset with sched := [.host, .engine] }).sched = .host :: [.engine] ∧ decode 0x01#32 = .ok (.pad .c128) := by
  decide

theorem witness_EngineTurnRunsTheLatchedCommand :
    running.seq ≠ .idle ∧ running.sched = [] ∧ ({ running with sched := [.engine] }).sched = .engine :: [] ∧
      State.reset.seq = .idle ∧ ({ State.reset with sched := [.engine] }).sched = .engine :: [] := by decide

theorem running_inv (r : RunningInv running) : Inv running :=
  ⟨by decide, by decide, by decide, by decide, by decide, fun _ => r⟩

/-- A running command meets the invariant, with a next state. -/
theorem witness_StepKeepsInvariant : Inv running ∧ step running = .next (after (step running)) :=
  ⟨running_inv ⟨by decide, by decide, by decide, by decide, by decide, by decide, by decide, by decide, by decide,
    by decide⟩, next_after (by decide)⟩

theorem witness_InvariantStepNeverStops : Inv running := witness_StepKeepsInvariant.1

theorem witness_FaultSetIsSticky :
    ({ running with faultSet := ⟨true, true⟩ }).faultSet.partialOverlap = true ∧
      ({ running with faultSet := ⟨true, true⟩ }).faultSet.hostBufferHazard = true ∧
      (after (step { running with faultSet := ⟨true, true⟩ })).seq = .finish := by decide

theorem witness_StepKeepsParameters : step running = .next (after (step running)) := next_after (by decide)

/-- IRQ rises by a completion, and by a write of CTRL. -/
theorem witness_InterruptRisesOnlyByCompletion :
    let s := { finishing with irqEn := true }
    let s' := { State.reset with done := true, hostProg := [.regWr 0x0C#8 .b4 1] }
    s.irq = false ∧ (after (step s)).irq = true ∧ s'.irq = false ∧ (after (step s')).irq = true := by decide

theorem witness_HiddenStateNeverShows :
    State.reset.seq = .idle ∧
      SameVisible State.reset { State.reset with opc := .genIv .c64, nblk := 9, blkI := 3, lastBlk := k8 } ∧
      runs 1 State.reset = .next State.reset := ⟨rfl, rfl, rfl⟩

theorem witness_NonWordAccessesChangeNothing :
    BusSize.b2 ≠ .b4 ∧ (0x11#8).toNat % 4 ≠ 0 ∧
      (0xFF#32).toNat < ({ Params.default with regBase := 0x100 }).regBase.toNat ∧
      ({ Params.default with regBase := 0x100 }).regBase.toNat + 256 ≤ (0x200#32).toNat := by decide

theorem witness_WindowAccessesReachTheBlock :
    (0x1FC#32).toNat = ({ Params.default with regBase := 0x100 }).regBase.toNat + (0xFC#8).toNat := by decide

theorem witness_WaitReadsStatusUntilIdle : State.reset.seq = .idle ∧ running.seq ≠ .idle := by decide

theorem witness_ReservedOffsetsReadZero :
    (0x2C#8).toNat % 4 = 0 ∧ (0x60#8).toNat % 4 = 0 ∧ 0x60 ≤ (0x60#8).toNat ∧ (0xFC#8).toNat % 4 = 0 ∧
      0x60 ≤ (0xFC#8).toNat := by decide

theorem witness_BusyLockedWritesAreIgnored :
    running.seq ≠ .idle ∧ (0x4C#8).toNat % 4 = 0 ∧ (0x50#8).toNat % 4 = 0 ∧
      0x50#8 ∉ [0x10#8, 0x18#8, 0x1C#8, 0x20#8, 0x30#8, 0x34#8, 0x38#8, 0x3C#8, 0x40#8, 0x44#8, 0x48#8, 0x4C#8] := by
  decide

theorem witness_idle : State.reset.seq = .idle := by decide

theorem witness_ReadsOfProgressAreFreeWhileBusy :
    running.seq ≠ .idle ∧ running.opc.isGenIv = false ∧ (accepted (.genIv .c64) State.reset).seq ≠ .idle ∧
      (accepted (.genIv .c64) State.reset).opc.isGenIv = true ∧ State.reset.seq = .idle := by decide

/-- Just below SRC, and just above DST, of the running command. -/
theorem witness_HostMemoryAccessesOutsideTheBuffers :
    Memory.wf running.mem = true ∧ inSrc running 0x3FF = false ∧ inDst running 0x3FF = false ∧
      inSrc running 0x508 = false ∧ inDst running 0x508 = false := by decide

/-- The first and the last byte of SRC and of DST. -/
theorem witness_HostBufferHazardsAreFlagged :
    running.seq ≠ .idle ∧ inSrc running 0x400 = true ∧ inSrc running 0x404 = true ∧ inDst running 0x500 = true ∧
      inDst running 0x507 = true := by decide

/-- A command rejected for each of the four reasons. -/
theorem witness_RejectionsComeInOrder :
    Instr.wellFormed { Params.default with hasRng := false } (.genIv .c64) = false ∧
      ((derive (.unpad .c64) 7).aligned = true ∧ 7 % bs .c64 ≠ 0) ∧
      (Instr.isCbc (.cbcEnc .c64 true) = true ∧ (0b1101#4).extractLsb' 0 2 ≠ 0b11#2) ∧
      (Instr.isCbc (.cbcDec .c128 true) = true ∧ 0b1011#4 ≠ 0b1111#4) ∧
      ((derive (.pad .c64) 0).writesDst = true ∧ 4294967296 < 0xFFFFFFF9 + (derive (.pad .c64) 0).nblk * bs .c64) := by
  decide

/-- HELLO's PAD passes its checks. -/
theorem accepts_pad : Accepts (.pad .c64) readyHello :=
  ⟨by decide, by decide, by decide, by decide, by decide, by decide, by decide⟩

/-- The commands of the block modes, and UNPAD, pass their checks on the padded HELLO. -/
theorem accepts_ecbEnc : Accepts (.ecbEnc .c64 true) readyHello :=
  ⟨by decide, by decide, by decide, by decide, by decide, by decide, by decide⟩

theorem accepts_ecbDec : Accepts (.ecbDec .c64 true) readyPadded :=
  ⟨by decide, by decide, by decide, by decide, by decide, by decide, by decide⟩

theorem accepts_unpad : Accepts (.unpad .c64) readyPadded :=
  ⟨by decide, by decide, by decide, by decide, by decide, by decide, by decide⟩

/-- The padded HELLO with IV words 0 and 1 written. -/
def readyCbc : State := { readyPadded with iv := iv8, ivWr := 0b0011 }

theorem accepts_cbcEnc : Accepts (.cbcEnc .c64 false) readyCbc :=
  ⟨by decide, by decide, by decide, by decide, by decide, by decide, by decide⟩

theorem accepts_cbcDec : Accepts (.cbcDec .c64 true) readyCbc :=
  ⟨by decide, by decide, by decide, by decide, by decide, by decide, by decide⟩

theorem accepts_nop : Accepts .nop State.reset :=
  ⟨by decide, by decide, by decide, by decide, by decide, by decide, by decide⟩

theorem accepts_genIv : Accepts (.genIv .c128) State.reset :=
  ⟨by decide, by decide, by decide, by decide, by decide, by decide, by decide⟩

theorem witness_AcceptedCommandsStart : Accepts (.cbcDec .c64 true) readyCbc ∧ Accepts .nop State.reset :=
  ⟨accepts_cbcDec, accepts_nop⟩

/-- In-place HELLO is in order; a destination one byte above the source is not. -/
theorem witness_PartialOverlapIsFlagged :
    Accepts (.pad .c64) readyHello ∧ BuffersApart readyHello 8 ∧
      Accepts (.pad .c64) { readyHello with dstAddr := 0x401 } ∧ ¬BuffersApart { readyHello with dstAddr := 0x401 } 8 ∧
      (derive (.pad .c64) 5).writesDst = true ∧ (derive (.pad .c64) 5).nblk * bs .c64 = 8 := by
  refine ⟨accepts_pad, by unfold BuffersApart; decide, ?_, by unfold BuffersApart; decide, by decide, by decide⟩
  exact ⟨by decide, by decide, by decide, by decide, by decide, by decide, by decide⟩

/-- A command whose platform refuses nothing is served everywhere. -/
theorem serves_all {s : State} (h : s.params.noAccess = []) (n : Nat) : MemoryServes s n := by
  constructor <;> intro a _ _ <;> simp [memOK, h]

theorem block_served {b : Nat} {s : State} (h : s.params.noAccess = []) : BlockServed b s := by
  constructor <;> intros <;> simp [memOK, h]

theorem atBlock_pad : AtBlock (.pad .c64) running :=
  ⟨by decide, by decide, by decide, by decide, by decide, by decide, by decide, by decide, block_served rfl⟩

theorem atBlock_ecbEnc : AtBlock (.ecbEnc .c64 true) (accepted (.ecbEnc .c64 true) readyHello) :=
  ⟨by decide, by decide, by decide, by decide, by decide, by decide, by decide, by decide, block_served rfl⟩

theorem atBlock_ecbDec : AtBlock (.ecbDec .c64 true) (accepted (.ecbDec .c64 true) readyPadded) :=
  ⟨by decide, by decide, by decide, by decide, by decide, by decide, by decide, by decide, block_served rfl⟩

theorem atBlock_cbcEnc : AtBlock (.cbcEnc .c64 false) (accepted (.cbcEnc .c64 false) readyCbc) :=
  ⟨by decide, by decide, by decide, by decide, by decide, by decide, by decide, by decide, block_served rfl⟩

theorem atBlock_cbcDec : AtBlock (.cbcDec .c64 true) (accepted (.cbcDec .c64 true) readyCbc) :=
  ⟨by decide, by decide, by decide, by decide, by decide, by decide, by decide, by decide, block_served rfl⟩

/-- PAD of 8 bytes whose block 1 is refused at 0x5000, at its block 0 (95_test_vectors.md P5). -/
theorem atBlock_refused_later :
    AtBlock (.pad .c64) (accepted (.pad .c64) { ready 0x1000 0x4FF8 8 [] with
      params := { Params.default with noAccess := [⟨0x5000, 0x5FFF, .write⟩] } }) := by
  refine ⟨by decide, by decide, by decide, by decide, by decide, by decide, by decide, by decide, ?_⟩
  constructor <;> intro a h1 h2
  · intro _
    change 0x1000 ≤ a at h1
    change a < 0x1008 at h2
    interval_cases a <;> decide
  · change 0x4FF8 ≤ a at h1
    change a < 0x5000 at h2
    interval_cases a <;> decide

/-- The running PAD where the platform refuses accesses of one kind from `lo` on. -/
def refusing (lo : Nat) (k : Access) : State :=
  { running with params := { Params.default with noAccess := [⟨lo, addrSpace, k⟩] } }

theorem refusing_inv (lo : Nat) (k : Access) : Inv (refusing lo k) :=
  have h := witness_InvariantStepNeverStops
  have r := h.running (by decide)
  ⟨h.memCanonical, h.errMatches, h.errNoLength, h.idleClosed, h.openFlagged, fun _ => ⟨r.noOutcome, rfl, r.context,
    r.alignedLen, r.ivThere, r.srcInside, r.dstInside, r.lengthFits, r.index, r.indexShown⟩⟩

/-- The last byte of the block refused: for its read, and for its write. -/
theorem witness_BusErrorEndsTheCommand :
    Inv (refusing 0x404 .read) ∧ (refusing 0x404 .read).seq = .run ∧ (refusing 0x404 .read).opc = .pad .c64 ∧
      (derive (.pad .c64) (refusing 0x404 .read).len.toNat).writesDst = true ∧
      (4 < (inSpan (.pad .c64) (refusing 0x404 .read)).2 ∧ memOK (refusing 0x404 .read).params 0x404 .read = false) ∧
      Inv (refusing 0x507 .write) ∧ (7 < bs .c64 ∧ memOK (refusing 0x507 .write).params 0x507 .write = false) :=
  ⟨refusing_inv _ _, by decide, by decide, by decide, by decide, refusing_inv _ _, by decide⟩

theorem witness_PlainFinishCompletes :
    Instr.pad .c64 ∈ [Instr.nop, .pad .c64, .ecbEnc .c64 true, .cbcEnc .c64 true, .ecbDec .c64 false, .cbcDec .c64 false] ∧
      finishing.seq = .finish ∧ finishing.dstOpen = false := by decide

/-- A last block padded by 3, one not padded, and a command with no block. -/
theorem witness_DecryptFinishChecksThePadding :
    let s := decrypted (.ecbDec .c64 true) helloPadded
    s.seq = .finish ∧ s.dstOpen = false ∧ 0 < s.nblk ∧ PaddedBy (blockOf .c64 s.lastBlk) (bs .c64) 3 ∧
      (∀ n, ¬PaddedBy (blockOf .c64 (regOfBytes [0, 0, 0, 0, 0, 0, 0, 0])) (bs .c64) n) := by
  refine ⟨by decide, by decide, by decide, by unfold PaddedBy; decide, ?_⟩
  rintro n ⟨h1, h2, _, h4⟩
  have h : n ≤ 8 := h2
  interval_cases n <;> revert h4 <;> decide

/-- UNPAD of a padded, of a not padded and of an empty buffer, and with its read refused. -/
theorem witness_UnpadFinishChecksThePadding :
    let s := accepted (.unpad .c64) readyPadded
    s.seq = .finish ∧ s.dstOpen = false ∧ s.nblk = 0 ∧ s.srcAddr.toNat + s.len.toNat ≤ 4294967296 ∧
      bs .c64 ≤ s.len.toNat ∧ PaddedBy (Memory.readBytes s.mem 0x400 8) 8 3 ∧
      (∀ n, ¬PaddedBy (Memory.readBytes (accepted (.unpad .c64) (ready 0x400 0 8 [])).mem 0x400 8) 8 n) ∧
      bs .c64 ≤ (accepted (.unpad .c64) (ready 0x400 0 8 [])).len.toNat ∧
      (accepted (.unpad .c64) (ready 0 0 0 [])).len.toNat = 0 ∧
      memOK { Params.default with noAccess := [⟨0x407, 0x407, .read⟩] } 0x407 .read = false := by
  refine ⟨by decide, by decide, by decide, by decide, by decide, by unfold PaddedBy; decide, ?_, by decide, by decide,
    by decide⟩
  rintro n ⟨h1, h2, _, h4⟩
  interval_cases n <;> revert h4 <;> decide

theorem witness_GenIvFillsTheIv :
    (accepted (.genIv .c128) State.reset).seq = .finish ∧ (accepted (.genIv .c128) State.reset).dstOpen = false ∧
      (accepted (.genIv .c128) State.reset).outlen = 0 := by decide

theorem witness_ExecKeepsTheOtherRegisters : exec (.pad .c64) running = .next finishing := next_after (by decide)

/-- Acceptance, a block step that goes on, and a completion. -/
theorem witness_ExecWritesOnlyItsBlock :
    exec (.pad .c64) readyHello = .next running ∧ readyHello.seq = .idle ∧ exec (.pad .c64) running = .next finishing ∧
      running.seq ≠ .idle ∧ finishing.seq ≠ .idle ∧ (after (exec (.pad .c64) finishing)).seq = .idle ∧
      (after (exec (.pad .c64) finishing)).errcode ≠ .busError ∧ finishing.dstOpen = false :=
  ⟨next_after (by decide), by decide, next_after (by decide), by decide, by decide, by decide, by decide, by decide⟩

/-- A completing CBC command, and one of the other cipher right after it. -/
theorem witness_CbcCommandsConsumeTheIv :
    let s := decrypted (.cbcDec .c64 true) helloPadded
    Instr.isCbc (.cbcDec .c64 true) = true ∧ Instr.wellFormed s.params (.cbcDec .c64 true) = true ∧
      exec (.cbcDec .c64 true) s = .next (after (exec (.cbcDec .c64 true) s)) ∧
      (after (exec (.cbcDec .c64 true) s)).seq = .idle ∧ Instr.isCbc (.cbcEnc .c128 true) = true ∧
      (derive (.cbcEnc .c128 true) s.len.toNat).aligned = false :=
  ⟨by decide, by decide, next_after (by decide), by decide, by decide, by decide⟩

/-- The finish step of a PAD whose buffers overlap, and a block step with its read refused. -/
theorem witness_SpoiledDestinationsHoldFreeValues :
    let s := { finishing with dstOpen := true, faultSet := ⟨false, true⟩ }
    Inv s ∧ s.seq ≠ .idle ∧ s.opc = .pad .c64 ∧ s.dstOpen = true ∧ Inv (refusing 0x404 .read) ∧
      (after (exec (.pad .c64) (refusing 0x404 .read))).errcode = .busError := by
  refine ⟨?_, by decide, by decide, by decide, refusing_inv _ _, by decide⟩
  exact ⟨by decide, by decide, by decide, by decide, by decide, fun _ => ⟨by decide, by decide, by decide, by decide,
    by decide, by decide, by decide, by decide, by decide, by decide⟩⟩

/-- `s` with the write of command `i` as the host's next transaction, and then a poll of STATUS. -/
def issuing (i : Instr) (s : State) : State :=
  { s with hostProg := [.regWr 0x10#8 .b4 (encode i), .regRd 0x14#8 .b4] }

/-- The same with the turns named: the host's write, then `l`, then the engine and the host. -/
def scheduling (i : Instr) (l : List Agent) (s : State) : State :=
  { issuing i s with sched := .host :: (l ++ [.engine, .host]) }

/-- What an acceptance checks does not look at the host's side. -/
theorem accepts_issuing {i j : Instr} {s : State} (h : Accepts i s) : Accepts i (issuing j s) :=
  ⟨h.idle, h.present, h.alignedLen, h.ivThere, h.srcInside, h.dstInside, h.lengthFits⟩

theorem accepts_scheduling {i j : Instr} {l : List Agent} {s : State} (h : Accepts i s) :
    Accepts i (scheduling j l s) :=
  ⟨h.idle, h.present, h.alignedLen, h.ivThere, h.srcInside, h.dstInside, h.lengthFits⟩

/-- The issued command with no turn named, and with `l` named, of which at most one is the host's poll. -/
theorem issues_issuing (i : Instr) {s : State} (h : s.sched = []) {n : Nat} (hn : (derive i s.len.toNat).nblk = n) :
    Issues i (List.replicate n .engine) [.regRd 0x14#8 .b4] (issuing i s) := by
  refine ⟨rfl, ⟨by simp [List.mem_replicate], Or.inl ⟨h, by simp [List.mem_replicate]⟩⟩, by simp [issuing, hn], ?_⟩
  intro op hop
  simp [List.count_replicate] at hop

theorem issues_scheduling (i : Instr) (l : List Agent) (s : State) (hl : Agent.reset ∉ l)
    (hn : l.count .engine = (derive i s.len.toNat).nblk) :
    Issues i l [.regRd 0x14#8 .b4] (scheduling i l s) := by
  refine ⟨rfl, ⟨by simpa using hl, Or.inr ⟨[.host], by simp [scheduling]⟩⟩, hn, ?_⟩
  intro op hop
  have := List.mem_of_mem_take hop
  simp only [List.mem_singleton] at this
  subst this
  trivial

/-- HELLO's PAD with no turn named, and with the host and its hazards between the engine's turns. -/
theorem witness_CommandsCompleteInNblkPlusOneSteps :
    let s := issuing (.pad .c64) readyHello
    let s' := { scheduling (.pad .c64) [.host, .engine] readyHello with
      hostProg := [.regWr 0x10#8 .b4 0x11#32, .memWr 0x400#32 7#8] }
    Inv s ∧ Accepts (.pad .c64) s ∧ HostWrites (.pad .c64) [.regRd 0x14#8 .b4] s ∧ TurnsAfter [.engine, .engine] s ∧
      (derive (.pad .c64) s.len.toNat).nblk + 1 ≤ [Agent.engine, .engine].count .engine ∧
      Inv s' ∧ HostWrites (.pad .c64) [.memWr 0x400#32 7#8] s' ∧ TurnsAfter [.host, .engine, .engine] s' :=
  ⟨⟨by decide, by decide, by decide, by decide, by decide, fun h => (h rfl).elim⟩, accepts_issuing accepts_pad, rfl,
    ⟨by decide, Or.inl (by decide)⟩, by decide,
    ⟨by decide, by decide, by decide, by decide, by decide, fun h => (h rfl).elim⟩, rfl,
    ⟨by decide, Or.inr ⟨[.host], rfl⟩⟩⟩

/-- What the statement of a whole command asks, at the command `i` with `n` output bytes. -/
def WholeCommand (i : Instr) (l : List Agent) (n : Nat) (s : State) : Prop :=
  Memory.wf s.mem = true ∧ Accepts i s ∧ Issues i l [.regRd 0x14#8 .b4] s ∧ BuffersApart s n ∧ MemoryServes s n

/-- The command `i` of `k` blocks issued with no turn named, and with the host's poll of STATUS before the engine's. -/
def WholeCommands (i : Instr) (k n : Nat) (s : State) : Prop :=
  WholeCommand i (List.replicate k .engine) n (issuing i s) ∧
    WholeCommand i (.host :: List.replicate k .engine) n (scheduling i (.host :: List.replicate k .engine) s)

theorem wholeCommands {i : Instr} {k n : Nat} {s : State} (ha : Accepts i s) (hw : Memory.wf s.mem = true)
    (hs : s.sched = []) (hp : s.params.noAccess = []) (hb : BuffersApart s n)
    (hk : (derive i s.len.toNat).nblk = k) : WholeCommands i k n s :=
  ⟨⟨hw, accepts_issuing ha, issues_issuing i hs hk, hb, serves_all hp n⟩,
    hw, accepts_scheduling ha,
    issues_scheduling i _ s (by simp [List.mem_replicate]) (by rw [List.count_cons_of_ne (by decide)]; simp [hk]),
    hb, serves_all hp n⟩

theorem witness_PadWritesThePaddedCopy : WholeCommands (.pad .c64) 1 8 readyHello :=
  wholeCommands accepts_pad (by decide) rfl rfl (by unfold BuffersApart; decide) (by decide)

theorem witness_EcbEncWritesTheCiphertext : WholeCommands (.ecbEnc .c64 true) 1 8 readyHello :=
  wholeCommands accepts_ecbEnc (by decide) rfl rfl (by unfold BuffersApart; decide) (by decide)

theorem witness_EcbDecWritesThePlaintext : WholeCommands (.ecbDec .c64 true) 1 8 readyPadded :=
  wholeCommands accepts_ecbDec (by decide) rfl rfl (by unfold BuffersApart; decide) (by decide)

theorem witness_CbcEncWritesTheCiphertext : WholeCommands (.cbcEnc .c64 false) 1 8 readyCbc :=
  wholeCommands accepts_cbcEnc (by decide) rfl rfl (by unfold BuffersApart; decide) (by decide)

theorem witness_CbcDecWritesThePlaintext : WholeCommands (.cbcDec .c64 true) 1 8 readyCbc :=
  wholeCommands accepts_cbcDec (by decide) rfl rfl (by unfold BuffersApart; decide) (by decide)

theorem witness_UnpadReportsTheUnpaddedLength : WholeCommands (.unpad .c64) 0 0 readyPadded :=
  wholeCommands accepts_unpad (by decide) rfl rfl (by unfold BuffersApart; decide) (by decide)

theorem witness_NopCompletesWithNoEffect : WholeCommands (.nop) 0 0 State.reset :=
  wholeCommands accepts_nop (by decide) rfl rfl (by unfold BuffersApart; decide) (by decide)

theorem witness_codec_and_modes :
    (List.replicate 16 (0x41 : Byte)).length = 2 * 8 ∧ (List.replicate 16 (0x41 : Byte)).length % bs .c128 = 0 ∧
      (blockOf .c64 iv8).length = bs .c64 := by decide

/-- Two blocks exchanged. -/
theorem witness_EcbBlocksAreIndependent :
    let p := List.replicate 8 (1 : Byte) ++ List.replicate 8 2
    let q := List.replicate 8 (2 : Byte) ++ List.replicate 8 1
    p.length = 2 * bs .c64 ∧ q.length = 2 * bs .c64 ∧
      ∀ i, i < 2 → 1 - i < 2 ∧ block (bs .c64) q i = block (bs .c64) p (1 - i) := by decide

theorem witness_ResetSetsEveryRegister :
    ({ running with sched := [.reset, .host] }).sched = .reset :: [.host] ∧ Inv running ∧ running.seq ≠ .idle :=
  ⟨by decide, witness_StepKeepsInvariant.1, by decide⟩

end Sys2Proof.Tests
end

/-! ## The parameters are constant (00_scope.md rule R8, 10_state.md rule R22) -/

namespace Sys2Proof.Machine

@[simp] theorem accept_params (i : Instr) (s : State) : (accept i s).params = s.params := by
  rcases accept_cases i s with ⟨_, h⟩ | ⟨_, ⟨_, h⟩ | ⟨_, h⟩⟩
  · rw [h, acceptIllegal_eq]
  · simp [h]
  · simp [h]

theorem blockStep_params {i : Instr} {f : BlockFn} {s t : State} (h : blockStep i f s = .next t) :
    t.params = s.params := by
  rcases blockStep_cases i f s with ⟨hs, _⟩ | hs | hs | ⟨hs, _⟩ <;> rw [hs] at h <;> cases h
  · simp
  · simp
  · simp [afterBlock]

theorem exec_params {i : Instr} {s t : State} (h : exec i s = .next t) : t.params = s.params := by
  rcases exec_cases h with ⟨_, rfl⟩ | ⟨f, _, _, hb⟩ | ⟨_, code, s', rfl, hf⟩
  · exact accept_params i s
  · exact blockStep_params hb
  · rw [complete_params]
    exact hf.kept.1

theorem cmdWrite_params {w : Word} {s t : State} (h : cmdWrite w s = .next t) : t.params = s.params := by
  unfold cmdWrite at h
  split at h
  · exact exec_params h
  · cases h
    rw [acceptIllegal_eq]

@[simp] theorem storeReg_params (r : Reg) (w : Word) (s : State) : (storeReg r w s).params = s.params := by
  cases r <;> rfl

theorem regWrite_params {off : BitVec 8} {size : BusSize} {w : Word} {s t : State}
    (h : regWrite off size w s = .next t) : t.params = s.params := by
  rcases regWrite_cases off size w s with hs | ⟨_, hs⟩ | ⟨_, hs⟩ | ⟨r, _, _, hs⟩ <;> rw [hs] at h
  · cases h; rfl
  · cases h; rfl
  · exact (cmdWrite_params h :)
  · cases h; simp

@[simp] theorem hostMemWrite_params (a : Word) (b : Byte) (s : State) : (hostMemWrite a b s).params = s.params := by
  unfold hostMemWrite
  simp only
  split <;> rfl

@[simp] theorem hostMemRead_params (a : Word) (s : State) : (hostMemRead a s).params = s.params := by
  unfold hostMemRead
  split <;> rfl

theorem hostOp_params {op : HostOp} {s t : State} (h : hostOp op s = .next t) : t.params = s.params := by
  rcases hostOp_cases op s with ⟨off, size, w, hs⟩ | ⟨a, b, hs⟩ | ⟨a, hs⟩ | ⟨r, n, p, hs⟩ <;> rw [hs] at h
  · exact regWrite_params h
  · cases h; simp
  · cases h; simp
  · cases h; rfl

@[simp] theorem assertReset_params (s : State) : (assertReset s).params = s.params := by
  unfold assertReset
  simp only
  split <;> rfl

theorem turn_params {a : Agent} {s t : State} (h : turn a s = .next t) : t.params = s.params := by
  rcases turn_cases a s with hs | ⟨op, rest, _, hs⟩ | ⟨_, hs⟩ | hs <;> rw [hs] at h
  · cases h; rfl
  · exact (hostOp_params h :)
  · exact exec_params h
  · cases h; simp

theorem step_params {s t : State} (h : step s = .next t) : t.params = s.params := by
  rcases step_cases s with ⟨_, hs⟩ | ⟨a, rest, _, hs⟩ <;> rw [hs] at h
  · exact turn_params h
  · exact (turn_params h :)

/-- Some cipher is present: the parameters cannot say otherwise (00_scope.md rule R8). -/
theorem hasC128_or_hasC64 (p : Params) : p.hasC128 = true ∨ p.hasC64 = true := by
  unfold Params.hasC128 Params.hasC64
  cases p.units <;> decide

end Sys2Proof.Machine

/-! ## Round trips (42_ecb.md rule R122, 43_cbc.md rule R136) -/

namespace Sys2Proof.Machine

/-- A padded buffer is whole blocks (41_padding.md rule R101). -/
theorem pad_length_mod (data : List Byte) {b : Nat} (hb : 0 < b) : (pad data b).length % b = 0 := by
  rw [pad_length, add_padlen _ hb, Nat.mul_mod_left]

/-- The last byte of a padded buffer is the length of its padding. -/
theorem getD_pad_last (data : List Byte) {b : Nat} (hb : 0 < b) :
    (pad data b).getD ((pad data b).length - 1) 0 = BitVec.ofNat 8 (padlen data.length b) := by
  have hn := padlen_bounds data.length hb
  rw [pad_length, List.getD_eq_getElem?_getD, pad, List.getElem?_append_right (by omega), List.getElem?_replicate,
    if_pos (by omega), Option.getD_some]

/-- Padding is undone by unpadding, for every block size whose padding lengths fit a byte (41_padding.md rule R104). -/
theorem unpad_pad (data : List Byte) {b : Nat} (hb : 0 < b) (hb' : b < 256) : unpad (pad data b) b = some data := by
  obtain ⟨h1, h2⟩ := padlen_bounds data.length hb
  have hlast : ((pad data b).getD ((pad data b).length - 1) 0).toNat = padlen data.length b := by
    rw [getD_pad_last data hb, BitVec.toNat_ofNat]
    exact Nat.mod_eq_of_lt (by omega)
  have hlen : (pad data b).length - padlen data.length b = data.length := by simp
  unfold unpad
  simp only [hlast, hlen]
  rw [if_neg (by simp; omega), if_neg (by simp; omega)]
  simp [pad]

theorem unpad_pad_bs (c : Cipher) (data : List Byte) : unpad (pad data (bs c)) (bs c) = some data :=
  unpad_pad data (bs_pos c) (lt_of_le_of_lt (bs_le c) (by decide))

theorem ecb_dec_ecb_enc (c : Cipher) (k : List Byte) :
    ∀ d : List Byte, d.length % bs c = 0 → ecb (dec c k) (bs c) (ecb (enc c k) (bs c) d) = d := by
  have hb := bs_pos c
  refine whole_blocks_induction hb (by simp) fun x y hx _ ih => ?_
  rw [ecb_append _ hb y hx, ecb_append _ hb _ (enc_length c k x), dec_enc k hx, ih]

/-- Decryption goes through the ciphertext blocks that encryption chained, so the two chain values agree throughout. -/
theorem cbcDecrypt_cbcEncrypt (c : Cipher) (k : List Byte) :
    ∀ d : List Byte, d.length % bs c = 0 → ∀ iv : List Byte, iv.length = bs c →
      cbcDecrypt (dec c k) (bs c) iv (cbcEncrypt (enc c k) (bs c) iv d).1 =
        (d, (cbcEncrypt (enc c k) (bs c) iv d).2) := by
  have hb := bs_pos c
  refine whole_blocks_induction hb (fun iv _ => by simp [cbcEncrypt, cbcDecrypt]) fun x y hx _ ih iv hiv => ?_
  have hxor : (xorBytes x iv).length = bs c := by simp [hx, hiv]
  rw [cbcEncrypt_append _ hb iv y hx, cbcDecrypt_append _ hb iv _ (enc_length c k _), ih _ (enc_length c k _),
    dec_enc k hxor, xorBytes_xorBytes (hx.trans hiv.symm)]

end Sys2Proof.Machine

section
open Sys2Proof Sys2Proof.Machine

/-- Settles O11: the parameters are kept by each part of a step, and CAPS shows nothing else. -/
theorem stepKeepsParameters : Obligations.StepKeepsParameters := by
  intro s t h
  have hp := step_params h
  exact ⟨hp, congrArg capsWord hp, hasC128_or_hasC64 _⟩

/-- Settles O57, by induction over whole blocks. -/
theorem ecbRoundTrip : Obligations.EcbRoundTrip := by
  intro c k d
  refine ⟨ecb_dec_ecb_enc c k d, ?_⟩
  rw [ecb_dec_ecb_enc c k _ (pad_length_mod d (bs_pos c))]
  exact unpad_pad_bs c d

/-- Settles O59, by induction over whole blocks with the chain value general. -/
theorem cbcRoundTrip : Obligations.CbcRoundTrip := by
  intro c k iv d hiv
  refine ⟨fun hd => cbcDecrypt_cbcEncrypt c k d hd iv hiv, ?_⟩
  rw [cbcDecrypt_cbcEncrypt c k _ (pad_length_mod d (bs_pos c)) iv hiv]
  exact unpad_pad_bs c d

end

/-! ## A command completes after nblk + 1 engine steps (40_command_lifecycle.md rule R97, 70 rule R181) -/

namespace Sys2Proof.Machine

/-! ### What the host cannot touch while BUSY -/

/-- The busy-locked descriptors of `t` are those of `s` (10_state.md rule R41). -/
def SameDescriptors (s t : State) : Prop := t.srcAddr = s.srcAddr ∧ t.dstAddr = s.dstAddr ∧ t.len = s.len

theorem storeReg_descriptors {r : Reg} (hr : busyLocked r = false) (w : Word) (s : State) :
    SameDescriptors s (storeReg r w s) := by
  cases r with
  | srcAddr | dstAddr | len => cases hr
  | _ => exact ⟨rfl, rfl, rfl⟩

theorem hostMemWrite_descriptors (a : Word) (b : Byte) (s : State) : SameDescriptors s (hostMemWrite a b s) := by
  unfold hostMemWrite
  simp only
  split <;> exact ⟨rfl, rfl, rfl⟩

theorem hostMemRead_descriptors (a : Word) (s : State) : SameDescriptors s (hostMemRead a s) := by
  unfold hostMemRead
  split <;> exact ⟨rfl, rfl, rfl⟩

/-- No host transaction changes a descriptor while BUSY. -/
theorem hostOp_busy_descriptors {op : HostOp} {s t : State} (hb : s.seq ≠ .idle) (h : hostOp op s = .next t) :
    SameDescriptors s t := by
  rcases hostOp_cases op s with ⟨off, size, w, hs⟩ | ⟨a, b, hs⟩ | ⟨a, hs⟩ | ⟨r, n, p, hs⟩ <;> rw [hs] at h
  · rcases regWrite_cases off size w s with hs | ⟨_, hs⟩ | ⟨hi, _⟩ | ⟨r, _, hl, hs⟩
    · rw [hs] at h; cases h; exact ⟨rfl, rfl, rfl⟩
    · rw [hs] at h; cases h; exact ⟨rfl, rfl, rfl⟩
    · exact absurd hi hb
    · rw [hs] at h; cases h
      exact storeReg_descriptors (Bool.eq_false_iff.mpr fun hr => hb (hl hr)) w _
  · cases h; exact hostMemWrite_descriptors a b s
  · cases h; exact hostMemRead_descriptors a s
  · cases h; exact ⟨rfl, rfl, rfl⟩

theorem hostTurn_busy_descriptors {s t : State} (hb : s.seq ≠ .idle) (h : hostTurn s = .next t) :
    SameDescriptors s t := by
  cases hp : s.hostProg with
  | nil => rw [hostTurn, hp] at h; cases h; exact ⟨rfl, rfl, rfl⟩
  | cons op rest =>
    exact hostOp_busy_descriptors (s := { s with hostProg := rest }) hb ((hostTurn_cons hp).symm.trans h)

/-! ### A running command with `r` block steps to go -/

/-- A running command has `r` block steps and then its finish step before it, and its regions are inside the address
space (rules R83, R86, R88). -/
structure Remaining (r : Nat) (s : State) : Prop where
  seq : s.seq = if r = 0 then .finish else .run
  left : s.blkI + r = s.nblk
  context : s.nblk = (derive s.opc s.len.toNat).nblk
  alignedLen : (derive s.opc s.len.toNat).aligned = true → s.len.toNat % bs s.opc.cipher = 0
  srcInside : (derive s.opc s.len.toNat).usesSrc = true → s.srcAddr.toNat + s.len.toNat ≤ addrSpace
  dstInside : (derive s.opc s.len.toNat).writesDst = true → s.dstAddr.toNat + s.nblk * bs s.opc.cipher ≤ addrSpace

theorem Remaining.busy {r : Nat} {s : State} (h : Remaining r s) : s.seq ≠ .idle := by
  rw [h.seq]
  split <;> simp

/-- A command just issued has all its blocks to go. -/
theorem remaining_issued {i : Instr} {s : State} (h : Accepts i s) (rest : List HostOp) (later : List Agent) :
    Remaining (derive i s.len.toNat).nblk (issued i rest later s) where
  seq := by simp only [issued, start_seq, Nat.pos_iff_ne_zero, ite_not]
  left := Nat.zero_add _
  context := rfl
  alignedLen := h.alignedLen
  srcInside := h.srcInside
  dstInside := h.dstInside

theorem Remaining.congr {r : Nat} {s t : State} (h : Remaining r s) (hseq : t.seq = s.seq) (hopc : t.opc = s.opc)
    (hnblk : t.nblk = s.nblk) (hblkI : t.blkI = s.blkI) (hd : SameDescriptors s t) : Remaining r t := by
  obtain ⟨hsrc, hdst, hlen⟩ := hd
  constructor
  · rw [hseq]; exact h.seq
  · rw [hblkI, hnblk]; exact h.left
  · rw [hnblk, hopc, hlen]; exact h.context
  · rw [hopc, hlen]; exact h.alignedLen
  · rw [hopc, hlen, hsrc]; exact h.srcInside
  · rw [hopc, hlen, hdst, hnblk]; exact h.dstInside

theorem Remaining.withSched {r : Nat} {s : State} (h : Remaining r s) (w : List Agent) :
    Remaining r { s with sched := w } := h.congr rfl rfl rfl rfl ⟨rfl, rfl, rfl⟩

/-- Whatever the host does in its turn, the command has as many block steps to go as before. -/
theorem Remaining.hostTurn {r : Nat} {s : State} (h : Remaining r s) :
    ∃ t, hostTurn s = .next t ∧ t.sched = s.sched ∧ Remaining r t := by
  obtain ⟨t, ht, hseq, hopc, hnblk, hblkI, hsched⟩ := hostTurn_busy h.busy
  exact ⟨t, ht, hsched, h.congr hseq hopc hnblk hblkI (hostTurn_busy_descriptors h.busy ht)⟩

/-- The state is a completion: the block is idle and DONE is set (rule R92). -/
def Completed (t : State) : Prop := t.seq = .idle ∧ t.done = true

theorem completed_complete (cmd : Option Instr) (code : ErrCode) (s : State) : Completed (complete cmd code s) :=
  ⟨complete_seq cmd code s, complete_done cmd code s⟩

/-- UNPAD's read of its last block stays in the SRC region, so its finish step never stops the model (rule R106). -/
theorem unpadFinish_next {c : Cipher} {s : State} (ha : s.len.toNat % bs c = 0)
    (hs : s.srcAddr.toNat + s.len.toNat ≤ addrSpace) : ∃ t, unpadFinish c s = .next t := by
  unfold unpadFinish
  simp only
  split
  · exact ⟨_, rfl⟩
  · next hl =>
    have hle : bs c ≤ s.len.toNat := Nat.le_of_dvd (by omega) (Nat.dvd_of_mod_eq_zero ha)
    split
    · next e he =>
      cases e with
      | bus => exact ⟨_, rfl⟩
      | outside => exact absurd he (accessStop_ne_outside (by omega))
    · unfold finishUnpadded
      split <;> exact ⟨_, rfl⟩

theorem finishDecrypt_next (i : Instr) (s : State) : ∃ t, finishDecrypt i s = .next t := by
  unfold finishDecrypt finishUnpadded finishPlain
  split
  · split <;> exact ⟨_, rfl⟩
  · exact ⟨_, rfl⟩

/-- The finish step of a running command answers a next state (rule R90). -/
theorem finishStep_next {s : State} (h : Remaining 0 s) : ∃ t, finishStep s.opc s = .next t := by
  have ha := h.alignedLen
  have hs := h.srcInside
  cases hi : s.opc <;> rw [hi] at ha hs
  case unpad c => exact unpadFinish_next (ha rfl) (hs rfl)
  case ecbDec c p => exact finishDecrypt_next _ s
  case cbcDec c p => exact finishDecrypt_next _ s
  all_goals exact ⟨_, rfl⟩

/-- With no block step to go, the engine's step completes the command. -/
theorem Remaining.exec_zero {s : State} (h : Remaining 0 s) : ∃ t, exec s.opc s = .next t ∧ Completed t := by
  have hseq : s.seq = .finish := by simpa using h.seq
  obtain ⟨t, ht⟩ := finishStep_next h
  rw [← exec_finishStep (Or.inl hseq)] at ht
  obtain ⟨code, s', rfl, _⟩ := exec_finish (Or.inl hseq) ht
  exact ⟨_, ht, completed_complete _ code s'⟩

/-- A block written leaves one block step less. -/
theorem Remaining.afterBlock {r : Nat} {s : State} (h : Remaining (r + 1) s) (f : BlockFn) :
    Remaining r (afterBlock s.opc f s) := by
  have hleft := h.left
  constructor
  · have : s.blkI + 1 = s.nblk ↔ r = 0 := by omega
    simp [Machine.afterBlock, this]
  · simp [Machine.afterBlock]
    omega
  · simpa [Machine.afterBlock] using h.context
  · simpa [Machine.afterBlock] using h.alignedLen
  · simpa [Machine.afterBlock] using h.srcInside
  · simpa [Machine.afterBlock] using h.dstInside

/-- A command with block steps to go has a block function. -/
theorem Remaining.exists_blockFn {r : Nat} {s : State} (h : Remaining (r + 1) s) : ∃ f, blockFn s.opc = some f := by
  cases hf : blockFn s.opc with
  | some f => exact ⟨f, rfl⟩
  | none =>
    have hzero := (derive_of_no_blockFn hf s.len.toNat).1
    have hleft := h.left
    have hctx := h.context
    omega

/-- The accesses of a block step are inside the regions that acceptance checked (rules R55, R86). -/
theorem Remaining.accesses_inside {r : Nat} {s : State} {f : BlockFn} (h : Remaining (r + 1) s)
    (hf : blockFn s.opc = some f) :
    (inSpan s.opc s).1 + (inSpan s.opc s).2 ≤ addrSpace ∧
      s.dstAddr.toNat + s.blkI * bs s.opc.cipher + (blockOut s.opc f s).1.length ≤ addrSpace := by
  obtain ⟨hsrc, hdst⟩ := derive_of_blockFn hf s.len.toNat
  have hlt : s.blkI < s.nblk := by have := h.left; omega
  obtain ⟨_, hin⟩ := inSpan_bounds hf h.alignedLen (h.context ▸ hlt)
  have hblock := Nat.mul_le_mul_right (bs s.opc.cipher) hlt
  rw [Nat.succ_mul] at hblock
  have hend := h.dstInside hdst
  rw [blockOut_length hf]
  exact ⟨hin.trans (h.srcInside hsrc), by omega⟩

/-- With block steps to go, the engine's step ends the command with BusError or leaves one block step less. -/
theorem Remaining.exec_succ {r : Nat} {s : State} (h : Remaining (r + 1) s) :
    ∃ t, exec s.opc s = .next t ∧ ((Completed t ∧ t.errcode = .busError) ∨ (Remaining r t ∧ t.sched = s.sched)) := by
  obtain ⟨f, hf⟩ := h.exists_blockFn
  obtain ⟨hread, hwrite⟩ := h.accesses_inside hf
  rw [exec_run hf (by simpa using h.seq)]
  rcases blockStep_cases s.opc f s with ⟨_, hstop⟩ | hs | hs | ⟨hs, _⟩
  · omega
  · exact ⟨_, hs, Or.inl ⟨completed_complete _ _ _, complete_errcode _ _ _⟩⟩
  · exact ⟨_, hs, Or.inl ⟨completed_complete _ _ _, complete_errcode _ _ _⟩⟩
  · exact ⟨_, hs, Or.inr ⟨h.afterBlock f, by simp [Machine.afterBlock]⟩⟩

/-! ### The turns until completion -/

/-- In the first `m` of the turns `l` the block comes from `s` to a completion in `t`, BUSY at every step before. The
engine has `e` of these turns, or fewer and the completion is a BusError. -/
structure CompletesIn (e : Nat) (l : List Agent) (s : State) (m : Nat) (t : State) : Prop where
  within : m ≤ l.length
  reaches : runs m s = .next t
  completed : Completed t
  atMost : (l.take m).count .engine ≤ e
  exactly : (l.take m).count .engine = e ∨ t.errcode = .busError
  busyBefore : ∀ k, k < m → ∃ u, runs k s = .next u ∧ u.seq ≠ .idle

/-- BUSY in `s` and at the first `m` steps from the next state: BUSY at the first `m + 1` steps from `s`. -/
theorem busyBefore_succ {s u : State} {m : Nat} (hb : s.seq ≠ .idle) (hs : step s = .next u)
    (h : ∀ k, k < m → ∃ v, runs k u = .next v ∧ v.seq ≠ .idle) :
    ∀ k, k < m + 1 → ∃ v, runs k s = .next v ∧ v.seq ≠ .idle := by
  intro k hk
  cases k with
  | zero => exact ⟨s, runs_zero s, hb⟩
  | succ k => rw [runs_succ hs]; exact h k (by omega)

/-- One turn more, before the others. -/
theorem CompletesIn.cons {e m : Nat} {l : List Agent} {s u t : State} (h : CompletesIn e l u m t) (a : Agent)
    (hb : s.seq ≠ .idle) (hs : step s = .next u) : CompletesIn (e + [a].count .engine) (a :: l) s (m + 1) t := by
  have hcount : ((a :: l).take (m + 1)).count .engine = (l.take m).count .engine + [a].count .engine := by
    rw [List.take_succ_cons, ← List.singleton_append, List.count_append, Nat.add_comm]
  refine ⟨Nat.succ_le_succ h.within, (runs_succ hs).trans h.reaches, h.completed, ?_, ?_,
    busyBefore_succ hb hs h.busyBefore⟩
  · rw [hcount]; exact Nat.add_le_add_right h.atMost _
  · rw [hcount]; exact h.exactly.imp_left (congrArg (· + _))

/-- The engine's turn completes the command: the last of `e` engine turns, or a BusError. -/
theorem completesIn_one {e : Nat} {s t : State} (l : List Agent) (hb : s.seq ≠ .idle) (hs : step s = .next t)
    (ht : Completed t) (he : e = 0 ∨ t.errcode = .busError) : CompletesIn (e + 1) (.engine :: l) s 1 t := by
  refine ⟨by simp, by rw [runs_succ hs, runs_zero], ht, by simp, ?_, busyBefore_succ hb hs (by simp)⟩
  simpa [eq_comm] using he

/-- The turns to come are `l`, named by the schedule, or all the engine's under an empty schedule (log entry 7). -/
def TurnsAhead (l : List Agent) (s : State) : Prop :=
  (s.sched = [] ∧ Agent.host ∉ l) ∨ ∃ later, s.sched = l ++ later

theorem TurnsAhead.host {l : List Agent} {s : State} (h : TurnsAhead (.host :: l) s) :
    ∃ w, s.sched = .host :: w ∧ ∀ t : State, t.sched = w → TurnsAhead l t := by
  rcases h with ⟨_, hn⟩ | ⟨later, hl⟩
  · exact absurd (List.mem_cons_self ..) hn
  · exact ⟨l ++ later, hl, fun t ht => Or.inr ⟨later, ht⟩⟩

theorem TurnsAhead.engine {l : List Agent} {s : State} (h : TurnsAhead (.engine :: l) s) :
    ∃ w, ((s.sched = [] ∧ w = []) ∨ s.sched = .engine :: w) ∧ ∀ t : State, t.sched = w → TurnsAhead l t := by
  rcases h with ⟨hs, hn⟩ | ⟨later, hl⟩
  · exact ⟨[], Or.inl ⟨hs, rfl⟩, fun t ht => Or.inl ⟨ht, fun hm => hn (List.mem_cons_of_mem _ hm)⟩⟩
  · exact ⟨l ++ later, Or.inr hl, fun t ht => Or.inr ⟨later, ht⟩⟩

/-- A running command with `r` block steps to go completes within any turns that give the engine `r + 1`, by induction
over the turns: a host turn leaves `r`, an engine turn lowers it or completes. -/
theorem Remaining.completesIn {l : List Agent} (hr : Agent.reset ∉ l) {r : Nat} {s : State} (h : Remaining r s)
    (ht : TurnsAhead l s) (hn : r + 1 ≤ l.count .engine) : ∃ m t, CompletesIn (r + 1) l s m t := by
  induction l generalizing r s with
  | nil => simp at hn
  | cons a l ih =>
    have hr' : Agent.reset ∉ l := fun hm => hr (List.mem_cons_of_mem _ hm)
    cases a with
    | reset => exact absurd (List.mem_cons_self ..) hr
    | host =>
      obtain ⟨w, hw, hrest⟩ := ht.host
      obtain ⟨u, hu, hsched, hrem⟩ := (h.withSched w).hostTurn
      obtain ⟨m, t, hc⟩ := ih hr' hrem (hrest u hsched) (by simpa using hn)
      exact ⟨m + 1, t, hc.cons .host h.busy ((step_host hw).trans hu)⟩
    | engine =>
      obtain ⟨w, hw, hrest⟩ := ht.engine
      have hs := step_engine hw h.busy
      cases r with
      | zero =>
        obtain ⟨t, he, hc⟩ := (h.withSched w).exec_zero
        exact ⟨1, t, completesIn_one l h.busy (hs.trans he) hc (Or.inl rfl)⟩
      | succ r =>
        obtain ⟨u, he, ⟨hc, hbus⟩ | ⟨hrem, hsched⟩⟩ := (h.withSched w).exec_succ
        · exact ⟨1, u, completesIn_one l h.busy (hs.trans he) hc (Or.inr hbus)⟩
        · obtain ⟨m, t, hc⟩ := ih hr' hrem (hrest u hsched) (by simpa using hn)
          exact ⟨m + 1, t, hc.cons .engine h.busy (hs.trans he)⟩

/-- The issuing step uses the host's turn, and the turns after it are ahead. -/
theorem TurnsAfter.split {l : List Agent} {s : State} (h : TurnsAfter l s) :
    Agent.reset ∉ l ∧ ∃ w, ((s.sched = [] ∧ w = []) ∨ s.sched = .host :: w) ∧
      ∀ t : State, t.sched = w → TurnsAhead l t := by
  obtain ⟨hr, ⟨hs, hn⟩ | ⟨later, hl⟩⟩ := h
  · exact ⟨hr, [], Or.inl ⟨hs, rfl⟩, fun t ht => Or.inl ⟨ht, hn⟩⟩
  · exact ⟨hr, l ++ later, Or.inr hl, fun t ht => Or.inr ⟨later, ht⟩⟩

end Sys2Proof.Machine

section
open Sys2Proof Sys2Proof.Machine

/-- Settles O46: the issuing step leaves the command with all its blocks to go, and the turns after it run them down. -/
theorem commandsCompleteInNblkPlusOneSteps : Obligations.CommandsCompleteInNblkPlusOneSteps := by
  intro i l rest s _ ha hw ht hn
  obtain ⟨hr, w, hsched, hahead⟩ := ht.split
  have hstep := step_issued ha hw hsched
  obtain ⟨m, t, hc⟩ := (remaining_issued ha rest w).completesIn hr (hahead _ rfl) hn
  refine ⟨m, t, hc.within, ?_, hc.completed.1, hc.completed.2, hc.atMost, hc.exactly, fun k hk => ?_⟩
  · rw [Nat.add_comm, runs_succ hstep]
    exact hc.reaches
  · rw [Nat.add_comm, runs_succ hstep]
    exact hc.busyBefore k hk

end

/-! ## Every step keeps the invariant (10_state.md rules R43, R46; 40_command_lifecycle.md rules R83, R87) -/

namespace Sys2Proof.Machine

/-! ### States that meet the invariant -/

/-- What the invariant asks of an idle block. -/
theorem inv_of_idle {s : State} (hi : s.seq = .idle) (hm : Memory.wf s.mem = true)
    (he : s.err = true ↔ s.errcode ≠ .none) (hl : s.err = true → s.outLen = 0) (ho : s.dstOpen = false) : Inv s where
  memCanonical := hm
  errMatches := he
  errNoLength := hl
  idleClosed _ := ho
  openFlagged h := absurd h (by simp [ho])
  running h := absurd hi h

/-- A completion is idle with ERR as its code says (rule R92), so only memory is left to check. -/
theorem inv_complete {cmd : Option Instr} {code : ErrCode} {s : State}
    (hm : Memory.wf (complete cmd code s).mem = true) : Inv (complete cmd code s) := by
  refine inv_of_idle (complete_seq ..) hm (by simp) (fun he => ?_) (complete_dstOpen ..)
  rw [complete_err, decide_eq_true_iff] at he
  rw [complete_outLen, if_neg he]

/-- What `RunningInv` does not speak of: the host's side, CHAIN, LASTBLK, ERRCODE, memory, FAULT and open data. -/
def SameRunning (s t : State) : Prop :=
  t = { s with
    irqEn := t.irqEn, wign := t.wign, errcode := t.errcode, chain := t.chain, lastBlk := t.lastBlk, mem := t.mem,
    faultSet := t.faultSet, dstOpen := t.dstOpen, draws := t.draws, hostProg := t.hostProg, sched := t.sched,
    obs := t.obs }

theorem RunningInv.congr {s t : State} (h : RunningInv s) (hc : SameRunning s t) : RunningInv t := by
  rw [hc]
  exact ⟨h.noOutcome, h.present, h.context, h.alignedLen, h.ivThere, h.srcInside, h.dstInside, h.lengthFits, h.index,
    h.indexShown⟩

/-- The invariant speaks of nothing on the host's side. -/
theorem Inv.sameCommand {s t : State} (h : Inv s) (hc : SameCommand s t) : Inv t := by
  obtain ⟨irqEn, wign, draws, hostProg, sched, obs, rfl⟩ := hc.exists_eq
  exact ⟨h.memCanonical, h.errMatches, h.errNoLength, h.idleClosed, h.openFlagged, fun hb => (h.running hb).congr rfl⟩

/-- The DST region of a running command is inside the address space; it is empty when the command writes no memory. -/
theorem RunningInv.dst_inside {s : State} (h : RunningInv s) : s.dstAddr.toNat + dstLen s ≤ addrSpace := by
  cases hw : (derive s.opc s.len.toNat).writesDst with
  | true => exact h.dstInside hw
  | false =>
    have hn : s.nblk = 0 := h.context.1.trans (derive_nblk_of_not_writesDst hw)
    have hd : dstLen s = 0 := by simp [dstLen, hn]
    rw [hd]
    exact s.dstAddr.isLt.le

/-- A running command may complete in any way. -/
theorem Inv.complete {s : State} (h : Inv s) (hb : s.seq ≠ .idle) (cmd : Option Instr) (code : ErrCode) :
    Inv (complete cmd code s) :=
  inv_complete (complete_wf h.memCanonical (h.running hb).dst_inside)

/-! ### Acceptance -/

/-- A rejection leaves memory as it was (rules R82, R84 to R86). -/
theorem inv_complete_closed {cmd : Option Instr} {code : ErrCode} {s : State} (hc : code ≠ .busError)
    (hd : s.dstOpen = false) (hm : Memory.wf s.mem = true) : Inv (complete cmd code s) := by
  apply inv_complete
  rw [complete_closed hc hd]
  exact hm

theorem inv_acceptIllegal {s : State} (hm : Memory.wf s.mem = true) : Inv (acceptIllegal s) :=
  inv_complete_closed (by decide) (clearOutcome_dstOpen s) hm

/-- A command that passed its checks starts as a running command (rules R83, R87). -/
theorem inv_start {i : Instr} {s : State} (hm : Memory.wf s.mem = true) (hw : i.wellFormed s.params = true)
    (he : acceptError i (derive i s.len.toNat) (clearOutcome s) = .none) :
    Inv (start i (derive i s.len.toNat) (latch i (derive i s.len.toNat) (clearOutcome s))) := by
  obtain ⟨haligned, hiv, hrange⟩ := (acceptError_eq_none ..).1 he
  obtain ⟨hsrc, hdst, hfits⟩ := (rangeOK_iff ..).1 hrange
  refine ⟨hm, by simp, by simp, ?_, fun ho => ?_, fun _ => ?_⟩
  · rw [start_seq]
    split <;> simp
  · rw [start_dstOpen] at ho
    simp [ho, FaultSet.empty]
  · refine ⟨⟨rfl, rfl, rfl⟩, hw, ⟨rfl, rfl⟩, haligned, hiv, hsrc, hdst, hfits, ?_, rfl⟩
    by_cases hn : 0 < (derive i s.len.toNat).nblk
    · simp [hn]
    · simp [hn]
      omega

/-- Acceptance reaches the invariant from any state with canonical memory. -/
theorem inv_accept {s : State} (i : Instr) (hm : Memory.wf s.mem = true) : Inv (accept i s) := by
  rcases accept_cases i s with ⟨_, h⟩ | ⟨hw, ⟨_, h⟩ | ⟨he, h⟩⟩ <;> rw [h]
  · exact inv_acceptIllegal hm
  · exact inv_complete_closed (acceptError_ne_busError i _ _) rfl hm
  · exact inv_start hm hw he

/-! ### The engine's steps -/

theorem sameCommand_afterRead (n : Nat) (s : State) : SameCommand s (afterRead n s) := by
  unfold afterRead
  split <;> rfl

/-- The state a block step's completion starts from differs in CHAIN and the draws only. -/
theorem Inv.afterRead {s : State} (h : Inv s) (r : Reg128) (n : Nat) : Inv (withChain r (afterRead n s)) := by
  have h' := h.sameCommand (sameCommand_afterRead n s)
  exact ⟨h'.memCanonical, h'.errMatches, h'.errNoLength, h'.idleClosed, h'.openFlagged,
    fun hb => (h'.running hb).congr rfl⟩

/-- A block written leaves the command running, one block further (rule R88). -/
theorem Inv.afterBlock {s : State} {f : BlockFn} (h : Inv s) (hs : s.seq = .run)
    (hw : accessStop s.params .write (s.dstAddr.toNat + s.blkI * bs s.opc.cipher) (blockOut s.opc f s).1.length =
      none) : Inv (afterBlock s.opc f s) := by
  have r := h.running (by simp [hs])
  have hlt := r.index.1 hs
  have h' := h.afterRead (blockOut s.opc f s).2 (inSpan s.opc s).2
  have r' := h'.running (by simp [hs])
  have hseq : (Machine.afterBlock s.opc f s).seq = if s.blkI + 1 = s.nblk then .finish else .run := by
    simp [Machine.afterBlock]
  refine ⟨wf_writeBytes _ h.memCanonical (accessStop_eq_none.1 hw).1, h'.errMatches, h'.errNoLength, ?_, h'.openFlagged,
    fun _ => ⟨r'.noOutcome, r'.present, r'.context, r'.alignedLen, r'.ivThere, r'.srcInside, r'.dstInside,
      r'.lengthFits, ?_, by simp [Machine.afterBlock]⟩⟩
  · rw [hseq]
    split <;> simp
  · rw [hseq]
    by_cases hn : s.blkI + 1 = s.nblk
    · simp [hn, Machine.afterBlock]
    · simp [hn, Machine.afterBlock]
      omega

/-- A block step keeps the invariant: it goes on, or ends with BusError (rules R88, R149). -/
theorem Inv.blockStep {s t : State} {f : BlockFn} (h : Inv s) (hs : s.seq = .run)
    (ht : blockStep s.opc f s = .next t) : Inv t := by
  have hb : s.seq ≠ .idle := by simp [hs]
  rcases blockStep_cases s.opc f s with ⟨hc, _⟩ | hc | hc | ⟨hc, _, hw⟩ <;> rw [hc] at ht <;> cases ht
  · exact h.complete hb _ _
  · exact (h.afterRead _ _).complete (by simp [hs]) _ _
  · exact h.afterBlock hs hw

/-- The engine's step keeps the invariant (rules R88, R90). -/
theorem Inv.exec {s t : State} (h : Inv s) (hb : s.seq ≠ .idle) (ht : exec s.opc s = .next t) : Inv t := by
  rcases exec_cases ht with ⟨hi, _⟩ | ⟨f, _, hs, hstep⟩ | ⟨_, code, s', rfl, hf⟩
  · exact absurd hi hb
  · exact h.blockStep hs hstep
  · have hd : s'.dstAddr.toNat + dstLen s' ≤ addrSpace := by
      rw [hf.same]
      exact (h.running hb).dst_inside
    rw [hf.same] at hd ⊢
    exact inv_complete (complete_wf h.memCanonical hd)

/-! ### The host's transactions -/

/-- A STATUS write clears ERR and ERRCODE together and sets nothing (10_state.md rule R31). -/
theorem Inv.clearStatus {s : State} (h : Inv s) (w : Word) : Inv (clearStatus w s) := by
  refine ⟨h.memCanonical, ?_, fun he => ?_, h.idleClosed, h.openFlagged, fun hb => ?_⟩
  · rw [clearStatus_err, clearStatus_errcode]
    cases w.getLsbD 2 <;> simp [h.errMatches]
  · exact h.errNoLength (Bool.and_elim_left he)
  · have r := h.running hb
    obtain ⟨hdone, herr, hlen⟩ := r.noOutcome
    exact ⟨⟨by simp [hdone], by simp [herr], hlen⟩, r.present, r.context, r.alignedLen, r.ivThere, r.srcInside,
      r.dstInside, r.lengthFits, r.index, r.indexShown⟩

/-- While idle, the invariant does not speak of the busy-locked registers. -/
theorem Inv.busyLocked_congr {s t : State} (h : Inv s) (hi : s.seq = .idle)
    (hc : t = { s with
      srcAddr := t.srcAddr, dstAddr := t.dstAddr, len := t.len, key := t.key, iv := t.iv, ivWr := t.ivWr }) :
    Inv t := by
  rw [hc]
  exact inv_of_idle hi h.memCanonical h.errMatches h.errNoLength (h.idleClosed hi)

/-- A register write that is not ignored: the busy-locked registers are written while idle only (rule R41). -/
theorem Inv.storeReg {s : State} (h : Inv s) {r : Reg} (hr : busyLocked r = true → s.seq = .idle) (w : Word) :
    Inv (storeReg r w s) := by
  cases r with
  | status => exact h.clearStatus w
  | ctrl => exact h.sameCommand rfl
  | srcAddr | dstAddr | len | key | iv => exact h.busyLocked_congr (hr rfl) rfl
  | _ => exact h

theorem Inv.cmdWrite {s t : State} (h : Inv s) (hi : s.seq = .idle) {w : Word} (ht : cmdWrite w s = .next t) :
    Inv t := by
  rcases cmdWrite_idle hi (w := w) with ⟨i, _, hc⟩ | ⟨_, hc⟩ <;> rw [hc] at ht <;> cases ht
  · exact inv_accept i h.memCanonical
  · exact inv_acceptIllegal h.memCanonical

theorem Inv.regWrite {s t : State} (h : Inv s) {off : BitVec 8} {size : BusSize} {w : Word}
    (ht : regWrite off size w s = .next t) : Inv t := by
  have hack : Inv (respond .ack s) := h.sameCommand rfl
  rcases regWrite_cases off size w s with hc | ⟨_, hc⟩ | ⟨hi, hc⟩ | ⟨r, _, hl, hc⟩ <;> rw [hc] at ht
  · cases ht; exact h.sameCommand rfl
  · cases ht; exact h.sameCommand rfl
  · exact hack.cmdWrite hi ht
  · cases ht; exact hack.storeReg hl w

/-- A hazard is flagged; data may be open once it is (20_memory.md rule R61). -/
theorem Inv.hostHazard {s : State} (h : Inv s) (hb : s.seq ≠ .idle) (o : Bool) :
    Inv { hostHazard s with dstOpen := o } :=
  ⟨h.memCanonical, h.errMatches, h.errNoLength, fun hi => absurd hi hb, fun _ => by simp [FaultSet.empty],
    fun _ => (h.running hb).congr rfl⟩

theorem Inv.withMem {s : State} (h : Inv s) {m : Memory} (hm : Memory.wf m = true) : Inv (withMem m s) :=
  ⟨hm, h.errMatches, h.errNoLength, h.idleClosed, h.openFlagged, fun hb => (h.running hb).congr rfl⟩

theorem Inv.hostMemWrite {s : State} (h : Inv s) (a : Word) (b : Byte) : Inv (hostMemWrite a b s) := by
  have hack : Inv (respond .ack s) := h.sameCommand rfl
  have hm := hack.withMem (wf_write b h.memCanonical a.isLt)
  unfold Machine.hostMemWrite
  simp only
  split
  · next hc => exact hm.hostHazard (busy_eq_true.1 (Bool.and_elim_left hc)) true
  · exact hm

theorem Inv.hostMemRead {s : State} (h : Inv s) (a : Word) : Inv (hostMemRead a s) := by
  unfold Machine.hostMemRead
  split
  · next hc =>
    have hd : Inv (respond (.byte ((drawn s 1).getD 0 0)) (drew 1 s)) := h.sameCommand rfl
    exact hd.hostHazard (busy_eq_true.1 (Bool.and_elim_left hc)) _
  · exact h.sameCommand rfl

theorem Inv.hostOp {s t : State} (h : Inv s) {op : HostOp} (ht : hostOp op s = .next t) : Inv t := by
  rcases hostOp_cases op s with ⟨off, size, w, hc⟩ | ⟨a, b, hc⟩ | ⟨a, hc⟩ | ⟨r, n, p, hc⟩ <;> rw [hc] at ht
  · exact h.regWrite ht
  · cases ht; exact h.hostMemWrite a b
  · cases ht; exact h.hostMemRead a
  · cases ht; exact h.sameCommand rfl

/-! ### Reset and every step -/

/-- Reset frees at most the DST region of a running command (70_reset_and_hazards.md rule R167). -/
theorem Inv.assertReset {s : State} (h : Inv s) : Inv (assertReset s) := by
  have herr : (Machine.assertReset s).err = false := rfl
  have hcode : (Machine.assertReset s).errcode = .none := rfl
  refine inv_of_idle rfl ?_ (by simp [herr, hcode]) (by simp [herr]) rfl
  unfold Machine.assertReset
  simp only
  split
  · next hb => exact freeDst_wf h.memCanonical (h.running (busy_eq_true.1 hb)).dst_inside
  · exact h.memCanonical

theorem Inv.turn {s t : State} (h : Inv s) {a : Agent} (ht : turn a s = .next t) : Inv t := by
  rcases turn_cases a s with hc | ⟨op, rest, _, hc⟩ | ⟨hb, hc⟩ | hc <;> rw [hc] at ht
  · cases ht; exact h
  · have hr : Inv { s with hostProg := rest } := h.sameCommand rfl
    exact hr.hostOp ht
  · exact h.exec hb ht
  · cases ht; exact h.assertReset

theorem Inv.step {s t : State} (h : Inv s) (ht : step s = .next t) : Inv t := by
  rcases step_cases s with ⟨_, hc⟩ | ⟨a, rest, _, hc⟩ <;> rw [hc] at ht
  · exact h.turn ht
  · have hr : Inv { s with sched := rest } := h.sameCommand rfl
    exact hr.turn ht

theorem inv_reset : Inv State.reset :=
  inv_of_idle rfl reset_memory_wf (by decide) (by decide) rfl

end Sys2Proof.Machine

section
open Sys2Proof Sys2Proof.Machine

/-- Settles O7: the reset block is idle, closed, and shows no error. -/
theorem resetMeetsInvariant : Obligations.ResetMeetsInvariant := inv_reset

/-- Settles O8: each agent's turn keeps the invariant, by what a turn can do. -/
theorem stepKeepsInvariant : Obligations.StepKeepsInvariant := fun _ _ h ht => h.step ht

end

/-! ## Frames of every command, and FAULT (10_state.md rules R39 to R41, R48; 42_ecb.md rule R126) -/

namespace Sys2Proof.Machine

theorem SameSetup.trans {s t u : State} (h : SameSetup s t) (k : SameSetup t u) : SameSetup s u := by
  obtain ⟨h1, h2, h3, h4, h5, h6, h7, h8, h9, h10⟩ := h
  obtain ⟨k1, k2, k3, k4, k5, k6, k7, k8, k9, k10⟩ := k
  exact ⟨k1.trans h1, k2.trans h2, k3.trans h3, k4.trans h4, k5.trans h5, k6.trans h6, k7.trans h7, k8.trans h8,
    k9.trans h9, k10.trans h10⟩

theorem sameSetup_complete (cmd : Option Instr) (code : ErrCode) (s : State) : SameSetup s (complete cmd code s) := by
  simp [SameSetup]

/-- IV_WR after the completion of a command other than CBC (rule R92). -/
theorem ivWrAfter_of_not_cbc {i : Instr} (h : i.isCbc = false) (v : BitVec 4) : ivWrAfter (some i) v = v := by
  simp [ivWrAfter, h]

/-- The block functions of PAD and ECB leave CHAIN (42_ecb.md rule R126). -/
theorem blockFn_chain {i : Instr} {f : BlockFn} (hf : blockFn i = some f) (hc : i.isCbc = false) (key chain : Reg128)
    (x : List Byte) : (f key chain x).2 = chain := by
  cases i with
  | nop | unpad | genIv => cases hf
  | cbcEnc | cbcDec => cases hc
  | pad | ecbEnc | ecbDec => cases hf; rfl

/-- What a transition of command `i` leaves of the registers (10_state.md rules R39 to R41) and of FAULT (rule R48). -/
structure RegistersKept (i : Instr) (s t : State) : Prop where
  setup : SameSetup s t
  iv : i.isGenIv = false → t.iv = s.iv
  ivWr : i.isGenIv = false → i.isCbc = false → t.ivWr = s.ivWr
  chain : i.isCbc = false → t.errcode ≠ .busError → t.chain = s.chain
  hazard : t.faultSet.hostBufferHazard = s.faultSet.hostBufferHazard
  overlap : s.faultSet.partialOverlap = true → t.faultSet.partialOverlap = true

/-- A completion keeps what held of the state it completes. -/
theorem RegistersKept.complete {i : Instr} {s t : State} (h : RegistersKept i s t) {code : ErrCode}
    (hc : code ≠ .busError → i.isCbc = false → t.chain = s.chain) : RegistersKept i s (complete (some i) code t) where
  setup := h.setup.trans (sameSetup_complete ..)
  iv hg := (complete_iv ..).trans (h.iv hg)
  ivWr hg hn := by rw [complete_ivWr, ivWrAfter_of_not_cbc hn, h.ivWr hg hn]
  chain hn he := by
    rw [complete_errcode] at he
    rw [(complete_progress he).1, hc he hn]
  hazard := by rw [complete_faultSet, h.hazard]
  overlap ho := by rw [complete_faultSet, h.overlap ho]

theorem registersKept_refl (i : Instr) (s : State) : RegistersKept i s s :=
  ⟨⟨rfl, rfl, rfl, rfl, rfl, rfl, rfl, rfl, rfl, rfl⟩, fun _ => rfl, fun _ _ => rfl, fun _ _ => rfl, rfl, id⟩

/-- Clearing the old outcome and latching the context touch none of these registers (rules R44, R81). -/
theorem registersKept_latch (i : Instr) (d : Derived) (s : State) : RegistersKept i s (latch i d (clearOutcome s)) :=
  ⟨⟨rfl, rfl, rfl, rfl, rfl, rfl, rfl, rfl, rfl, rfl⟩, fun _ => rfl, fun _ _ => rfl, fun _ _ => rfl, rfl, id⟩

theorem registersKept_start (i : Instr) (d : Derived) (s : State) :
    RegistersKept i s (start i d (latch i d (clearOutcome s))) where
  setup := ⟨rfl, rfl, rfl, rfl, rfl, rfl, rfl, rfl, rfl, rfl⟩
  iv _ := rfl
  ivWr _ _ := rfl
  chain hn _ := by simp [chainAtStart, hn]
  hazard := rfl
  overlap ho := by simp [ho]

/-- Acceptance (rules R80 to R87). -/
theorem registersKept_accept (i : Instr) (s : State) : RegistersKept i s (accept i s) := by
  rcases accept_cases i s with ⟨_, h⟩ | ⟨_, ⟨_, h⟩ | ⟨_, h⟩⟩ <;> rw [h]
  · rw [acceptIllegal_eq]
    exact ⟨⟨rfl, rfl, rfl, rfl, rfl, rfl, rfl, rfl, rfl, rfl⟩, fun _ => rfl, fun _ _ => rfl, fun _ _ => rfl, rfl, id⟩
  · exact (registersKept_latch i _ s).complete fun _ _ => rfl
  · exact registersKept_start i _ s

/-- The engine's read, and the next CHAIN of a block step. -/
theorem registersKept_afterRead {i : Instr} {f : BlockFn} (hf : blockFn i = some f) (s : State) :
    RegistersKept i s (withChain (blockOut i f s).2 (afterRead (inSpan i s).2 s)) where
  setup := by simp [SameSetup]
  iv _ := by simp
  ivWr _ _ := by simp
  chain hn _ := blockFn_chain hf hn _ _ _
  hazard := by simp
  overlap ho := by simpa using ho

/-- A block step (rule R88). -/
theorem registersKept_blockStep {i : Instr} {f : BlockFn} (hf : blockFn i = some f) {s t : State}
    (ht : blockStep i f s = .next t) : RegistersKept i s t := by
  have hr := registersKept_afterRead hf s
  rcases blockStep_cases i f s with ⟨hc, _⟩ | hc | hc | ⟨hc, _⟩ <;> rw [hc] at ht <;> cases ht
  · exact (registersKept_refl i s).complete fun _ _ => rfl
  · exact hr.complete fun h => absurd rfl h
  · exact ⟨hr.setup, hr.iv, hr.ivWr, hr.chain, hr.hazard, hr.overlap⟩

/-- What a finish step hands to its completion. -/
theorem FinishFrom.registersKept {i : Instr} {s s' : State} (h : FinishFrom i s s') : RegistersKept i s s' := by
  have hsame := h.same
  refine ⟨?_, fun hg => (h.ivKept hg).1, fun hg _ => (h.ivKept hg).2, ?_, ?_, ?_⟩ <;> rw [hsame]
  · exact ⟨rfl, rfl, rfl, rfl, rfl, rfl, rfl, rfl, rfl, rfl⟩
  · exact fun _ _ => rfl
  · exact id

theorem registersKept_exec {i : Instr} {s t : State} (h : exec i s = .next t) : RegistersKept i s t := by
  rcases exec_cases h with ⟨_, rfl⟩ | ⟨f, hf, _, hstep⟩ | ⟨_, code, s', rfl, hfin⟩
  · exact registersKept_accept i s
  · exact registersKept_blockStep hf hstep
  · obtain ⟨_, _, hchain, _⟩ := hfin.kept
    exact hfin.registersKept.complete fun _ _ => hchain

/-! ### FAULT -/

/-- Every reason in `f` is in `g`. -/
def FaultSet.Within (f g : FaultSet) : Prop :=
  (f.hostBufferHazard = true → g.hostBufferHazard = true) ∧ (f.partialOverlap = true → g.partialOverlap = true)

theorem faultSet_within_of_eq {f g : FaultSet} (h : g = f) : f.Within g := h ▸ ⟨id, id⟩

theorem faultSet_within_hazard (f : FaultSet) : f.Within { f with hostBufferHazard := true } := ⟨fun _ => rfl, id⟩

theorem exec_faultSet {i : Instr} {s t : State} (h : exec i s = .next t) : s.faultSet.Within t.faultSet :=
  have hk := registersKept_exec h
  ⟨fun hh => hk.hazard.trans hh, hk.overlap⟩

@[simp] theorem storeReg_faultSet (r : Reg) (w : Word) (s : State) : (storeReg r w s).faultSet = s.faultSet := by
  cases r <;> rfl

theorem regWrite_faultSet {off : BitVec 8} {size : BusSize} {w : Word} {s t : State}
    (h : regWrite off size w s = .next t) : s.faultSet.Within t.faultSet := by
  rcases regWrite_cases off size w s with hc | ⟨_, hc⟩ | ⟨hi, hc⟩ | ⟨r, _, _, hc⟩ <;> rw [hc] at h
  · cases h; exact faultSet_within_of_eq rfl
  · cases h; exact faultSet_within_of_eq rfl
  · rcases cmdWrite_idle (s := respond .ack s) hi (w := w) with ⟨i, _, hw⟩ | ⟨_, hw⟩ <;> rw [hw] at h
    · exact (exec_faultSet ((exec_idle (s := respond .ack s) i hi).trans h) :)
    · cases h; exact faultSet_within_of_eq rfl
  · cases h; exact faultSet_within_of_eq (by simp)

theorem hostMemWrite_faultSet (a : Word) (b : Byte) (s : State) : s.faultSet.Within (hostMemWrite a b s).faultSet := by
  unfold hostMemWrite
  simp only
  split
  · exact faultSet_within_hazard _
  · exact faultSet_within_of_eq rfl

theorem hostMemRead_faultSet (a : Word) (s : State) : s.faultSet.Within (hostMemRead a s).faultSet := by
  unfold hostMemRead
  split
  · exact faultSet_within_hazard _
  · exact faultSet_within_of_eq rfl

theorem hostOp_faultSet {op : HostOp} {s t : State} (h : hostOp op s = .next t) : s.faultSet.Within t.faultSet := by
  rcases hostOp_cases op s with ⟨off, size, w, hc⟩ | ⟨a, b, hc⟩ | ⟨a, hc⟩ | ⟨r, n, p, hc⟩ <;> rw [hc] at h
  · exact regWrite_faultSet h
  · cases h; exact hostMemWrite_faultSet a b s
  · cases h; exact hostMemRead_faultSet a s
  · cases h; exact faultSet_within_of_eq rfl

@[simp] theorem assertReset_faultSet (s : State) : (assertReset s).faultSet = s.faultSet := by
  unfold assertReset
  simp only
  split <;> rfl

theorem turn_faultSet {a : Agent} {s t : State} (h : turn a s = .next t) : s.faultSet.Within t.faultSet := by
  rcases turn_cases a s with hc | ⟨op, rest, _, hc⟩ | ⟨_, hc⟩ | hc <;> rw [hc] at h
  · cases h; exact faultSet_within_of_eq rfl
  · exact (hostOp_faultSet h :)
  · exact exec_faultSet h
  · cases h; exact faultSet_within_of_eq (assertReset_faultSet s)

theorem step_faultSet {s t : State} (h : step s = .next t) : s.faultSet.Within t.faultSet := by
  rcases step_cases s with ⟨_, hc⟩ | ⟨a, rest, _, hc⟩ <;> rw [hc] at h
  · exact turn_faultSet h
  · exact (turn_faultSet h :)

/-! ### Reset -/

theorem assertReset_mem (s : State) : (assertReset s).mem = if s.busy then (freeDst s).mem else s.mem := by
  unfold assertReset
  simp only
  split <;> rfl

/-- Reset changes no byte outside the DST region (70_reset_and_hazards.md rule R167). -/
theorem sameOutside_assertReset (s : State) : SameOutside s (assertReset s) s.dstAddr.toNat (dstLen s) := by
  intro x hx
  rw [assertReset_mem]
  split
  · exact freeDst_read hx
  · rfl

/-- The DST region of a running command, once freed, holds the next draws (rules R57, R167). -/
theorem readBytes_freeDst {s : State} (hm : Memory.wf s.mem = true) (hd : s.dstAddr.toNat + dstLen s ≤ addrSpace) :
    Memory.readBytes (freeDst s).mem s.dstAddr.toNat (dstLen s) = drawn s (dstLen s) := by
  have hlen : (drawn s (dstLen s)).length = dstLen s := drawn_length ..
  have h := readBytes_writeBytes (l := drawn s (dstLen s)) hm (by rwa [hlen])
  rwa [hlen, ← freeDst_mem] at h

theorem statusWord_assertReset (s : State) : statusWord (assertReset s) = 0 :=
  have hreset : statusWord State.reset = 0 := by decide
  hreset

theorem step_reset {s : State} {turns : List Agent} (h : s.sched = .reset :: turns) :
    step s = .next (assertReset { s with sched := turns }) := by
  rw [step, h]
  rfl

end Sys2Proof.Machine

section
open Sys2Proof Sys2Proof.Machine

/-- Settles O42: by what one transition of a command can do. -/
theorem execKeepsTheOtherRegisters : Obligations.ExecKeepsTheOtherRegisters := by
  intro i s t h
  have hk := registersKept_exec h
  exact ⟨hk.setup, hk.iv, hk.ivWr, hk.chain, hk.hazard⟩

/-- Settles O10: acceptance adds PartialOverlap, a host access HostBufferHazard, and nothing takes a reason away. -/
theorem faultSetIsSticky : Obligations.FaultSetIsSticky := fun _ _ h => step_faultSet h

/-- Settles O60: the registers are those of the reset state; memory changes by `freeDst` only, and only while BUSY. -/
theorem resetSetsEveryRegister : Obligations.ResetSetsEveryRegister := by
  intro s turns h
  have hp : (assertReset { s with sched := turns }).params = s.params := assertReset_params _
  have hmem := assertReset_mem { s with sched := turns }
  refine ⟨_, step_reset h, rfl, rfl, statusWord_assertReset _, rfl, rfl, rfl, rfl, rfl, rfl, rfl, rfl, rfl, rfl,
    assertReset_faultSet _, hp, rfl, rfl, congrArg capsWord hp, fun hi => ?_,
    sameOutside_assertReset { s with sched := turns }, fun hinv hb => ?_⟩
  · rw [hmem, if_neg (by simp [State.busy, hi])]
  · rw [hmem, if_pos (by simp [State.busy, hb])]
    exact readBytes_freeDst (s := { s with sched := turns }) hinv.memCanonical (hinv.running hb).dst_inside

end

/-! ## The register bus (10_state.md rules R17 to R42) -/

namespace Sys2Proof.Machine

/-! ### Word accesses -/

theorem target_of_not_word {off : BitVec 8} {size : BusSize} (h : size ≠ .b4 ∨ off.toNat % 4 ≠ 0) :
    target off size = none := if_neg (by tauto)

theorem hostOp_regWr {off : BitVec 8} {r : Reg} (h : target off .b4 = some r) (w : Word) (s : State) :
    hostOp (.regWr off .b4 w) s = writeReg r w (respond .ack s) := by simp only [hostOp, regWrite, h]

theorem hostOp_regRd {off : BitVec 8} {r : Reg} (h : target off .b4 = some r) (s : State) :
    hostOp (.regRd off .b4) s = .next (readReg r s) := by simp only [hostOp, regRead, h]

theorem readReg_stored {r : Reg} {s : State} (h : openRead s r = false) :
    readReg r s = respond (.data (regValue s r)) s := by simp [readReg, h]

theorem readReg_open {r : Reg} {s : State} (h : openRead s r = true) :
    readReg r s = respond (.data (wordOfBytes (drawn s 4) 0)) (drew 4 s) := by simp [readReg, h]

/-- A word read of a register that rule R42 does not leave open. -/
theorem hostOp_regRd_stored {off : BitVec 8} (r : Reg) (ht : target off .b4 = some r) {s : State}
    (ho : openRead s r = false) : hostOp (.regRd off .b4) s = .next (respond (.data (regValue s r)) s) := by
  rw [hostOp_regRd ht, readReg_stored ho]

/-- A word read of a register that rule R42 leaves open. -/
theorem hostOp_regRd_open {off : BitVec 8} (r : Reg) (ht : target off .b4 = some r) {s : State}
    (ho : openRead s r = true) :
    hostOp (.regRd off .b4) s =
      .next (respond (.data (wordOfBytes (drawn s 4) 0)) { s with draws := s.draws + 4 }) := by
  rw [hostOp_regRd ht, readReg_open ho]
  rfl

/-- A word write that is not ignored (rule R41), to a register other than CMD. -/
theorem hostOp_regWr_stored {off : BitVec 8} (r : Reg) (ht : target off .b4 = some r) (hc : r ≠ .cmd) {s : State}
    (hl : busyLocked r = false ∨ s.seq = .idle) (w : Word) :
    hostOp (.regWr off .b4 w) s = .next (storeReg r w (respond .ack s)) := by
  have hb : ¬(busyLocked r && (respond .ack s).busy) = true := by
    rcases hl with hl | hl <;> simp [hl, State.busy]
  rw [hostOp_regWr ht, writeReg, if_neg hb, if_neg hc]

/-- A word write of a busy-locked register while BUSY (rule R41). -/
theorem hostOp_regWr_locked {off : BitVec 8} (r : Reg) (ht : target off .b4 = some r) (hl : busyLocked r = true)
    {s : State} (hb : s.seq ≠ .idle) (w : Word) :
    hostOp (.regWr off .b4 w) s = .next { respond .ack s with wign := true } := by
  have hb' : (busyLocked r && (respond .ack s).busy) = true := by simp [hl, hb]
  rw [hostOp_regWr ht, writeReg, if_pos hb']
  rfl

/-- A write of a command's word to CMD of the idle block runs that command (rules R24, R80). -/
theorem hostOp_regWr_cmd {s : State} (h : s.seq = .idle) {w : Word} {i : Instr} (hd : decode w = .ok i) :
    hostOp (.regWr 0x10#8 .b4 w) s = exec i (respond .ack s) := by
  have hb : ¬(busyLocked .cmd && (respond .ack s).busy) = true := by simp [State.busy, h]
  rw [hostOp_regWr (r := .cmd) rfl, writeReg, if_neg hb, if_pos rfl, cmdWrite, hd]

/-- The host's turn while idle, named by the schedule, or by log entry 7 when it is empty. -/
theorem step_host_idle {s : State} {later : List Agent} (h : (s.sched = [] ∧ later = []) ∨ s.sched = .host :: later)
    (hi : s.seq = .idle) : step s = hostTurn { s with sched := later } := by
  rcases h with ⟨h, rfl⟩ | h
  · have hs : s = { s with sched := [] } := by rw [← h]
    rw [← hs]
    simp [step, h, idleAgent, State.busy, hi, turn]
  · exact step_host h

/-! ### The registers of the map -/

theorem target_key (k : Fin 4) : target (BitVec.ofNat 8 (0x30 + 4 * k.val)) .b4 = some (.key k) := by
  revert k; decide

theorem target_iv (k : Fin 4) : target (BitVec.ofNat 8 (0x40 + 4 * k.val)) .b4 = some (.iv k) := by
  revert k; decide

theorem target_chain (k : Fin 4) : target (BitVec.ofNat 8 (0x50 + 4 * k.val)) .b4 = some (.chain k) := by
  revert k; decide

/-- The read-only registers (rule R19). -/
def readOnly : Reg → Bool
  | .id => true
  | .version => true
  | .caps => true
  | .outLen => true
  | .blkIdx => true
  | .chain _ => true
  | _ => false

theorem target_readOnly : ∀ off ∈ [0x00#8, 0x04#8, 0x08#8, 0x24#8, 0x28#8, 0x50#8, 0x54#8, 0x58#8, 0x5C#8],
    (target off .b4).any readOnly = true := by decide

theorem busyLocked_of_readOnly {r : Reg} (h : readOnly r = true) : busyLocked r = false := by
  cases r with
  | id | version | caps | outLen | blkIdx | chain => rfl
  | _ => cases h

theorem storeReg_of_readOnly {r : Reg} (h : readOnly r = true) (w : Word) (s : State) : storeReg r w s = s := by
  cases r with
  | id | version | caps | outLen | blkIdx | chain => rfl
  | _ => cases h

/-- A write of a read-only register has no effect, idle or busy (rule R19). -/
theorem hostOp_regWr_readOnly {off : BitVec 8} (h : (target off .b4).any readOnly = true) (w : Word) (s : State) :
    hostOp (.regWr off .b4 w) s = .next (respond .ack s) := by
  obtain ⟨r, ht, hr⟩ := (Option.any_eq_true ..).1 h
  have hc : r ≠ .cmd := by rintro rfl; cases hr
  rw [hostOp_regWr_stored r ht hc (Or.inl (busyLocked_of_readOnly hr)), storeReg_of_readOnly hr]

/-- CMD and the KEY words, which read 0 (rules R24, R38). -/
theorem target_cmd_or_key : ∀ off ∈ [0x10#8, 0x30#8, 0x34#8, 0x38#8, 0x3C#8],
    target off .b4 = some .cmd ∨ ∃ k : Fin 4, target off .b4 = some (.key k) := by decide

/-- The reserved offsets (rule R37). -/
theorem target_reserved {off : BitVec 8} (ha : off.toNat % 4 = 0) (h : off = 0x2C#8 ∨ 0x60 ≤ off.toNat) :
    target off .b4 = some .reserved := by
  rcases h with rfl | h
  · rfl
  · rw [target_word ha]
    obtain ⟨n, hn⟩ := Nat.exists_eq_add_of_le (show 24 ≤ off.toNat / 4 by omega)
    rw [hn, Nat.add_comm]
    rfl

/-- The offsets of the busy-locked registers (rules R19, R41). -/
def lockedOffsets : List (BitVec 8) :=
  [0x10#8, 0x18#8, 0x1C#8, 0x20#8, 0x30#8, 0x34#8, 0x38#8, 0x3C#8, 0x40#8, 0x44#8, 0x48#8, 0x4C#8]

theorem busyLocked_regAtWord (n : Fin 64) :
    busyLocked (regAtWord n.val) = true ↔ BitVec.ofNat 8 (4 * n.val) ∈ lockedOffsets := by
  revert n; decide

theorem busyLocked_at {off : BitVec 8} (ha : off.toNat % 4 = 0) :
    busyLocked (regAtWord (off.toNat / 4)) = true ↔ off ∈ lockedOffsets := by
  have hoff : BitVec.ofNat 8 (4 * (off.toNat / 4)) = off := by
    rw [Nat.mul_div_cancel' (Nat.dvd_of_mod_eq_zero ha), BitVec.ofNat_toNat, BitVec.setWidth_eq]
  have h := busyLocked_regAtWord ⟨off.toNat / 4, by omega⟩
  rwa [hoff] at h

/-- Only an ignored write sets WIGN (rule R31). -/
theorem wign_of_storeReg {r : Reg} {w : Word} {s : State} (h : (storeReg r w s).wign = true) : s.wign = true := by
  cases r with
  | status => exact Bool.and_elim_left h
  | _ => exact h

theorem windowOffset_outside {p : Params} {addr : Word}
    (h : addr.toNat < p.regBase.toNat ∨ p.regBase.toNat + 256 ≤ addr.toNat) : windowOffset p addr = none :=
  if_neg (by omega)

theorem windowOffset_inside {p : Params} {addr : Word} {off : BitVec 8}
    (h : addr.toNat = p.regBase.toNat + off.toNat) : windowOffset p addr = some off := by
  have hlt := off.isLt
  rw [windowOffset, if_pos (by omega), h, Nat.add_sub_cancel_left, BitVec.ofNat_toNat, BitVec.setWidth_eq]

/-! ### Bytes of a block register (20_memory.md rule R52) -/

theorem regWord_setRegWord_self (r : Reg128) (k : Fin 4) (w : Word) : regWord (setRegWord r k w) k = w := by
  fin_cases k <;> rfl

theorem regWord_setRegWord_ne (r : Reg128) {j k : Fin 4} (h : j ≠ k) (w : Word) :
    regWord (setRegWord r k w) j = regWord r j := by
  revert h
  fin_cases k <;> fin_cases j <;> simp [regWord, setRegWord]

/-- Byte `j` of a block register is byte `j mod 4` of its word `j div 4`. -/
theorem getElem?_regBytes (r : Reg128) (j : Fin 16) :
    (regBytes r)[j.val]? = some (wordByte (regWord r ⟨j.val / 4, by omega⟩) (j.val % 4)) := by
  fin_cases j <;> rfl

/-- A write of word `k` replaces bytes `4k` to `4k + 3`. -/
theorem getElem?_regBytes_setRegWord (r : Reg128) (k : Fin 4) (w : Word) {j : Nat} (hj : j < 16) :
    (regBytes (setRegWord r k w))[j]? =
      if j / 4 = k.val then some (w.extractLsb' (8 * (j % 4)) 8) else (regBytes r)[j]? := by
  rw [getElem?_regBytes _ ⟨j, hj⟩, getElem?_regBytes r ⟨j, hj⟩]
  split
  · next h =>
    have hk : (⟨j / 4, by omega⟩ : Fin 4) = k := Fin.ext h
    simp only [hk, regWord_setRegWord_self, wordByte]
  · next h =>
    have hk : (⟨j / 4, by omega⟩ : Fin 4) ≠ k := fun he => h (congrArg Fin.val he)
    simp only [regWord_setRegWord_ne r hk]

theorem ivWrSet_eq (v : BitVec 4) (k : Fin 4) : ivWrSet v k = v ||| BitVec.ofNat 4 (2 ^ k.val) := by
  unfold ivWrSet
  fin_cases k <;> rfl

/-! ### Host accesses to a running command's buffers (20_memory.md rule R61) -/

theorem inDst_iff {s : State} {a : Nat} :
    inDst s a = true ↔ s.dstAddr.toNat ≤ a ∧ a < s.dstAddr.toNat + s.nblk * bs s.opc.cipher := by
  rw [inDst, Bool.and_eq_true, decide_eq_true_iff, decide_eq_true_iff, dstLen]

theorem inSrc_iff {s : State} {a : Nat} :
    inSrc s a = true ↔ s.srcAddr.toNat ≤ a ∧ a < s.srcAddr.toNat + s.len.toNat := by
  simp [inSrc]

theorem hostMemWrite_hazard {s : State} {a : Word} (b : Byte) (hb : s.seq ≠ .idle)
    (h : inSrc s a.toNat = true ∨ inDst s a.toNat = true) :
    hostMemWrite a b s =
      { hostHazard (withMem (Memory.write s.mem a.toNat b) (respond .ack s)) with dstOpen := true } := by
  have hc : (s.busy && (inSrc s a.toNat || inDst s a.toNat)) = true := by simpa [hb] using h
  simp only [hostMemWrite, if_pos hc]

theorem hostMemRead_hazard {s : State} {a : Word} (hb : s.seq ≠ .idle) (h : inDst s a.toNat = true) :
    hostMemRead a s = hostHazard (respond (.byte (Config.draw s.draws)) (drew 1 s)) := by
  have hc : (s.busy && inDst s a.toNat) = true := by simp [hb, h]
  rw [hostMemRead, if_pos hc]
  rfl

/-! ### The words of STATUS, CAPS and CTRL -/

theorem statusWord_flags (s : State) : (statusWord s).getLsbD 0 = s.busy ∧ (statusWord s).getLsbD 1 = s.done ∧
    (statusWord s).getLsbD 2 = s.err ∧ (statusWord s).getLsbD 3 = s.wign := by
  simp only [statusWord, BitVec.getLsbD_append]
  simp

theorem statusWord_fields (s : State) : (statusWord s).extractLsb' 4 4 = errBits s.errcode ∧
    (statusWord s).extractLsb' 8 4 = s.ivWr ∧ (statusWord s).extractLsb' 12 20 = 0 := by
  refine ⟨?_, ?_, ?_⟩ <;> simp (disch := decide) only [statusWord, BitVec.extractLsb'_append_eq_of_le]
  · exact BitVec.extractLsb'_append_eq_right
  · exact BitVec.extractLsb'_append_eq_right
  · rfl

/-- The numbers of the error codes (60_exceptions.md rule R143). -/
theorem errBits_toNat (e : ErrCode) : (errBits e).toNat = (match e with
    | .none => 0
    | .invalidPadding => 1
    | .invalidBlockAlignment => 2
    | .missingIV => 3
    | .illegalCommand => 4
    | .rangeError => 5
    | .busError => 6) := by
  cases e <;> rfl

theorem capsWord_presence (p : Params) : (capsWord p).getLsbD 0 = p.hasC128 ∧ (capsWord p).getLsbD 1 = p.hasC64 ∧
    (capsWord p).getLsbD 2 = p.hasRng := by
  simp only [capsWord, BitVec.getLsbD_append]
  simp

theorem capsWord_constant (p : Params) : (capsWord p).extractLsb' 3 5 = 0 ∧ (capsWord p).extractLsb' 8 8 = 16 ∧
    (capsWord p).extractLsb' 16 8 = 16 ∧ (capsWord p).extractLsb' 24 8 = 0 := by
  unfold capsWord
  cases p.hasRng <;> cases p.hasC64 <;> cases p.hasC128 <;> decide

theorem ctrlWord_eq (s : State) : ctrlWord s = if s.irqEn then 1 else 0 := by
  unfold ctrlWord
  cases s.irqEn <;> rfl

end Sys2Proof.Machine

section
open Sys2Proof Sys2Proof.Machine

/-- Settles O14: there is no register at such an offset, and no offset at such an address. -/
theorem nonWordAccessesChangeNothing : Obligations.NonWordAccessesChangeNothing := by
  refine fun s w addr off size => ⟨fun h => ?_, fun h => ?_⟩
  · have ht := target_of_not_word h
    constructor
    · simp only [hostOp, regWrite, ht]
    · simp only [hostOp, regRead, ht]
  · have ho := windowOffset_outside h
    constructor <;> simp only [hostOp, ho]

/-- Settles O15: the window's offset of the address is the offset. -/
theorem windowAccessesReachTheBlock : Obligations.WindowAccessesReachTheBlock := by
  intro s w addr off size h
  have ho := windowOffset_inside h
  constructor <;> simp only [hostOp, ho]

/-- Settles O17: rule R42 leaves none of the three open, and the written offsets are those of read-only registers. -/
theorem identityRegistersAreConstant : Obligations.IdentityRegistersAreConstant := by
  intro s w
  obtain ⟨h0, h1, h2⟩ := capsWord_presence s.params
  obtain ⟨h3, h8, h16, h24⟩ := capsWord_constant s.params
  refine ⟨hostOp_regRd_stored .id rfl rfl, hostOp_regRd_stored .version rfl rfl,
    ⟨capsWord s.params, hostOp_regRd_stored .caps rfl rfl, h0, h1, h2, ?_, h3, h8, h16, h24, fun hp => ?_⟩,
    fun off hoff => hostOp_regWr_readOnly (target_readOnly off hoff) w s⟩
  · rw [h0, h1]
    exact hasC128_or_hasC64 s.params
  · rw [hp]
    decide

/-- Settles O18: every such offset addresses the reserved register. -/
theorem reservedOffsetsReadZero : Obligations.ReservedOffsetsReadZero := fun s w _ ha h =>
  ⟨hostOp_regRd_stored .reserved (target_reserved ha h) rfl,
    hostOp_regWr_stored .reserved (target_reserved ha h) (by decide) (Or.inl rfl) w⟩

/-- Settles O19: a word offset is one of the twelve exactly when its register is busy-locked. -/
theorem busyLockedWritesAreIgnored : Obligations.BusyLockedWritesAreIgnored := by
  intro s w off hb ha
  have ht := target_word ha
  refine ⟨fun h => hostOp_regWr_locked _ ht ((busyLocked_at ha).2 h) hb w, fun h => ?_⟩
  have hl : busyLocked (regAtWord (off.toNat / 4)) = false :=
    Bool.eq_false_iff.mpr fun hl => h ((busyLocked_at ha).1 hl)
  have hc : regAtWord (off.toNat / 4) ≠ .cmd := fun hc => by rw [hc] at hl; cases hl
  exact ⟨_, hostOp_regWr_stored _ ht hc (Or.inl hl) w, wign_of_storeReg⟩

/-- Settles O20: the reads are of registers rule R42 never leaves open. -/
theorem descriptorsReadBack : Obligations.DescriptorsReadBack := by
  intro s w
  refine ⟨fun hi => ⟨hostOp_regWr_stored .srcAddr rfl (by decide) (Or.inr hi) w,
    hostOp_regWr_stored .dstAddr rfl (by decide) (Or.inr hi) w, hostOp_regWr_stored .len rfl (by decide) (Or.inr hi) w⟩,
    hostOp_regRd_stored .srcAddr rfl rfl, hostOp_regRd_stored .dstAddr rfl rfl, hostOp_regRd_stored .len rfl rfl,
    fun off hoff => ?_⟩
  rcases target_cmd_or_key off hoff with ht | ⟨k, ht⟩
  · exact hostOp_regRd_stored .cmd ht rfl
  · exact hostOp_regRd_stored (.key k) ht rfl

/-- Settles O21: the write replaces one word of the array. -/
theorem keyAndIvWritesReplaceFourBytes : Obligations.KeyAndIvWritesReplaceFourBytes := by
  intro s w k hi
  refine ⟨⟨setRegWord s.key k w, hostOp_regWr_stored _ (target_key k) (by simp) (Or.inr hi) w,
    fun j hj => getElem?_regBytes_setRegWord s.key k w hj, hostOp_regRd_stored _ (target_key k) rfl⟩,
    setRegWord s.iv k w, ?_, fun j hj => getElem?_regBytes_setRegWord s.iv k w hj, ?_⟩
  · rw [hostOp_regWr_stored _ (target_iv k) (by simp) (Or.inr hi), ← ivWrSet_eq]
    rfl
  · have ho : openRead { s with iv := setRegWord s.iv k w } (.iv k) = false := by simp [openRead, State.busy, hi]
    rw [hostOp_regRd_stored _ (target_iv k) ho, regValue, regWord_setRegWord_self]

/-- Settles O23: by the layout of `statusWord`. -/
theorem statusReadShowsTheFields : Obligations.StatusReadShowsTheFields := by
  intro s
  obtain ⟨hbusy, hdone, herr, hwign⟩ := statusWord_flags s
  obtain ⟨hcode, hivWr, hrsvd⟩ := statusWord_fields s
  refine ⟨statusWord s, hostOp_regRd_stored .status rfl rfl, hbusy, hdone, herr, hwign, ?_, hivWr, hrsvd⟩
  rw [hcode]
  exact errBits_toNat s.errcode

/-- Settles O24: a case for each of the three bits that clear. -/
theorem statusWriteClearsByOnes : Obligations.StatusWriteClearsByOnes := by
  intro s w
  rw [hostOp_regWr_stored .status rfl (by decide) (Or.inl rfl)]
  simp only [storeReg, clearStatus, respond]
  cases w.getLsbD 1 <;> cases w.getLsbD 2 <;> cases w.getLsbD 3 <;> simp

/-- Settles O25: CTRL is neither busy-locked nor ever open. -/
theorem ctrlStoresOnlyIrqEnable : Obligations.CtrlStoresOnlyIrqEnable := by
  intro s w
  refine ⟨hostOp_regWr_stored .ctrl rfl (by decide) (Or.inl rfl) w, ?_⟩
  rw [← ctrlWord_eq]
  exact hostOp_regRd_stored .ctrl rfl rfl

/-- Settles O26: `openRead` says which reads are free. -/
theorem readsOfProgressAreFreeWhileBusy : Obligations.ReadsOfProgressAreFreeWhileBusy := by
  intro s k
  refine ⟨fun hb => ?_, fun hi => ?_, hostOp_regRd_stored .outLen rfl rfl⟩
  · have hbusy : s.busy = true := busy_eq_true.2 hb
    exact ⟨hostOp_regRd_open _ (target_chain k) hbusy, hostOp_regRd_open .blkIdx rfl hbusy,
      fun hg => hostOp_regRd_open _ (target_iv k) (by simp [openRead, hbusy, hg]),
      fun hg => hostOp_regRd_stored _ (target_iv k) (by simp [openRead, hg])⟩
  · have hidle : s.busy = false := busy_eq_false.2 hi
    exact ⟨hostOp_regRd_stored _ (target_chain k) hidle, hostOp_regRd_stored .blkIdx rfl hidle,
      hostOp_regRd_stored _ (target_iv k) (by simp [openRead, hidle])⟩

/-- Settles O28: the access is in the region that the hazard test asks for. -/
theorem hostBufferHazardsAreFlagged : Obligations.HostBufferHazardsAreFlagged := by
  intro s a b hb
  refine ⟨fun h => ?_, fun h => ?_⟩
  · exact ⟨_, congrArg Host.Outcome.next (hostMemWrite_hazard b hb (h.imp inSrc_iff.2 inDst_iff.2)), rfl, rfl⟩
  · exact ⟨_, congrArg Host.Outcome.next (hostMemRead_hazard hb (inDst_iff.2 h)), rfl, rfl, rfl⟩

/-- Settles O5: the schedule gives the host its turn, and the idle block takes its CMD write. -/
theorem commandWriteRunsTheDecodedCommand : Obligations.CommandWriteRunsTheDecodedCommand := by
  intro s w i rest turns hi hp hs hd
  calc step s = hostTurn { s with sched := turns } := step_host_idle hs hi
    _ = hostOp (.regWr 0x10#8 .b4 w) { s with hostProg := rest, sched := turns } := hostTurn_cons hp
    _ = exec i (respond .ack { s with hostProg := rest, sched := turns }) :=
      hostOp_regWr_cmd (s := { s with hostProg := rest, sched := turns }) hi hd

end

/-! ## Data memory: overlap, bus errors and what a command writes (20_memory.md rules R52 to R62) -/

namespace Sys2Proof.Machine

/-! ### Host accesses that are no hazard (rules R59, R61) -/

/-- A host write while idle, or outside the SRC and DST regions, writes its byte and nothing else. -/
theorem hostMemWrite_noHazard {s : State} {a : Word} (b : Byte)
    (h : s.seq = .idle ∨ (inSrc s a.toNat = false ∧ inDst s a.toNat = false)) :
    hostMemWrite a b s = withMem (Memory.write s.mem a.toNat b) (respond .ack s) := by
  have hc : ¬(s.busy && (inSrc s a.toNat || inDst s a.toNat)) = true := by
    rcases h with hi | ⟨hsrc, hdst⟩
    · simp [State.busy, hi]
    · simp [hsrc, hdst]
  simp only [hostMemWrite, if_neg hc]

/-- A host read while idle, or outside the DST region, returns the byte memory holds. -/
theorem hostMemRead_noHazard {s : State} {a : Word} (h : s.seq = .idle ∨ inDst s a.toNat = false) :
    hostMemRead a s = respond (.byte (Memory.read s.mem a.toNat)) s := by
  have hc : ¬(s.busy && inDst s a.toNat) = true := by
    rcases h with hi | hdst
    · simp [State.busy, hi]
    · simp [hdst]
  rw [hostMemRead, if_neg hc]

/-! ### Acceptance: memory stays, and a partial overlap is found (rules R62, R87) -/

theorem usesSrc_of_writesDst {i : Instr} {l : Nat} (h : (derive i l).writesDst = true) :
    (derive i l).usesSrc = true := by
  cases hf : blockFn i with
  | some f => exact (derive_of_blockFn hf l).1
  | none =>
    rw [(derive_of_no_blockFn hf l).2] at h
    cases h

/-- The converse of `not_partialOverlap`: regions neither in place nor disjoint overlap partially. -/
theorem partialOverlap_of_not_apart {i : Instr} {s : State} (hw : (derive i s.len.toNat).writesDst = true)
    (hb : ¬BuffersApart s ((derive i s.len.toNat).nblk * bs i.cipher)) :
    partialOverlap i.cipher (derive i s.len.toNat) s = true := by
  simp only [BuffersApart, not_or] at hb
  obtain ⟨hne, hlen, hn, hbelow, habove⟩ := hb
  have ho : overlap s.srcAddr.toNat s.len.toNat s.dstAddr.toNat ((derive i s.len.toNat).nblk * bs i.cipher) = true := by
    simp only [overlap, Bool.and_eq_true, decide_eq_true_eq]
    omega
  rw [partialOverlap, hw, usesSrc_of_writesDst hw, ho]
  simpa using hne

/-- FAULT after a command that passes its checks was accepted (rule R87). -/
theorem accept_faultSet {i : Instr} {s : State} (h : Accepts i s) :
    (accept i s).faultSet = { s.faultSet with
      partialOverlap := s.faultSet.partialOverlap || partialOverlap i.cipher (derive i s.len.toNat) s } := by
  rw [accept_of_accepts h]
  rfl

@[simp] theorem accept_mem (i : Instr) (s : State) : (accept i s).mem = s.mem := by
  rcases accept_cases i s with ⟨_, h⟩ | ⟨_, ⟨_, h⟩ | ⟨_, h⟩⟩ <;> rw [h]
  · rw [acceptIllegal_eq]
  · rw [complete_closed (acceptError_ne_busError i _ _) rfl]
    rfl
  · rfl

/-! ### A transition of a running command: its block is written, or it completes (rules R54, R55) -/

/-- What a running command hands to its completion: memory and the DST region of `s`, and no draw taken back. -/
structure CompletionFrom (s s' : State) : Prop where
  mem : s'.mem = s.mem
  dstAddr : s'.dstAddr = s.dstAddr
  region : dstLen s' = dstLen s
  dstOpen : s'.dstOpen = s.dstOpen
  drawsRise : s.draws ≤ s'.draws

theorem completionFrom_refl (s : State) : CompletionFrom s s := ⟨rfl, rfl, rfl, rfl, le_refl _⟩

theorem completionFrom_afterRead (r : Reg128) (n : Nat) (s : State) :
    CompletionFrom s (withChain r (afterRead n s)) where
  mem := by simp
  dstAddr := by simp
  region := by simp
  dstOpen := by simp
  drawsRise := by
    rw [withChain_draws]
    unfold afterRead
    split
    · exact Nat.le_add_right _ _
    · exact le_refl _

theorem FinishFrom.completionFrom {i : Instr} {s s' : State} (h : FinishFrom i s s') : CompletionFrom s s' := by
  obtain ⟨_, hmem, _, _, _, hopen, hnblk, hopc, hdst, _⟩ := h.kept
  exact ⟨hmem, hdst, by rw [dstLen, dstLen, hnblk, hopc], hopen, h.drawsRise⟩

/-- What a block step can do when it answers a next state (rules R57, R88): its block is written, or a refused access
ends the command with BusError. -/
theorem blockStep_next {i : Instr} {f : BlockFn} {s t : State} (h : blockStep i f s = .next t) :
    (t = afterBlock i f s ∧ accessStop s.params .read (inSpan i s).1 (inSpan i s).2 = none ∧
      accessStop s.params .write (s.dstAddr.toNat + s.blkI * bs i.cipher) (blockOut i f s).1.length = none) ∨
    ∃ s', t = complete (some i) .busError s' ∧ CompletionFrom s s' := by
  rcases blockStep_cases i f s with ⟨hc, _⟩ | hc | hc | ⟨hc, hserved⟩ <;> rw [hc] at h <;> cases h
  · exact Or.inr ⟨_, rfl, completionFrom_refl s⟩
  · exact Or.inr ⟨_, rfl, completionFrom_afterRead ..⟩
  · exact Or.inl ⟨rfl, hserved⟩

/-- What a transition of a running command can do: its block is written, or the command completes. -/
theorem exec_busy_cases {i : Instr} {s t : State} (hb : s.seq ≠ .idle) (h : exec i s = .next t) :
    (∃ f, blockFn i = some f ∧ t = afterBlock i f s) ∨
      ∃ code s', t = complete (some i) code s' ∧ CompletionFrom s s' := by
  rcases exec_cases h with ⟨hi, _⟩ | ⟨f, hf, _, hstep⟩ | ⟨_, code, s', ht, hfin⟩
  · exact absurd hi hb
  · rcases blockStep_next hstep with ⟨ht, _⟩ | ⟨s', ht, hs'⟩
    · exact Or.inl ⟨f, hf, ht⟩
    · exact Or.inr ⟨_, s', ht, hs'⟩
  · exact Or.inr ⟨code, s', ht, hfin.completionFrom⟩

theorem afterBlock_busy (i : Instr) (f : BlockFn) (s : State) : (afterBlock i f s).seq ≠ .idle := by
  simp only [afterBlock, noteBlock]
  split <;> simp

/-- A written block changes its own `b` bytes only (rule R54). -/
theorem sameOutside_afterBlock {i : Instr} {f : BlockFn} (hf : blockFn i = some f) (s : State) :
    SameOutside s (afterBlock i f s) (s.dstAddr.toNat + s.blkI * bs i.cipher) (bs i.cipher) := by
  intro x hx
  have hlen := blockOut_length hf s
  exact read_writeBytes_out _ _ (by omega)

/-- A completion changes the DST region only (rule R55). -/
theorem CompletionFrom.sameOutside {s s' : State} (h : CompletionFrom s s') (cmd : Option Instr) (code : ErrCode) :
    SameOutside s (complete cmd code s') s.dstAddr.toNat (dstLen s) := by
  intro x hx
  rw [← h.dstAddr, ← h.region] at hx
  rw [complete_read hx, h.mem]

/-- A completion without BusError, of a command whose data is not open, changes no byte. -/
theorem CompletionFrom.sameMemory {s s' : State} (h : CompletionFrom s s') (cmd : Option Instr) {code : ErrCode}
    (hc : code ≠ .busError) (ho : s.dstOpen = false) : SameMemory s (complete cmd code s') := by
  intro x
  rw [complete_closed hc (h.dstOpen.trans ho), setOutcome_mem, h.mem]

/-! ### BusError (rule R57, 60_exceptions.md rule R149) -/

/-- A running command has the block steps from its index on to go. -/
theorem RunningInv.remaining {s : State} (h : RunningInv s) (hb : s.seq ≠ .idle) :
    Remaining (s.nblk - s.blkI) s := by
  obtain ⟨hrun, hfinish⟩ := h.index
  obtain ⟨hseq, hle⟩ : s.seq = (if s.nblk - s.blkI = 0 then .finish else .run) ∧ s.blkI ≤ s.nblk := by
    cases hs : s.seq with
    | idle => exact absurd hs hb
    | run =>
      have hlt := hrun hs
      rw [if_neg (by omega)]
      exact ⟨rfl, by omega⟩
    | finish =>
      have heq := hfinish hs
      rw [if_pos (by omega)]
      exact ⟨rfl, by omega⟩
  exact ⟨hseq, by omega, h.context.1, h.alignedLen, h.srcInside, h.dstInside⟩

/-- A refused byte is a refused access (rule R57). -/
theorem accessStop_ne_none {p : Params} {k : Access} {a n : Nat} (h : ∃ j, j < n ∧ memOK p (a + j) k = false) :
    accessStop p k a n ≠ none := by
  obtain ⟨j, hj, hno⟩ := h
  intro hn
  rw [(accessStop_eq_none.1 hn).2 j hj] at hno
  cases hno

/-- A block step one of whose accesses is refused ends the command with BusError. -/
theorem Remaining.exec_refused {r : Nat} {s : State} {f : BlockFn} (h : Remaining (r + 1) s)
    (hf : blockFn s.opc = some f)
    (hr : accessStop s.params .read (inSpan s.opc s).1 (inSpan s.opc s).2 ≠ none ∨
      accessStop s.params .write (s.dstAddr.toNat + s.blkI * bs s.opc.cipher) (bs s.opc.cipher) ≠ none) :
    ∃ s', exec s.opc s = .next (complete (some s.opc) .busError s') ∧ CompletionFrom s s' := by
  obtain ⟨t, ht, _⟩ := h.exec_succ
  have hstep : blockStep s.opc f s = .next t := by rw [← exec_run hf (by simpa using h.seq), ht]
  rcases blockStep_next hstep with ⟨_, hread, hwrite⟩ | ⟨s', rfl, hs'⟩
  · rw [blockOut_length hf] at hwrite
    exact hr.elim (absurd hread) (absurd hwrite)
  · exact ⟨s', ht, hs'⟩

/-- GEN_IV has no block steps (rule R83). -/
theorem not_genIv_of_blockFn {i : Instr} {f : BlockFn} (hf : blockFn i = some f) : i.isGenIv = false := by
  cases i with
  | genIv => cases hf
  | _ => rfl

theorem completedWith_complete (cmd : Option Instr) (code : ErrCode) (s : State) :
    CompletedWith code (complete cmd code s) := by
  simp [CompletedWith]

/-! ### Free values at completion (rules R61, R62, 60_exceptions.md rule R149) -/

/-- A spoiled completion frees the DST region, with draws of its own. -/
theorem complete_spoiled {code : ErrCode} {s : State} (h : code = .busError ∨ s.dstOpen = true)
    (cmd : Option Instr) :
    (complete cmd code s).mem = (freeDst s).mem ∧ s.draws + dstLen s ≤ (complete cmd code s).draws := by
  refine ⟨by rw [complete_mem, freeAtCompletion_mem, if_pos h], ?_⟩
  by_cases hc : code = .busError
  · obtain ⟨_, _, hdraws⟩ := complete_busError cmd s
    rw [hc, hdraws]
    exact Nat.le_add_right _ _
  · rw [complete_draws, freeAtCompletion, if_neg hc, if_pos (h.resolve_left hc), freeDst_draws]

theorem wordBytes_wordOfBytes (l : List Byte) (k : Nat) :
    wordBytes (wordOfBytes l k) =
      [l.getD (4 * k) 0, l.getD (4 * k + 1) 0, l.getD (4 * k + 2) 0, l.getD (4 * k + 3) 0] :=
  wordBytes_le32 ..

/-- CHAIN and BLK_IDX after a BusError, byte by byte: the twenty draws after those of the DST region. -/
theorem complete_busError_bytes (cmd : Option Instr) (s : State) :
    regBytes (complete cmd .busError s).chain =
        (List.range 16).map (fun j => Config.draw (s.draws + dstLen s + j)) ∧
      wordBytes (complete cmd .busError s).blkIdx =
        (List.range 4).map (fun j => Config.draw (s.draws + dstLen s + 16 + j)) := by
  obtain ⟨hchain, hblkIdx, _⟩ := complete_busError cmd s
  rw [hchain, hblkIdx, regBytes_regOfBytes (drawn_length ..), wordBytes_wordOfBytes]
  exact ⟨rfl, rfl⟩

end Sys2Proof.Machine

section
open Sys2Proof Sys2Proof.Machine

/-- Settles O22: by the packing of four bytes into a word. -/
theorem blockRegistersAreLittleEndian : Obligations.BlockRegistersAreLittleEndian :=
  ⟨getElem?_regBytes, fun _ h => regBytes_regOfBytes h, by decide⟩

/-- Settles O27: such an access takes the branch of the host's access that is no hazard. -/
theorem hostMemoryAccessesOutsideTheBuffers : Obligations.HostMemoryAccessesOutsideTheBuffers := by
  intro s a b hm
  refine ⟨fun h => ?_, fun h => congrArg Host.Outcome.next (hostMemRead_noHazard h)⟩
  exact ⟨Memory.write s.mem a.toNat b, congrArg Host.Outcome.next (hostMemWrite_noHazard b h), wf_write b hm a.isLt,
    read_write_self a.toNat b hm, fun x hx => read_write_ne s.mem b hx⟩

/-- Settles O31: acceptance adds the outcome of the overlap test, which is exact. -/
theorem partialOverlapIsFlagged : Obligations.PartialOverlapIsFlagged := by
  intro i s ha hw
  refine ⟨fun hb => ⟨_, exec_idle i ha.idle, ?_⟩, fun hb => ⟨_, exec_idle i ha.idle, ?_⟩⟩
  · rw [accept_faultSet ha, not_partialOverlap rfl rfl rfl hb, Bool.or_false]
  · rw [accept_faultSet ha, partialOverlap_of_not_apart hw hb, Bool.or_true]

/-- Settles O37: the invariant keeps the accesses inside the address space, so a refused one is a BusError. -/
theorem busErrorEndsTheCommand : Obligations.BusErrorEndsTheCommand := by
  rintro _ s hinv hs rfl hw hr
  have hb : s.seq ≠ .idle := by simp [hs]
  have hrun := hinv.running hb
  obtain ⟨r, hleft⟩ := Nat.exists_eq_succ_of_ne_zero (Nat.sub_ne_zero_of_lt (hrun.index.1 hs))
  have hrem : Remaining (r + 1) s := by
    rw [← Nat.succ_eq_add_one, ← hleft]
    exact hrun.remaining hb
  obtain ⟨f, hf⟩ := hrem.exists_blockFn
  obtain ⟨s', ht, hs'⟩ := hrem.exec_refused hf (hr.imp accessStop_ne_none accessStop_ne_none)
  have hkept := registersKept_exec ht
  have hgen := not_genIv_of_blockFn hf
  refine ⟨_, ht, completedWith_complete .., by simp, hs'.sameOutside _ _, hkept.setup, hkept.iv hgen, ?_⟩
  cases hc : s.opc.isCbc with
  | true => simp [ivWrAfter, hc]
  | false => simpa using hkept.ivWr hgen hc

/-- Settles O43: a transition while BUSY writes its block and goes on, or completes. -/
theorem execWritesOnlyItsBlock : Obligations.ExecWritesOnlyItsBlock := by
  intro i s t h
  refine ⟨fun hi => ?_, fun hb ht => ?_, fun hb ht => ?_, fun hb ht hc ho => ?_⟩
  · rw [exec_idle i hi] at h
    cases h
    exact fun x => by rw [accept_mem]
  · rcases exec_busy_cases hb h with ⟨f, hf, rfl⟩ | ⟨code, s', rfl, _⟩
    · exact sameOutside_afterBlock hf s
    · exact absurd (complete_seq ..) ht
  · rcases exec_busy_cases hb h with ⟨f, _, rfl⟩ | ⟨code, s', rfl, hs'⟩
    · exact absurd ht (afterBlock_busy i f s)
    · exact hs'.sameOutside _ _
  · rcases exec_busy_cases hb h with ⟨f, _, rfl⟩ | ⟨code, s', rfl, hs'⟩
    · exact absurd ht (afterBlock_busy i f s)
    · rw [complete_errcode] at hc
      exact hs'.sameMemory _ hc ho

/-- Settles O44: DST takes the first draws of the completion, CHAIN and BLK_IDX the next twenty after a BusError. -/
theorem spoiledDestinationsHoldFreeValues : Obligations.SpoiledDestinationsHoldFreeValues := by
  intro s t hinv hb h ht hspoiled
  rcases exec_busy_cases hb h with ⟨f, _, rfl⟩ | ⟨code, s', rfl, hs'⟩
  · exact absurd ht (afterBlock_busy _ f s)
  rw [complete_errcode, ← hs'.dstOpen] at hspoiled
  obtain ⟨hmem, hdraws⟩ := complete_spoiled hspoiled (some s.opc)
  have hm : Memory.wf s'.mem = true := hs'.mem ▸ hinv.memCanonical
  have hd : s'.dstAddr.toNat + dstLen s' ≤ addrSpace := by
    rw [hs'.dstAddr, hs'.region]
    exact (hinv.running hb).dst_inside
  have hlen : s.nblk * bs s.opc.cipher = dstLen s' := hs'.region.symm
  rw [hlen, hmem, ← hs'.dstAddr]
  refine ⟨s'.draws, s'.draws + dstLen s', hs'.drawsRise, le_refl _, hdraws, readBytes_freeDst hm hd, fun hc => ?_⟩
  rw [complete_errcode] at hc
  subst hc
  obtain ⟨hchain, hblkIdx⟩ := complete_busError_bytes (some s.opc) s'
  obtain ⟨_, _, htwenty⟩ := complete_busError (some s.opc) s'
  exact ⟨htwenty.ge, hchain, hblkIdx⟩

end

/-! ## The command word: its fields, the commands and legality (30_encoding.md rules R68 to R77) -/

namespace Sys2Proof.Machine

/-! ### The fields of a word as numbers (rule R68) -/

theorem opField_eq (w : Word) : opField w = opNum w := by simp [opField, opNum]

theorem toNat_rsvdField (w : Word) : (rsvdField w).toNat = w.toNat / 64 := by
  rw [rsvdField, BitVec.extractLsb'_toNat, Nat.shiftRight_eq_div_pow]
  omega

theorem rsvdField_eq_zero {w : Word} : rsvdField w = 0 ↔ w.toNat / 64 = 0 := by
  rw [← toNat_rsvdField]
  exact BitVec.toNat_inj.symm

theorem cselNum_lt (w : Word) : cselNum w < 2 := Nat.mod_lt _ (by decide)

theorem padfNum_lt (w : Word) : padfNum w < 2 := Nat.mod_lt _ (by decide)

theorem getLsbD_four_iff {w : Word} : w.getLsbD 4 = true ↔ cselNum w = 1 := by
  simp [BitVec.getLsbD, Nat.testBit_eq_decide_div_mod_eq, cselNum]

theorem padfField_iff {w : Word} : padfField w = true ↔ padfNum w = 1 := by
  simp [padfField, BitVec.getLsbD, Nat.testBit_eq_decide_div_mod_eq, padfNum]

theorem padfField_eq_false {w : Word} : padfField w = false ↔ padfNum w = 0 := by
  have hlt := padfNum_lt w
  rw [← Bool.not_eq_true, padfField_iff]
  omega

theorem cselField_eq (w : Word) : cselField w = if cselNum w = 0 then .c128 else .c64 := by
  have hlt := cselNum_lt w
  rw [cselField]
  simp only [getLsbD_four_iff]
  interval_cases cselNum w <;> rfl

theorem cselField_eq_c128 {w : Word} : cselField w = .c128 ↔ cselNum w = 0 := by
  rw [cselField_eq]
  split <;> simp_all

theorem selPresent_cselNum (p : Params) (w : Word) : selPresent p (cselNum w) = p.cipherPresent (cselField w) := by
  rw [cselField_eq, selPresent]
  split <;> rfl

/-! ### The words of the commands (rule R74) -/

/-- The fields of `w` are those of command `i`, and RSVD is zero. -/
structure HasFields (w : Word) (i : Instr) : Prop where
  rsvd : w.toNat / 64 = 0
  op : opNum w = opValue i
  csel : cselField w = i.cipher
  padf : padfField w = i.padf

theorem toNat_encode (i : Instr) :
    (encode i).toNat = opValue i + (cselBits i.cipher).toNat + (padfBits i.padf).toNat := by
  cases i with
  | nop => rfl
  | pad c | unpad c | genIv c => cases c <;> rfl
  | ecbEnc c p | ecbDec c p | cbcEnc c p | cbcDec c p => cases c <;> cases p <;> rfl

theorem toNat_cselBits_cselField (w : Word) : (cselBits (cselField w)).toNat = 16 * cselNum w := by
  have hlt := cselNum_lt w
  rw [cselField_eq]
  interval_cases cselNum w <;> rfl

theorem toNat_padfBits_padfField (w : Word) : (padfBits (padfField w)).toNat = 32 * padfNum w := by
  cases hp : padfField w with
  | false => rw [padfField_eq_false.1 hp]; rfl
  | true => rw [padfField_iff.1 hp]; rfl

theorem toNat_eq_fields (w : Word) :
    w.toNat = opNum w + 16 * cselNum w + 32 * padfNum w + 64 * (w.toNat / 64) := by
  unfold opNum cselNum padfNum
  omega

/-- The fields of a word with RSVD zero determine it. -/
theorem HasFields.encode_eq {w : Word} {i : Instr} (h : HasFields w i) : encode i = w := by
  apply BitVec.eq_of_toNat_eq
  rw [toNat_encode, ← h.op, ← h.csel, ← h.padf, toNat_cselBits_cselField, toNat_padfBits_padfField]
  have hw := toNat_eq_fields w
  rw [h.rsvd] at hw
  exact hw.symm

/-! ### What the decoder answers (rule R77) -/

@[simp] theorem noPadf_eq_ok {w : Word} {i j : Instr} : noPadf w i = .ok j ↔ padfField w = false ∧ i = j := by
  unfold noPadf
  cases padfField w <;> simp

/-- A word that decodes to a command has the fields of that command: a branch of the decoder for each OP. -/
theorem hasFields_of_decode {w : Word} {i : Instr} (h : decode w = .ok i) : HasFields w i := by
  unfold decode at h
  by_cases hr : rsvdField w = 0
  case neg =>
    rw [if_pos hr] at h
    cases h
  rw [if_neg (not_not.2 hr), opField_eq] at h
  replace hr := rsvdField_eq_zero.1 hr
  split at h
  case h_1 hop =>
    by_cases hc : w.getLsbD 4 = true
    · rw [if_pos hc] at h
      cases h
    · rw [if_neg hc, noPadf_eq_ok] at h
      obtain ⟨hp, rfl⟩ := h
      exact ⟨hr, hop, if_neg hc, hp⟩
  case h_2 hop | h_3 hop | h_8 hop =>
    obtain ⟨hp, rfl⟩ := noPadf_eq_ok.1 h
    exact ⟨hr, hop, rfl, hp⟩
  case h_4 hop | h_5 hop | h_6 hop | h_7 hop =>
    cases h
    exact ⟨hr, hop, rfl, rfl⟩
  case h_9 => cases h

theorem decode_eq_ok_iff {w : Word} {i : Instr} : decode w = .ok i ↔ encode i = w :=
  ⟨fun h => (hasFields_of_decode h).encode_eq, fun h => h ▸ decode_encode i⟩

theorem decode_eq_ok_iff_hasFields {w : Word} {i : Instr} : decode w = .ok i ↔ HasFields w i :=
  ⟨hasFields_of_decode, fun h => decode_eq_ok_iff.2 h.encode_eq⟩

theorem decodeFor_eq_some_iff {p : Params} {w : Word} {i : Instr} :
    decodeFor p w = some i ↔ HasFields w i ∧ i.wellFormed p = true := by
  rw [← decode_eq_ok_iff_hasFields, decodeFor]
  cases decode w with
  | error e => simp
  | ok j =>
    simp only [Option.ite_none_right_eq_some, Option.some.injEq, Except.ok.injEq]
    exact ⟨fun ⟨hw, h⟩ => ⟨h, h ▸ hw⟩, fun ⟨h, hw⟩ => ⟨h ▸ hw, h⟩⟩

/-! ### Legality (rule R73) -/

/-- A command has no PADF but on the four mode operations, and NOP has no CSEL (rules R71, R73). -/
theorem instr_fields (i : Instr) :
    opValue i ≤ 7 ∧ (i.padf = false ∨ opValue i ∈ [3, 4, 5, 6]) ∧ (i.cipher = .c128 ∨ opValue i ≠ 0) := by
  cases i <;> simp [opValue, Instr.padf, Instr.cipher]

/-- Every combination of OP, CSEL and PADF within those limits is a command. -/
theorem exists_instr {n : Nat} {c : Cipher} {p : Bool} (hn : n ≤ 7) (hp : p = false ∨ n ∈ [3, 4, 5, 6])
    (hc : c = .c128 ∨ n ≠ 0) : ∃ i, n = opValue i ∧ c = i.cipher ∧ p = i.padf := by
  interval_cases n
  · exact ⟨.nop, rfl, hc.resolve_right (by decide), hp.resolve_right (by decide)⟩
  · exact ⟨.pad c, rfl, rfl, hp.resolve_right (by decide)⟩
  · exact ⟨.unpad c, rfl, rfl, hp.resolve_right (by decide)⟩
  · exact ⟨.ecbEnc c p, rfl, rfl, rfl⟩
  · exact ⟨.ecbDec c p, rfl, rfl, rfl⟩
  · exact ⟨.cbcEnc c p, rfl, rfl, rfl⟩
  · exact ⟨.cbcDec c p, rfl, rfl, rfl⟩
  · exact ⟨.genIv c, rfl, rfl, hp.resolve_right (by decide)⟩

theorem wellFormed_iff {p : Params} {i : Instr} : i.wellFormed p = true ↔
    (opValue i = 0 ∨ p.cipherPresent i.cipher = true) ∧ (opValue i ≠ 7 ∨ p.hasRng = true) := by
  cases i <;> simp [Instr.wellFormed, opValue, Instr.cipher]

/-- The legal words are those the decoder gives a command for: one with their fields, and its units present. -/
theorem legalWord_iff {p : Params} {w : Word} : LegalWord p w ↔ ∃ i, decodeFor p w = some i := by
  simp only [LegalWord, ← padfField_eq_false, ← cselField_eq_c128, selPresent_cselNum, decodeFor_eq_some_iff,
    wellFormed_iff]
  constructor
  · rintro ⟨hr, hop, hp, hc, hunits⟩
    obtain ⟨i, hi, hci, hpi⟩ := exists_instr hop hp hc
    exact ⟨i, ⟨hr, hi, hci, hpi⟩, by rwa [← hi, ← hci]⟩
  · rintro ⟨i, ⟨hr, hop, hc, hp⟩, hunits⟩
    obtain ⟨hle, hpadf, hcsel⟩ := instr_fields i
    rw [hop, hc, hp]
    exact ⟨hr, hle, hpadf, hcsel, hunits⟩

theorem decodeFor_eq_none {p : Params} {w : Word} (h : ¬LegalWord p w) : decodeFor p w = none :=
  Option.eq_none_iff_forall_ne_some.2 fun i hi => h (legalWord_iff.2 ⟨i, hi⟩)

/-! ### The opcode map (rule R74) -/

theorem encode_mem_tableWords (i : Instr) : encode i ∈ tableWords := by
  cases i with
  | nop => decide
  | pad c | unpad c | genIv c => cases c <;> decide
  | ecbEnc c p | ecbDec c p | cbcEnc c p | cbcDec c p => cases c <;> cases p <;> decide

/-- The words of the table are the words of the commands. -/
theorem mem_tableWords {w : Word} : w ∈ tableWords ↔ ∃ i, encode i = w := by
  constructor
  · have hall : tableWords ⊆ allCommands.map encode := by decide
    intro h
    obtain ⟨i, _, hi⟩ := List.mem_map.1 (hall h)
    exact ⟨i, hi⟩
  · rintro ⟨i, rfl⟩
    exact encode_mem_tableWords i

theorem wellFormed_default (i : Instr) : i.wellFormed Params.default = true := by
  have hc : Params.default.cipherPresent i.cipher = true := by cases i.cipher <;> rfl
  exact wellFormed_iff.2 ⟨Or.inr hc, Or.inr rfl⟩

/-! ### The register CMD (rule R24) -/

/-- Any word written to CMD of the idle block is taken as a command word. -/
theorem hostOp_regWr_cmd_idle {s : State} (h : s.seq = .idle) (w : Word) :
    hostOp (.regWr 0x10#8 .b4 w) s = cmdWrite w (respond .ack s) := by
  have hb : ¬(busyLocked .cmd && (respond .ack s).busy) = true := by simp [State.busy, h]
  rw [hostOp_regWr (r := .cmd) rfl, writeReg, if_neg hb, if_pos rfl]

end Sys2Proof.Machine

section
open Sys2Proof Sys2Proof.Machine

/-- Settles O1: the fields of a word determine the command it decodes to, and that command's word. -/
theorem decodeInvertsEncode : Obligations.DecodeInvertsEncode := fun _ _ => decode_eq_ok_iff

/-- Settles O2: with every unit present the legal words are the commands' words, which are the table's. -/
theorem legalWordsAreTheTable : Obligations.LegalWordsAreTheTable := by
  intro w
  rw [Option.isSome_iff_exists, mem_tableWords]
  refine exists_congr fun i => ?_
  rw [decodeFor_eq_some_iff, and_iff_left (wellFormed_default i), ← decode_eq_ok_iff_hasFields, decode_eq_ok_iff]

/-- Settles O3: the legal words are those with the fields of a present command, and the decoder reads the fields. -/
theorem decoderFollowsLegality : Obligations.DecoderFollowsLegality := by
  intro w s
  refine ⟨fun h => ?_, fun h => ?_, fun hi => hostOp_regWr_cmd_idle hi w⟩
  · have hd := decodeFor_eq_none h
    refine ⟨hd, fun hi => ⟨_, cmdWrite_illegal hd hi, completedWith_complete .., ?_⟩⟩
    simp [acceptIllegal_eq, SameSetup]
  · obtain ⟨i, hi⟩ := legalWord_iff.1 h
    obtain ⟨hf, _⟩ := decodeFor_eq_some_iff.1 hi
    refine ⟨i, hi, hf.op.symm, ?_, ?_⟩
    · rw [← hf.csel, cselField_eq]
    · rw [← hf.padf, padfField_iff]

/-- Settles O4: each word is the word of its command. -/
theorem oneWordOfEachRowDecodes : Obligations.OneWordOfEachRowDecodes := by
  simp only [Obligations.OneWordOfEachRowDecodes, decode_eq_ok_iff]
  decide

/-- Settles O16: STATUS is read as stored in every state, and its bit 0 is BUSY. -/
theorem waitReadsStatusUntilIdle : Obligations.WaitReadsStatusUntilIdle := by
  intro s
  have hr : readReg .status s = respond (.data (statusWord s)) s := readReg_stored rfl
  refine ⟨statusWord s, (statusWord_flags s).1, hostOp_regRd_stored .status rfl rfl, fun hi => ?_, fun hb => ?_⟩
  · simp [hostOp, hr, busy_eq_false.2 hi]
  · simp [hostOp, hr, busy_eq_true.2 hb]

end

/-! ## The hidden registers never show (40_command_lifecycle.md rule R96) -/

namespace Sys2Proof.Machine

/-! ### Acceptance, an equation per outcome (rules R82 to R87) -/

theorem accept_illegal {i : Instr} {s : State} (hw : i.wellFormed s.params = false) : accept i s = acceptIllegal s := by
  simp [accept, hw]

theorem accept_rejected {i : Instr} {s : State} (hw : i.wellFormed s.params = true)
    (he : acceptError i (derive i s.len.toNat) s ≠ .none) :
    accept i s = complete (some i) (acceptError i (derive i s.len.toNat) s)
      (latch i (derive i s.len.toNat) (clearOutcome s)) := by
  rcases accept_cases i s with ⟨hn, _⟩ | ⟨_, ⟨_, h⟩ | ⟨hn, _⟩⟩
  · rw [hw] at hn; cases hn
  · exact h
  · exact absurd hn he

theorem accept_started {i : Instr} {s : State} (hw : i.wellFormed s.params = true)
    (he : acceptError i (derive i s.len.toNat) s = .none) :
    accept i s = start i (derive i s.len.toNat) (latch i (derive i s.len.toNat) (clearOutcome s)) := by
  rcases accept_cases i s with ⟨hn, _⟩ | ⟨_, ⟨hn, _⟩ | ⟨_, h⟩⟩
  · rw [hw] at hn; cases hn
  · exact absurd he hn
  · exact h

/-! ### The engine's steps, an equation per outcome (rules R88, R106) -/

theorem blockStep_refusedRead {i : Instr} (f : BlockFn) {s : State} {e : Stop}
    (hr : accessStop s.params .read (inSpan i s).1 (inSpan i s).2 = some e) : blockStep i f s = onStop i s e := by
  simp only [blockStep, hr]

theorem blockStep_refusedWrite {i : Instr} {f : BlockFn} {s : State} {e : Stop}
    (hr : accessStop s.params .read (inSpan i s).1 (inSpan i s).2 = none)
    (hw : accessStop s.params .write (s.dstAddr.toNat + s.blkI * bs i.cipher) (blockOut i f s).1.length = some e) :
    blockStep i f s = onStop i (withChain (blockOut i f s).2 (afterRead (inSpan i s).2 s)) e := by
  rw [blockOut] at hw
  simp only [blockStep, hr, writeBlock, withChain_params, afterRead_params, withChain_dstAddr, afterRead_dstAddr,
    withChain_blkI, afterRead_blkI, hw]
  rfl

/-- Where UNPAD reads the last block of SRC (rule R106). -/
def lastBlockAddr (c : Cipher) (s : State) : Nat := s.srcAddr.toNat + s.len.toNat - bs c

theorem unpadFinish_empty (c : Cipher) {s : State} (hl : s.len.toNat = 0) :
    unpadFinish c s = .next (complete (some (.unpad c)) .invalidPadding s) := by
  simp only [unpadFinish, if_pos hl]

theorem unpadFinish_refused {c : Cipher} {s : State} {e : Stop} (hl : s.len.toNat ≠ 0)
    (hr : accessStop s.params .read (lastBlockAddr c s) (bs c) = some e) :
    unpadFinish c s = onStop (.unpad c) s e := by
  rw [lastBlockAddr] at hr
  simp only [unpadFinish, if_neg hl, hr]

theorem unpadFinish_served {c : Cipher} {s : State} (hl : s.len.toNat ≠ 0)
    (hr : accessStop s.params .read (lastBlockAddr c s) (bs c) = none) :
    unpadFinish c s = finishUnpadded (.unpad c)
      (unpadCheckBlock (engineBytes s (lastBlockAddr c s) (bs c)) (s.len.toNat / bs c) (bs c))
      (afterRead (bs c) s) := by
  rw [lastBlockAddr] at hr
  simp only [unpadFinish, if_neg hl, hr]
  rfl

/-! ### States that only their hidden registers tell apart -/

/-- The hidden registers: OPC with its context, I and LASTBLK (10_state.md rules R44 to R46). -/
structure Hidden where
  opc : Instr
  nblk : Nat
  outlen : Nat
  blkI : Nat
  lastBlk : Reg128

def State.hidden (s : State) : Hidden := ⟨s.opc, s.nblk, s.outlen, s.blkI, s.lastBlk⟩

/-- The state with the hidden registers `k`. -/
def withHidden (k : Hidden) (s : State) : State :=
  { s with opc := k.opc, nblk := k.nblk, outlen := k.outlen, blkI := k.blkI, lastBlk := k.lastBlk }

/-- The state with LASTBLK replaced. -/
def withLastBlk (r : Reg128) (s : State) : State := { s with lastBlk := r }

/-- No later step tells the hidden registers `k` from those of `s`: while BUSY they differ in LASTBLK only, and when
the finish step may check it, not in the block that it checks. -/
structure Unseen (k : Hidden) (s : State) : Prop where
  context : s.seq ≠ .idle → k.opc = s.opc ∧ k.nblk = s.nblk ∧ k.outlen = s.outlen ∧ k.blkI = s.blkI
  lastBlk : s.seq = .finish → s.nblk ≠ 0 → blockOf s.opc.cipher k.lastBlk = blockOf s.opc.cipher s.lastBlk

/-- Two states that differ in hidden registers no later step tells apart. -/
def Alike (s s' : State) : Prop := ∃ k, Unseen k s ∧ s' = withHidden k s

/-- Where the first answers a next state, the second answers one like it. -/
def AnswersAlike (r r' : Result) : Prop := ∀ t, r = .next t → ∃ t', r' = .next t' ∧ Alike t t'

theorem AnswersAlike.next {t t' : State} (h : Alike t t') : AnswersAlike (.next t) (.next t') := by
  intro u hu
  cases hu
  exact ⟨t', rfl, h⟩

theorem alike_of_idle {s : State} (hi : s.seq = .idle) (k : Hidden) : Alike s (withHidden k s) :=
  ⟨k, ⟨fun hb => absurd hi hb, fun hf => by rw [hi] at hf; cases hf⟩, rfl⟩

theorem alike_withLastBlk {s : State} {r : Reg128}
    (h : s.seq = .finish → s.nblk ≠ 0 → blockOf s.opc.cipher r = blockOf s.opc.cipher s.lastBlk) :
    Alike s (withLastBlk r s) :=
  ⟨{ s.hidden with lastBlk := r }, ⟨fun _ => ⟨rfl, rfl, rfl, rfl⟩, h⟩, rfl⟩

/-- While BUSY, states alike differ in LASTBLK only. -/
theorem Alike.exists_lastBlk {s s' : State} (h : Alike s s') (hb : s.seq ≠ .idle) :
    ∃ r, s' = withLastBlk r s ∧
      (s.seq = .finish → s.nblk ≠ 0 → blockOf s.opc.cipher r = blockOf s.opc.cipher s.lastBlk) := by
  obtain ⟨k, hk, rfl⟩ := h
  obtain ⟨hopc, hnblk, houtlen, hblkI⟩ := hk.context hb
  refine ⟨k.lastBlk, ?_, hk.lastBlk⟩
  rw [withHidden, hopc, hnblk, houtlen, hblkI]
  rfl

theorem Alike.busy_eq {s s' : State} (h : Alike s s') : s'.busy = s.busy := by
  obtain ⟨k, _, rfl⟩ := h
  rfl

/-! ### Updates that do not look at the hidden registers -/

/-- An update that neither reads nor writes a hidden register, and keeps SEQ. -/
def Blind (g : State → State) : Prop :=
  ∀ s, (∀ k, g (withHidden k s) = withHidden k (g s)) ∧ (g s).seq = s.seq

theorem Alike.map {s s' : State} (h : Alike s s') {g : State → State} (hg : Blind g) : Alike (g s) (g s') := by
  obtain ⟨k, hk, rfl⟩ := h
  obtain ⟨hcomm, hseq⟩ := hg s
  have hkept : g s = withHidden s.hidden (g s) := hcomm s.hidden
  refine ⟨k, ?_, hcomm k⟩
  constructor <;> rw [hseq, hkept]
  · exact hk.context
  · exact hk.lastBlk

theorem blind_respond (r : BusResp) : Blind (respond r) := fun _ => ⟨fun _ => rfl, rfl⟩

theorem blind_storeReg (r : Reg) (w : Word) : Blind (storeReg r w) := by
  intro s
  cases r <;> exact ⟨fun _ => rfl, rfl⟩

/-! ### The host's transactions -/

/-- What is asked of a running command does not depend on LASTBLK, so states alike answer it alike. -/
theorem Alike.busy_and_eq {s s' : State} (h : Alike s s') {q : State → Bool}
    (hq : ∀ r u, q (withLastBlk r u) = q u) : (s'.busy && q s') = (s.busy && q s) := by
  by_cases hi : s.seq = .idle
  · rw [h.busy_eq, busy_eq_false.2 hi, Bool.false_and, Bool.false_and]
  · obtain ⟨r, rfl, _⟩ := h.exists_lastBlk hi
    rw [hq]
    rfl

/-- A read is free while BUSY only (10_state.md rule R42). -/
theorem openRead_eq_busy_and (r : Reg) (s : State) : openRead s r = (s.busy && openRead s r) := by
  cases r <;> simp [openRead]

theorem Alike.openRead_eq {s s' : State} (h : Alike s s') (r : Reg) : openRead s' r = openRead s r := by
  rw [openRead_eq_busy_and r s', openRead_eq_busy_and r s]
  exact h.busy_and_eq (q := fun u => openRead u r) fun _ _ => rfl

theorem Alike.readReg {s s' : State} (h : Alike s s') (r : Reg) : Alike (readReg r s) (readReg r s') := by
  unfold Machine.readReg
  rw [h.openRead_eq]
  split
  · exact h.map (g := fun u => respond (.data (wordOfBytes (drawn u 4) 0)) (drew 4 u)) fun _ => ⟨fun _ => rfl, rfl⟩
  · exact h.map (g := fun u => respond (.data (regValue u r)) u) fun _ => ⟨fun _ => by cases r <;> rfl, rfl⟩

theorem Alike.regRead {s s' : State} (h : Alike s s') (off : BitVec 8) (size : BusSize) :
    Alike (regRead off size s) (regRead off size s') := by
  unfold Machine.regRead
  split
  · exact h.map (blind_respond _)
  · exact h.readReg _

theorem Alike.hostMemWrite {s s' : State} (h : Alike s s') (a : Word) (b : Byte) :
    Alike (hostMemWrite a b s) (hostMemWrite a b s') := by
  have hbuffers := h.busy_and_eq (q := fun u => inSrc u a.toNat || inDst u a.toNat) fun _ _ => rfl
  unfold Machine.hostMemWrite
  simp only [hbuffers]
  split
  · exact h.map (g := fun u =>
      { hostHazard (withMem (Memory.write u.mem a.toNat b) (respond .ack u)) with dstOpen := true })
      fun _ => ⟨fun _ => rfl, rfl⟩
  · exact h.map (g := fun u => withMem (Memory.write u.mem a.toNat b) (respond .ack u)) fun _ => ⟨fun _ => rfl, rfl⟩

theorem Alike.hostMemRead {s s' : State} (h : Alike s s') (a : Word) :
    Alike (hostMemRead a s) (hostMemRead a s') := by
  have hdst := h.busy_and_eq (q := fun u => inDst u a.toNat) fun _ _ => rfl
  unfold Machine.hostMemRead
  rw [hdst]
  split
  · exact h.map (g := fun u => hostHazard (respond (.byte ((drawn u 1).getD 0 0)) (drew 1 u)))
      fun _ => ⟨fun _ => rfl, rfl⟩
  · exact h.map (g := fun u => respond (.byte (Memory.read u.mem a.toNat)) u) fun _ => ⟨fun _ => rfl, rfl⟩

/-! ### Completion and acceptance write the hidden registers, and read none that differs -/

theorem complete_withLastBlk (cmd : Option Instr) (code : ErrCode) (r : Reg128) (s : State) :
    complete cmd code (withLastBlk r s) = withLastBlk r (complete cmd code s) := by
  have hopen : (withLastBlk r s).dstOpen = s.dstOpen := rfl
  unfold complete freeAtCompletion
  rw [hopen]
  split
  · rfl
  · split <;> rfl

theorem answersAlike_complete (cmd : Option Instr) (code : ErrCode) (r : Reg128) (s : State) :
    AnswersAlike (.next (complete cmd code s)) (.next (complete cmd code (withLastBlk r s))) := by
  rw [complete_withLastBlk]
  exact .next (alike_withLastBlk fun hf => by rw [complete_seq] at hf; cases hf)

/-- Acceptance latches the context anew and clears I; LASTBLK is left, and is not read before a block step wrote it. -/
theorem answersAlike_accept (i : Instr) (k : Hidden) (s : State) :
    AnswersAlike (.next (accept i s)) (.next (accept i (withHidden k s))) := by
  cases hw : i.wellFormed s.params with
  | false =>
    rw [accept_illegal hw, accept_illegal (s := withHidden k s) hw]
    exact .next (alike_of_idle (s := acceptIllegal s) rfl { k with blkI := 0 })
  | true =>
    by_cases he : acceptError i (derive i s.len.toNat) s = .none
    · rw [accept_started hw he, accept_started (s := withHidden k s) hw he]
      refine .next (alike_withLastBlk (r := k.lastBlk) fun hf hn => absurd hf ?_)
      have hpos : 0 < (derive i s.len.toNat).nblk := Nat.pos_of_ne_zero hn
      simp [hpos]
    · rw [accept_rejected hw he, accept_rejected (s := withHidden k s) hw he]
      exact answersAlike_complete _ _ k.lastBlk (latch i (derive i s.len.toNat) (clearOutcome s))

theorem answersAlike_cmdWrite {s : State} (hi : s.seq = .idle) (w : Word) (k : Hidden) :
    AnswersAlike (cmdWrite w s) (cmdWrite w (withHidden k s)) := by
  unfold cmdWrite
  split
  · next i _ =>
    rw [exec_idle i hi, exec_idle (s := withHidden k s) i hi]
    exact answersAlike_accept i k s
  · exact .next (alike_of_idle (s := acceptIllegal s) rfl { k with blkI := 0 })

theorem Alike.regWrite {s s' : State} (h : Alike s s') (off : BitVec 8) (size : BusSize) (w : Word) :
    AnswersAlike (regWrite off size w s) (regWrite off size w s') := by
  unfold Machine.regWrite
  split
  · exact .next (h.map (blind_respond _))
  · next r _ =>
    have hack := h.map (blind_respond .ack)
    unfold writeReg
    rw [hack.busy_eq]
    split
    · exact .next (hack.map (g := setWign) fun _ => ⟨fun _ => rfl, rfl⟩)
    · next hl =>
      split
      · next hr =>
        have hi : s.seq = .idle := by simpa [hr, busyLocked, State.busy] using hl
        obtain ⟨k, _, rfl⟩ := h
        exact answersAlike_cmdWrite (s := respond .ack s) hi w k
      · exact .next (hack.map (blind_storeReg r w))

theorem Alike.hostOp {s s' : State} (h : Alike s s') (op : HostOp) : AnswersAlike (hostOp op s) (hostOp op s') := by
  have hparams : s'.params = s.params := by
    obtain ⟨k, _, rfl⟩ := h
    rfl
  cases op with
  | regWr off size w => exact h.regWrite off size w
  | regRd off size => exact .next (h.regRead off size)
  | busWr addr size w =>
    simp only [Machine.hostOp, hparams]
    split
    · exact h.regWrite _ size w
    · exact .next (h.map (blind_respond _))
  | busRd addr size =>
    simp only [Machine.hostOp, hparams]
    split
    · exact .next (h.regRead _ size)
    · exact .next (h.map (blind_respond _))
  | wait =>
    simp only [Machine.hostOp, h.busy_eq]
    split
    · exact .next ((h.readReg .status).map (g := fun u => { u with hostProg := .wait :: u.hostProg })
        fun _ => ⟨fun _ => rfl, rfl⟩)
    · exact .next (h.readReg .status)
  | memWr a b => exact .next (h.hostMemWrite a b)
  | memRd a => exact .next (h.hostMemRead a)
  | irqRd => exact .next (h.map (g := fun u => respond (.irq u.irq) u) fun _ => ⟨fun _ => rfl, rfl⟩)

/-! ### The engine's steps -/

theorem afterRead_withLastBlk (n : Nat) (r : Reg128) (s : State) :
    afterRead n (withLastBlk r s) = withLastBlk r (afterRead n s) := by
  have hopen : (withLastBlk r s).dstOpen = s.dstOpen := rfl
  unfold afterRead
  rw [hopen]
  split <;> rfl

theorem answersAlike_onStop (i : Instr) (r : Reg128) (s : State) (e : Stop) :
    AnswersAlike (onStop i s e) (onStop i (withLastBlk r s) e) := by
  cases e with
  | bus => exact answersAlike_complete _ _ r s
  | outside => exact fun _ h => nomatch h

/-- A written block is what LASTBLK then holds, whatever it held before (rule R88). -/
theorem alike_afterBlock {s : State} {f : BlockFn} (hf : blockFn s.opc = some f) (r : Reg128) :
    Alike (afterBlock s.opc f s) (afterBlock s.opc f (withLastBlk r s)) := by
  have hlen := blockOut_length hf s
  have heq : afterBlock s.opc f (withLastBlk r s) =
      withLastBlk (setPrefix r (blockOut s.opc f s).1) (afterBlock s.opc f s) := by
    rw [afterBlock, afterRead_withLastBlk]
    rfl
  have hopc : (afterBlock s.opc f s).opc = s.opc := by simp [afterBlock]
  have hlast : (afterBlock s.opc f s).lastBlk = setPrefix s.lastBlk (blockOut s.opc f s).1 := by simp [afterBlock]
  rw [heq]
  refine alike_withLastBlk fun _ _ => ?_
  rw [hopc, hlast, blockOf_setPrefix _ hlen, blockOf_setPrefix _ hlen]

theorem answersAlike_blockStep {s : State} {f : BlockFn} (hf : blockFn s.opc = some f) (r : Reg128) :
    AnswersAlike (blockStep s.opc f s) (blockStep s.opc f (withLastBlk r s)) := by
  cases hr : accessStop s.params .read (inSpan s.opc s).1 (inSpan s.opc s).2 with
  | some e =>
    rw [blockStep_refusedRead f hr, blockStep_refusedRead (s := withLastBlk r s) f hr]
    exact answersAlike_onStop _ r s e
  | none =>
    cases hw : accessStop s.params .write (s.dstAddr.toNat + s.blkI * bs s.opc.cipher)
        (blockOut s.opc f s).1.length with
    | some e =>
      rw [blockStep_refusedWrite hr hw, blockStep_refusedWrite (s := withLastBlk r s) hr hw, afterRead_withLastBlk]
      exact answersAlike_onStop _ r (withChain (blockOut s.opc f s).2 (afterRead (inSpan s.opc s).2 s)) e
    | none =>
      rw [blockStep_served hr hw, blockStep_served (s := withLastBlk r s) hr hw]
      exact .next (alike_afterBlock hf r)

theorem answersAlike_finishUnpadded (i : Instr) (n : Option Nat) (r : Reg128) (s : State) :
    AnswersAlike (finishUnpadded i n s) (finishUnpadded i n (withLastBlk r s)) := by
  cases n with
  | none => exact answersAlike_complete _ _ r s
  | some n => exact answersAlike_complete _ _ r { s with outlen := s.len.toNat - n }

theorem answersAlike_unpadFinish (c : Cipher) (r : Reg128) (s : State) :
    AnswersAlike (unpadFinish c s) (unpadFinish c (withLastBlk r s)) := by
  by_cases hl : s.len.toNat = 0
  · rw [unpadFinish_empty c hl, unpadFinish_empty (s := withLastBlk r s) c hl]
    exact answersAlike_complete _ _ r s
  · cases hr : accessStop s.params .read (lastBlockAddr c s) (bs c) with
    | some e =>
      rw [unpadFinish_refused hl hr, unpadFinish_refused (s := withLastBlk r s) hl hr]
      exact answersAlike_onStop _ r s e
    | none =>
      rw [unpadFinish_served hl hr, unpadFinish_served (s := withLastBlk r s) hl hr, afterRead_withLastBlk]
      exact answersAlike_finishUnpadded _ _ r _

/-- The padding check of a decryption reads its block of LASTBLK, and that only when there was a block (rule R102). -/
theorem unpadCheckBlock_congr {t t' : List Byte} {nblk : Nat} (h : nblk ≠ 0 → t' = t) (b : Nat) :
    unpadCheckBlock t' nblk b = unpadCheckBlock t nblk b := by
  by_cases hn : nblk = 0
  · simp [unpadCheckBlock, hn]
  · rw [h hn]

theorem answersAlike_finishDecrypt {i : Instr} {r : Reg128} {s : State}
    (h : s.nblk ≠ 0 → blockOf i.cipher r = blockOf i.cipher s.lastBlk) :
    AnswersAlike (finishDecrypt i s) (finishDecrypt i (withLastBlk r s)) := by
  have hcheck := unpadCheckBlock_congr h (bs i.cipher)
  unfold finishDecrypt
  split
  · change AnswersAlike _ (finishUnpadded i (unpadCheckBlock (blockOf i.cipher r) s.nblk _) (withLastBlk r s))
    rw [hcheck]
    exact answersAlike_finishUnpadded i _ r s
  · exact answersAlike_complete _ _ r s

/-- Of the finish steps only a decryption's reads LASTBLK (rules R106, R121, R135). -/
theorem answersAlike_finishStep {i : Instr} {r : Reg128} {s : State}
    (h : ∀ f, blockFn i = some f → s.nblk ≠ 0 → blockOf i.cipher r = blockOf i.cipher s.lastBlk) :
    AnswersAlike (finishStep i s) (finishStep i (withLastBlk r s)) := by
  cases i with
  | nop | pad | ecbEnc | cbcEnc => exact answersAlike_complete _ _ r s
  | unpad c => exact answersAlike_unpadFinish c r s
  | ecbDec | cbcDec => exact answersAlike_finishDecrypt (h _ rfl)
  | genIv c =>
    exact answersAlike_complete _ _ r
      (drew (bs c) { s with iv := zeroExtended (drawn s (bs c)), ivWr := ivMask c })

theorem Alike.exec {s s' : State} (h : Alike s s') (hb : s.seq ≠ .idle) :
    AnswersAlike (exec s.opc s) (exec s'.opc s') := by
  obtain ⟨r, rfl, hlast⟩ := h.exists_lastBlk hb
  change AnswersAlike _ (Machine.exec s.opc (withLastBlk r s))
  by_cases hs : s.seq = .finish ∨ (s.seq = .run ∧ blockFn s.opc = none)
  · rw [exec_finishStep hs, exec_finishStep (s := withLastBlk r s) hs]
    refine answersAlike_finishStep fun f hf => hlast (hs.resolve_right fun hn => ?_)
    rw [hf] at hn
    cases hn.2
  · obtain ⟨hfinish, hnone⟩ := not_or.1 hs
    have hrun : s.seq = .run := by
      cases hseq : s.seq with
      | idle => exact absurd hseq hb
      | run => rfl
      | finish => exact absurd hseq hfinish
    obtain ⟨f, hf⟩ := Option.ne_none_iff_exists'.1 fun hn => hnone ⟨hrun, hn⟩
    rw [exec_run hf hrun, exec_run (s := withLastBlk r s) hf hrun]
    exact answersAlike_blockStep hf r

/-! ### Every step and every run -/

/-- Reset reads OPC and nblk of a running command only, and sets the hidden registers. -/
theorem Alike.assertReset_eq {s s' : State} (h : Alike s s') : Machine.assertReset s' = Machine.assertReset s := by
  by_cases hi : s.seq = .idle
  · have hb : s.busy = false := busy_eq_false.2 hi
    have hb' : s'.busy = false := h.busy_eq.trans hb
    obtain ⟨k, _, rfl⟩ := h
    simp only [Machine.assertReset, hb, hb', Bool.false_eq_true, if_false]
    rfl
  · have hb : s.busy = true := busy_eq_true.2 hi
    have hb' : s'.busy = true := h.busy_eq.trans hb
    obtain ⟨r, rfl, _⟩ := h.exists_lastBlk hi
    simp only [Machine.assertReset, hb, hb', if_true]
    rfl

theorem Alike.refl (s : State) : Alike s s := ⟨s.hidden, ⟨fun _ => ⟨rfl, rfl, rfl, rfl⟩, fun _ _ => rfl⟩, rfl⟩

theorem Alike.hostTurn {s s' : State} (h : Alike s s') : AnswersAlike (hostTurn s) (hostTurn s') := by
  have hprog : s'.hostProg = s.hostProg := by
    obtain ⟨k, _, rfl⟩ := h
    rfl
  unfold Machine.hostTurn
  rw [hprog]
  split
  · exact .next h
  · next op rest _ =>
    exact (h.map (g := fun u => { u with hostProg := rest }) fun _ => ⟨fun _ => rfl, rfl⟩).hostOp op

theorem Alike.engineTurn {s s' : State} (h : Alike s s') : AnswersAlike (engineTurn s) (engineTurn s') := by
  unfold Machine.engineTurn
  rw [h.busy_eq]
  split
  · next hb => exact h.exec (busy_eq_true.1 hb)
  · exact .next h

theorem Alike.turn {s s' : State} (h : Alike s s') (a : Agent) : AnswersAlike (turn a s) (turn a s') := by
  cases a with
  | host => exact h.hostTurn
  | engine => exact h.engineTurn
  | reset =>
    simp only [Machine.turn, h.assertReset_eq]
    exact .next (.refl _)

theorem Alike.step {s s' : State} (h : Alike s s') : AnswersAlike (step s) (step s') := by
  have hsched : s'.sched = s.sched := by
    obtain ⟨k, _, rfl⟩ := h
    rfl
  unfold Machine.step
  rw [hsched]
  split
  · rw [idleAgent, idleAgent, h.busy_eq]
    exact h.turn _
  · next a rest _ => exact (h.map (g := fun u => { u with sched := rest }) fun _ => ⟨fun _ => rfl, rfl⟩).turn a

theorem Alike.runs {s s' : State} (h : Alike s s') (n : Nat) : AnswersAlike (runs n s) (runs n s') := by
  induction n generalizing s s' with
  | zero => exact .next h
  | succ n ih =>
    intro t ht
    cases hs : Machine.step s with
    | next u =>
      obtain ⟨u', hs', hu⟩ := h.step u hs
      rw [runs_succ hs] at ht
      rw [runs_succ hs']
      exact ih hu t ht
    | fault | refused =>
      rw [Machine.runs, hs] at ht
      cases ht

theorem sameVisible_iff {s t : State} : SameVisible s t ↔ ∃ k, t = withHidden k s :=
  ⟨fun h => ⟨t.hidden, h⟩, fun ⟨_, h⟩ => h ▸ rfl⟩

end Sys2Proof.Machine

section
open Sys2Proof Sys2Proof.Machine

/-- Settles O13, by induction over the run: `Alike` holds of such idle states, and no step tells its two states apart. -/
theorem hiddenStateNeverShows : Obligations.HiddenStateNeverShows := by
  intro s s' t n hi hv ht
  obtain ⟨k, rfl⟩ := sameVisible_iff.1 hv
  obtain ⟨t', ht', k', _, hk⟩ := (alike_of_idle hi k).runs n t ht
  exact ⟨t', ht', sameVisible_iff.2 ⟨k', hk⟩⟩

end

/-! ## The life of a command (40_command_lifecycle.md rules R80 to R97) -/

namespace Sys2Proof.Machine

/-! ### Every step answers a next state (rule R97) -/

theorem cmdWrite_next {s : State} (hi : s.seq = .idle) (w : Word) : ∃ t, cmdWrite w s = .next t := by
  rcases cmdWrite_idle hi (w := w) with ⟨i, _, h⟩ | ⟨_, h⟩ <;> exact ⟨_, h⟩

theorem regWrite_next (off : BitVec 8) (size : BusSize) (w : Word) (s : State) :
    ∃ t, regWrite off size w s = .next t := by
  rcases regWrite_cases off size w s with h | ⟨_, h⟩ | ⟨hi, h⟩ | ⟨r, _, _, h⟩
  · exact ⟨_, h⟩
  · exact ⟨_, h⟩
  · rw [h]
    exact cmdWrite_next (s := respond .ack s) hi w
  · exact ⟨_, h⟩

/-- The host's transactions answer a next state from every state: only the engine can stop the model. -/
theorem hostOp_next (op : HostOp) (s : State) : ∃ t, hostOp op s = .next t := by
  rcases hostOp_cases op s with ⟨off, size, w, h⟩ | ⟨a, b, h⟩ | ⟨a, h⟩ | ⟨r, n, p, h⟩
  · rw [h]
    exact regWrite_next off size w s
  · exact ⟨_, h⟩
  · exact ⟨_, h⟩
  · exact ⟨_, h⟩

/-- A running command's step answers a next state, whether it has block steps to go or only its finish step. -/
theorem RunningInv.exec_next {s : State} (h : RunningInv s) (hb : s.seq ≠ .idle) : ∃ t, exec s.opc s = .next t := by
  have hrem := h.remaining hb
  cases hr : s.nblk - s.blkI with
  | zero =>
    rw [hr] at hrem
    obtain ⟨t, ht, _⟩ := hrem.exec_zero
    exact ⟨t, ht⟩
  | succ r =>
    rw [hr] at hrem
    obtain ⟨t, ht, _⟩ := hrem.exec_succ
    exact ⟨t, ht⟩

theorem Inv.turn_next {s : State} (h : Inv s) (a : Agent) : ∃ t, Machine.turn a s = .next t := by
  rcases turn_cases a s with ht | ⟨op, rest, _, ht⟩ | ⟨hb, ht⟩ | ht
  · exact ⟨_, ht⟩
  · rw [ht]
    exact hostOp_next op _
  · rw [ht]
    exact (h.running hb).exec_next hb
  · exact ⟨_, ht⟩

theorem Inv.step_next {s : State} (h : Inv s) : ∃ t, Machine.step s = .next t := by
  rcases step_cases s with ⟨_, hs⟩ | ⟨a, rest, _, hs⟩ <;> rw [hs]
  · exact h.turn_next _
  · have hrest : Inv { s with sched := rest } := h.sameCommand rfl
    exact hrest.turn_next a

/-- The engine's turn while idle, named by the schedule (rule R97). -/
theorem step_engine_idle {s : State} {turns : List Agent} (hi : s.seq = .idle) (h : s.sched = .engine :: turns) :
    step s = .next { s with sched := turns } := by
  have hb : ({ s with sched := turns } : State).busy = false := busy_eq_false.2 hi
  simp [step, h, turn, engineTurn, hb]

/-! ### The checks of acceptance in the words of rules R84 to R86 -/

/-- The IV words a block of the cipher needs: all four for C128, the first two for C64 (rule R85). -/
theorem ivPresent_eq_false {c : Cipher} {v : BitVec 4} :
    ivPresent c v = false ↔ (c = .c128 ∧ v ≠ 0b1111#4) ∨ (c = .c64 ∧ v.extractLsb' 0 2 ≠ 0b11#2) := by
  cases c <;> revert v <;> decide

theorem rangeOK_eq_false {c : Cipher} {d : Derived} {src dst len : Nat} :
    rangeOK c d src dst len = false ↔ (d.usesSrc = true ∧ 4294967296 < src + len) ∨
      (d.writesDst = true ∧ 4294967296 < dst + d.nblk * bs c) ∨ 4294967295 < d.nblk * bs c := by
  rw [← Bool.not_eq_true, rangeOK_iff]
  simp only [not_and_or, Classical.not_imp, Nat.not_le]
  rfl

/-- The checks 2 to 4 of a command, in their order, as the rules write them. -/
theorem acceptError_eq (i : Instr) (s : State) :
    acceptError i (derive i s.len.toNat) s =
      if (derive i s.len.toNat).aligned = true ∧ s.len.toNat % bs i.cipher ≠ 0 then .invalidBlockAlignment
      else if i.isCbc = true ∧ (i.cipher = .c128 ∧ s.ivWr ≠ 0b1111#4 ∨
          i.cipher = .c64 ∧ s.ivWr.extractLsb' 0 2 ≠ 0b11#2) then .missingIV
      else if ((derive i s.len.toNat).usesSrc = true ∧ 4294967296 < s.srcAddr.toNat + s.len.toNat) ∨
          ((derive i s.len.toNat).writesDst = true ∧
            4294967296 < s.dstAddr.toNat + (derive i s.len.toNat).nblk * bs i.cipher) ∨
          4294967295 < (derive i s.len.toNat).nblk * bs i.cipher then .rangeError
      else .none := by
  simp only [acceptError, derive_needsIV, Bool.not_eq_true, ivPresent_eq_false, rangeOK_eq_false]

/-- What every rejection leaves (rules R81, R92): the outcome with its code, no length, no index, and all else but IV_WR
as it was. -/
structure Rejected (code : ErrCode) (s t : State) : Prop where
  completed : CompletedWith code t
  outLen : t.outLen = 0
  blkIdx : t.blkIdx = 0
  blkI : t.blkI = 0
  mem : t.mem = s.mem
  chain : t.chain = s.chain
  iv : t.iv = s.iv
  faultSet : t.faultSet = s.faultSet
  setup : SameSetup s t

theorem rejected_acceptIllegal (s : State) : Rejected .illegalCommand s (acceptIllegal s) := by
  constructor <;> simp [acceptIllegal_eq, CompletedWith, SameSetup]

theorem rejected_complete {i : Instr} {code : ErrCode} (hn : code ≠ .none) (hb : code ≠ .busError) (d : Derived)
    (s : State) : Rejected code s (complete (some i) code (latch i d (clearOutcome s))) := by
  rw [complete_closed hb rfl]
  constructor <;> simp [hn, CompletedWith, SameSetup]

/-- MissingIV is what an aligned CBC command gets when IV_WR is clear (rule R85). -/
theorem acceptError_missingIV {i : Instr} {s : State} (hc : i.isCbc = true) (hv : s.ivWr = 0)
    (ha : (derive i s.len.toNat).aligned = true → s.len.toNat % bs i.cipher = 0) :
    acceptError i (derive i s.len.toNat) s = .missingIV := by
  have halign : ¬((derive i s.len.toNat).aligned = true ∧ s.len.toNat % bs i.cipher ≠ 0) := fun h => h.2 (ha h.1)
  have hiv : ivPresent i.cipher s.ivWr = false := by
    rw [hv]
    cases i.cipher <;> rfl
  rw [acceptError, if_neg halign, if_pos ⟨(derive_needsIV ..).trans hc, by simp [hiv]⟩]

/-! ### Completions of CBC commands clear IV_WR (rule R92) -/

theorem complete_cbc_ivWr {i : Instr} (hc : i.isCbc = true) (code : ErrCode) (s : State) :
    (complete (some i) code s).ivWr = 0 := by
  simp [ivWrAfter, hc]

theorem start_busy (i : Instr) (d : Derived) (s : State) : (start i d s).seq ≠ .idle := by
  rw [start_seq]
  split <;> simp

/-- A transition of a present command that ends idle has completed it: rejected, ended early, or finished. -/
theorem exec_completes {i : Instr} {s t : State} (hw : i.wellFormed s.params = true) (h : exec i s = .next t)
    (hi : t.seq = .idle) : ∃ code s', t = complete (some i) code s' := by
  by_cases hs : s.seq = .idle
  · rw [exec_idle i hs] at h
    cases h
    by_cases he : acceptError i (derive i s.len.toNat) s = .none
    · rw [accept_started hw he] at hi
      exact absurd hi (start_busy _ _ _)
    · exact ⟨_, _, accept_rejected hw he⟩
  · rcases exec_busy_cases hs h with ⟨f, _, rfl⟩ | ⟨code, s', ht, _⟩
    · exact absurd hi (afterBlock_busy i f s)
    · exact ⟨code, s', ht⟩

/-! ### The finish step that only completes (rule R90) -/

/-- A plain finish step of a command whose data is not open: OUT_LEN takes the latched length. -/
theorem exec_finishPlain {i : Instr} {s : State} (hs : s.seq = .finish) (hp : finishStep i s = finishPlain i s)
    (ho : s.dstOpen = false) : exec i s = .next (setOutcome (some i) .none s) := by
  rw [exec_finishStep (Or.inl hs), hp, finishPlain, complete_closed (by decide) ho]

end Sys2Proof.Machine

section
open Sys2Proof Sys2Proof.Machine

/-- Settles O9: the host's transactions never stop, and the invariant keeps a running command's accesses inside the
address space. -/
theorem invariantStepNeverStops : Obligations.InvariantStepNeverStops := fun _ h => h.step_next

/-- Settles O6: BUSY decides what the engine's turn is. -/
theorem engineTurnRunsTheLatchedCommand : Obligations.EngineTurnRunsTheLatchedCommand :=
  fun _ _ => ⟨fun hb hs => step_engine hs hb, step_engine_idle⟩

/-- Settles O29: acceptance makes the checks in this order, and each rejection leaves the same. -/
theorem rejectionsComeInOrder : Obligations.RejectionsComeInOrder := by
  intro i s hi d code hc
  rw [exec_idle i hi]
  cases hw : i.wellFormed s.params with
  | false =>
    have hcode : code = .illegalCommand := if_pos hw
    have h := rejected_acceptIllegal s
    rw [accept_illegal hw, hcode]
    exact ⟨_, rfl, h.completed, h.outLen, h.blkIdx, h.blkI, h.mem, h.chain, h.iv, h.faultSet, h.setup,
      by simp [acceptIllegal_eq]⟩
  | true =>
    have hcode : code = acceptError i (derive i s.len.toNat) s := by
      rw [acceptError_eq]
      exact if_neg (by simp [hw])
    have hne : code ≠ .illegalCommand := by
      rw [hcode, acceptError_eq]
      split_ifs <;> simp
    have h := rejected_complete (i := i) hc (hcode ▸ acceptError_ne_busError _ _ _) d s
    rw [accept_rejected hw (hcode ▸ hc), ← hcode]
    refine ⟨_, rfl, h.completed, h.outLen, h.blkIdx, h.blkI, h.mem, h.chain, h.iv, h.faultSet, h.setup, ?_⟩
    cases hcbc : i.isCbc with
    | true => rw [complete_cbc_ivWr hcbc, if_pos ⟨rfl, hne⟩]
    | false => simp [ivWrAfter, hcbc]

/-- Settles O30: acceptance latches and starts the command; CHAIN is the IV's block for CBC. -/
theorem acceptedCommandsStart : Obligations.AcceptedCommandsStart := by
  intro i s h
  refine ⟨_, exec_idle i h.idle, ?_⟩
  rw [accept_of_accepts h]
  refine ⟨rfl, rfl, rfl, rfl, rfl, rfl, rfl, rfl, rfl, rfl, rfl, rfl,
    ⟨rfl, rfl, rfl, rfl, rfl, rfl, rfl, rfl, rfl, rfl⟩, fun hc => ?_, fun hc => ?_⟩
  · simp [chainAtStart, hc]
  · have hchain : chainAtStart i s = zeroExtended (blockOf i.cipher s.iv) := by simp [chainAtStart, hc]
    change regBytes (chainAtStart i s) = _
    rw [hchain, regBytes_zeroExtended (by simpa using bs_le i.cipher), blockOf_length]
    rfl

/-- Settles O45: an idle state after the transition is a completion, and IV_WR = 0 fails the check for the IV. -/
theorem cbcCommandsConsumeTheIv : Obligations.CbcCommandsConsumeTheIv := by
  intro i s t hc hw h hi
  obtain ⟨code, s', rfl⟩ := exec_completes hw h hi
  have hv := complete_cbc_ivWr hc code s'
  refine ⟨hv, fun j hj hwj ha => ?_⟩
  have he := acceptError_missingIV hj hv ha
  refine ⟨_, exec_idle j hi, ?_⟩
  rw [accept_rejected hwj (by rw [he]; decide), he]
  exact completedWith_complete ..

/-- Settles O38: the finish steps of these commands only complete. -/
theorem plainFinishCompletes : Obligations.PlainFinishCompletes := by
  intro c p i s hm hs ho
  have hp : finishStep i s = finishPlain i s := by
    simp only [List.mem_cons, List.not_mem_nil, or_false] at hm
    rcases hm with rfl | rfl | rfl | rfl | rfl | rfl <;> rfl
  refine ⟨_, exec_finishPlain hs hp ho, ?_⟩
  simp [CompletedWith, SameSetup, ivWrAfter]

/-- Settles O53: NOP comes to its finish step, changed on the host's side only, and that step only completes. -/
theorem nopCompletesWithNoEffect : Obligations.NopCompletesWithNoEffect := by
  intro l rest s hi h
  have ha : Accepts .nop s := ⟨hi, rfl, nofun, nofun, nofun, nofun, by simp [derive, derivedNoBuffer]⟩
  obtain ⟨w, p, hp, hprog, hrun⟩ := exists_ready_of_no_blockFn (i := .nop) rfl ha h
  obtain ⟨irqEn, wign, draws, hostProg, sched, obs, rfl⟩ := hp.exists_eq
  refine ⟨_, hrun _ (exec_finishPlain rfl rfl rfl), ?_, rfl, rfl, rfl, rfl, rfl, rfl, rfl, ?_, hprog⟩
  · simp [CompletedWith]
  · simp [issued, partialOverlap, derive, derivedNoBuffer]

end

/-! ## The padding codec and its commands (41_padding.md) -/

namespace Sys2Proof.Machine

/-! ### A served block step (rules R53, R54, R88) -/

theorem inSpan_length_le (i : Instr) (s : State) : (inSpan i s).2 ≤ bs i.cipher := by
  cases hp : padsInput i with
  | false => rw [inSpan_aligned hp]
  | true =>
    rw [inSpan_padded hp]
    simp only
    omega

section
variable {i : Instr} {f : BlockFn} {s : State} (h : AtBlock i s) (hf : blockFn i = some f)
include h

theorem AtBlock.block_inside : s.dstAddr.toNat + s.blkI * bs i.cipher + bs i.cipher ≤ addrSpace := by
  have hdst : s.dstAddr.toNat + s.nblk * bs i.cipher ≤ addrSpace := h.dstInside
  have hnext := Nat.mul_le_mul_right (bs i.cipher) (Nat.succ_le_of_lt h.index)
  rw [Nat.succ_mul] at hnext
  omega

include hf

theorem AtBlock.read_served : accessStop s.params .read (inSpan i s).1 (inSpan i s).2 = none := by
  obtain ⟨hstart, hend⟩ := inSpan_bounds hf h.alignedLen (h.context ▸ h.index)
  have hle := inSpan_length_le i s
  have hsrc : s.srcAddr.toNat + s.len.toNat ≤ addrSpace := h.srcInside
  exact accessStop_eq_none.2 ⟨by omega, fun j hj => h.serves.1 _ (by omega) (by omega) (by omega)⟩

theorem AtBlock.write_served :
    accessStop s.params .write (s.dstAddr.toNat + s.blkI * bs i.cipher) (blockOut i f s).1.length = none := by
  rw [blockOut_length hf, accessStop_eq_none]
  exact ⟨h.block_inside, fun j hj => h.serves.2 _ (by omega) (by omega)⟩

theorem AtBlock.exec_eq : exec i s = .next (afterBlock i f s) := by
  rw [exec_run hf h.run, blockStep_served (h.read_served hf) (h.write_served hf)]

/-- The input block of the step is block `I` of the input stream. -/
theorem AtBlock.blockOut_eq : blockOut i f s = f s.key s.chain (block (bs i.cipher) (inStream i s) s.blkI) := by
  have hbytes : engineBytes s (inSpan i s).1 (inSpan i s).2 =
      Memory.readBytes s.mem (inSpan i s).1 (inSpan i s).2 := by simp [engineBytes, h.closed]
  rw [blockOut, hbytes, fillTo_readBytes hf s.mem (h.context ▸ h.index), inStream_eq]

theorem AtBlock.blockWritten : BlockWritten i.cipher s (afterBlock i f s) (blockOut i f s).1 := by
  have hlen := blockOut_length hf s
  have hread : Memory.readBytes (afterBlock i f s).mem (s.dstAddr.toNat + s.blkI * bs i.cipher) (bs i.cipher) =
      (blockOut i f s).1 := by
    have hinside := h.block_inside
    rw [← hlen] at hinside
    simpa [afterBlock, hlen] using readBytes_writeBytes h.memCanonical hinside
  have hlast : blockOf i.cipher (afterBlock i f s).lastBlk = (blockOut i f s).1 := blockOf_setPrefix _ hlen
  refine ⟨hread, sameOutside_afterBlock hf s, hlast, ?_⟩
  rw [afterBlock, afterRead_closed _ h.closed]
  exact ⟨rfl, rfl, rfl, ⟨rfl, rfl, rfl, rfl, rfl, rfl, rfl, rfl, rfl, rfl⟩, rfl, rfl, rfl, rfl, rfl, rfl, rfl, rfl, rfl,
    rfl⟩

end

/-! ### The memory a command leaves (rules R54, R55) -/

theorem inStream_length {i : Instr} {f : BlockFn} (hf : blockFn i = some f) {s : State} (h : Accepts i s) :
    (inStream i s).length = (derive i s.len.toNat).nblk * bs i.cipher := streamIn_length hf s s.mem h.alignedLen

theorem loopOf_out_length {i : Instr} {f : BlockFn} (hf : blockFn i = some f) {s : State} (h : Accepts i s) :
    (loopOf i f s).out.length = (derive i s.len.toNat).nblk * bs i.cipher := by
  rw [loopOf, loop_out_length hf _ _ (inStream_length hf h).ge, List.length_nil, Nat.zero_add]

theorem Ready.readBytes_dst {i : Instr} {f : BlockFn} (hf : blockFn i = some f) {l : List Agent} {rest : List HostOp}
    {s p : State} (hp : Ready i f l rest s p) (h : Accepts i s) (hw : Memory.wf s.mem = true) :
    Memory.readBytes p.mem s.dstAddr.toNat ((derive i s.len.toNat).nblk * bs i.cipher) = (loopOf i f s).out := by
  have hlen := loopOf_out_length hf h
  rw [hp.mem, ← hlen]
  exact readBytes_writeBytes hw (hlen ▸ h.dstInside (derive_of_blockFn hf _).2)

theorem Ready.sameOutside {i : Instr} {f : BlockFn} (hf : blockFn i = some f) {l : List Agent} {rest : List HostOp}
    {s p : State} (hp : Ready i f l rest s p) (h : Accepts i s) :
    SameOutside s p s.dstAddr.toNat ((derive i s.len.toNat).nblk * bs i.cipher) := by
  intro x hx
  rw [hp.mem]
  exact read_writeBytes_out _ _ (by rwa [loopOf_out_length hf h])

/-- The block steps of PAD copy the padded source and leave CHAIN (rule R105). -/
theorem loopOf_pad {c : Cipher} {s : State} (h : Accepts (.pad c) s) :
    (loopOf (.pad c) padBlock s).chain = s.chain ∧ (loopOf (.pad c) padBlock s).out = pad (srcBytes s) (bs c) := by
  have hlen : (pad (srcBytes s) (bs c)).length = (derive (.pad c) s.len.toNat).nblk * bs c := inStream_length rfl h
  obtain ⟨hchain, hout⟩ := loop_pad s.key ⟨chainAtStart (.pad c) s, [], s.lastBlk⟩ hlen.ge
  refine ⟨hchain, hout.trans ?_⟩
  rw [← hlen, List.take_length, List.nil_append]

/-! ### A finish step that checks the padding (rules R90, R106) -/

/-- What a finish step with the result `n` of its padding check leaves, when the data is not open. -/
structure PaddingChecked (i : Instr) (n : Option Nat) (s t : State) : Prop where
  mem : t.mem = s.mem
  chain : t.chain = s.chain
  blkIdx : t.blkIdx = s.blkIdx
  iv : t.iv = s.iv
  ivWr : t.ivWr = if i.isCbc then 0 else s.ivWr
  faultSet : t.faultSet = s.faultSet
  setup : SameSetup s t
  padded : ∀ k, n = some k → CompletedWith .none t ∧ t.outLen = BitVec.ofNat 32 (s.len.toNat - k)
  invalid : n = none → CompletedWith .invalidPadding t ∧ t.outLen = 0

theorem finishUnpadded_checked (i : Instr) (n : Option Nat) {s : State} (ho : s.dstOpen = false) :
    ∃ t, finishUnpadded i n s = .next t ∧ PaddingChecked i n s t := by
  cases n with
  | none =>
    refine ⟨_, rfl, ?_⟩
    rw [complete_closed (by decide) ho]
    constructor <;> simp [SameSetup, CompletedWith, ivWrAfter]
  | some k =>
    refine ⟨_, rfl, ?_⟩
    rw [complete_closed (by decide) (by exact ho)]
    constructor <;> simp [SameSetup, CompletedWith, ivWrAfter]

/-- The check is the one of `PaddedBy`, and it fails on no block. -/
theorem PaddingChecked.of_block {i : Instr} {t : List Byte} {nblk b : Nat} {s u : State} (hb : b = 8 ∨ b = 16)
    (ht : t.length = b) (h : PaddingChecked i (unpadCheckBlock t nblk b) s u) :
    (∀ n, 0 < nblk → PaddedBy t b n → CompletedWith .none u ∧ u.outLen = BitVec.ofNat 32 (s.len.toNat - n)) ∧
      (nblk = 0 ∨ (∀ n, ¬PaddedBy t b n) → CompletedWith .invalidPadding u ∧ u.outLen = 0) :=
  ⟨fun n hn hp => h.padded n (unpadCheckBlock_some hb ht hn.ne' hp),
    fun hn => h.invalid (unpadCheckBlock_none hb ht hn)⟩

theorem lastBlockAddr_add {c : Cipher} {s : State} (h : bs c ≤ s.len.toNat) :
    lastBlockAddr c s + bs c = s.srcAddr.toNat + s.len.toNat :=
  Nat.sub_add_cancel (h.trans (Nat.le_add_left _ _))

/-- UNPAD's finish step when its read is served, the empty source included (rules R106, R107). -/
theorem unpadFinish_checked {c : Cipher} {s : State} (ho : s.dstOpen = false)
    (hr : s.len.toNat ≠ 0 → accessStop s.params .read (lastBlockAddr c s) (bs c) = none) :
    ∃ t, unpadFinish c s = .next t ∧ PaddingChecked (.unpad c)
      (unpadCheckBlock (Memory.readBytes s.mem (lastBlockAddr c s) (bs c)) (s.len.toNat / bs c) (bs c)) s t := by
  by_cases hl : s.len.toNat = 0
  · rw [unpadFinish_empty c hl, hl, Nat.zero_div]
    exact finishUnpadded_checked (.unpad c) none ho
  · rw [unpadFinish_served hl (hr hl), afterRead_closed _ ho, engineBytes, ho]
    exact finishUnpadded_checked _ _ ho

/-- A read of UNPAD with a refused byte ends it with BusError. -/
theorem unpadFinish_busError {c : Cipher} {s : State} (hl : s.len.toNat ≠ 0)
    (hin : lastBlockAddr c s + bs c ≤ addrSpace)
    (hr : ∃ j, j < bs c ∧ memOK s.params (lastBlockAddr c s + j) .read = false) :
    unpadFinish c s = .next (complete (some (.unpad c)) .busError s) := by
  obtain ⟨e, he⟩ := Option.ne_none_iff_exists'.1 (accessStop_ne_none hr)
  rw [unpadFinish_refused hl he]
  cases e with
  | bus => rfl
  | outside => exact absurd he (accessStop_ne_outside hin)

/-! ### The codec (rules R100 to R104) -/

/-- The check of the last block is the check of the whole buffer (rule R102). -/
theorem unpad_eq_map_unpadCheckBlock {l : List Byte} {nblk b : Nat} (hb : 0 < b) (hl : l.length = nblk * b) :
    unpad l b = (unpadCheckBlock (l.drop (l.length - b)) nblk b).map (fun n => l.take (l.length - n)) := by
  unfold unpad unpadCheckBlock
  by_cases hn : nblk = 0
  · simp [hn, hl]
  have hle : b ≤ l.length := hl ▸ Nat.le_mul_of_pos_left b (Nat.pos_of_ne_zero hn)
  have hlast : (l.drop (l.length - b)).getD (b - 1) 0 = l.getD (l.length - 1) 0 := by
    rw [List.getD_eq_getElem?_getD, List.getElem?_drop, List.getD_eq_getElem?_getD]
    congr 2
    omega
  have htake : (l.drop (l.length - b)).take b = l.drop (l.length - b) := List.take_of_length_le (by simp; omega)
  rw [if_neg (by omega), if_neg hn]
  simp only [hlast, htake, List.drop_drop]
  generalize (l.getD (l.length - 1) 0).toNat = n
  by_cases hbad : n = 0 ∨ b < n
  · rw [if_pos (by omega), if_pos hbad, Option.map_none]
  · rw [if_neg (by omega), if_neg hbad, show l.length - b + (b - n) = l.length - n by omega]
    split <;> rfl

/-- The source of UNPAD ends in the block that its finish step reads. -/
theorem drop_srcBytes {c : Cipher} {s : State} (h : bs c ≤ s.len.toNat) :
    (srcBytes s).drop (s.len.toNat - bs c) = Memory.readBytes s.mem (lastBlockAddr c s) (bs c) := by
  have hsplit := readBytes_append s.mem s.srcAddr.toNat (s.len.toNat - bs c) (bs c)
  rw [Nat.sub_add_cancel h, ← Nat.add_sub_assoc h] at hsplit
  rw [srcBytes, hsplit, List.drop_left' (readBytes_length ..)]
  rfl

/-- `unpad` of the source, by the check of the block that UNPAD reads. -/
theorem unpad_srcBytes {c : Cipher} {s : State} (h : s.len.toNat % bs c = 0) :
    unpad (srcBytes s) (bs c) =
      (unpadCheckBlock (Memory.readBytes s.mem (lastBlockAddr c s) (bs c)) (s.len.toNat / bs c) (bs c)).map
        (fun n => (srcBytes s).take (s.len.toNat - n)) := by
  by_cases hl : s.len.toNat = 0
  · simp [unpad, unpadCheckBlock, srcBytes, hl]
  · have hle : bs c ≤ s.len.toNat := Nat.le_of_dvd (by omega) (Nat.dvd_of_mod_eq_zero h)
    have hlen : (srcBytes s).length = s.len.toNat := readBytes_length ..
    rw [unpad_eq_map_unpadCheckBlock (bs_pos c) (hlen.trans (Nat.div_mul_cancel (Nat.dvd_of_mod_eq_zero h)).symm),
      hlen, drop_srcBytes hle]

/-- The result UNPAD reports, in the words of `unpad` (rule R106). -/
theorem PaddingChecked.match_unpad {i : Instr} {n : Option Nat} {src : List Byte} {b : Nat} {s t : State}
    (h : PaddingChecked i n s t) (hl : src.length = s.len.toNat)
    (hu : unpad src b = n.map (fun k => src.take (s.len.toNat - k))) :
    match unpad src b with
    | some d => CompletedWith .none t ∧ t.outLen = BitVec.ofNat 32 d.length
    | none => CompletedWith .invalidPadding t ∧ t.outLen = 0 := by
  rw [hu]
  cases n with
  | none => exact h.invalid rfl
  | some k => simpa [hl] using h.padded k rfl

end Sys2Proof.Machine

section
open Sys2Proof Sys2Proof.Machine

/-- Settles O47: the run comes to the finish step with the loop's output in DST, and for PAD that is the padded
stream. -/
theorem padWritesThePaddedCopy : Obligations.PadWritesThePaddedCopy := by
  intro c l rest s hw ha hi n nblk hb hm
  obtain ⟨p, hp, hrun⟩ := exists_ready (i := .pad c) (f := padBlock) rfl ha hi hb hm
  obtain ⟨hchain, hout⟩ := loopOf_pad ha
  have hregion : s.len.toNat + n = (derive (.pad c) s.len.toNat).nblk * bs c := by
    change _ = (s.len.toNat + n) / bs c * bs c
    rw [add_padlen_div _ (bs_pos c), ← add_padlen _ (bs_pos c)]
  have hdst := hp.readBytes_dst rfl ha hw
  refine ⟨_, hrun _ (exec_finishPlain hp.seq rfl hp.closed), ?_, ?_, ?_, ?_, hp.blkIdx, hp.chain.trans hchain, hp.iv,
    hp.ivWr, hp.key, hp.faultSet, hp.hostProg⟩
  · simp [CompletedWith]
  · rw [dstBytes, setOutcome_mem, setOutcome_dstAddr, hp.dstAddr, hregion]
    exact hdst.trans hout
  · rw [hregion]
    exact hp.sameOutside rfl ha
  · exact congrArg (BitVec.ofNat 32) hp.outlen

/-- Settles O32: the output block of PAD is its input block. -/
theorem padBlockStep : Obligations.PadBlockStep := by
  intro c s h
  have hf : blockFn (.pad c) = some padBlock := rfl
  have hout := h.blockOut_eq hf
  have hwritten := h.blockWritten hf
  rw [hout] at hwritten
  exact ⟨_, h.exec_eq hf, hwritten, congrArg Prod.snd hout⟩

/-- Settles O39: the finish step is the padding check of LASTBLK. -/
theorem decryptFinishChecksThePadding : Obligations.DecryptFinishChecksThePadding := by
  intro c i s hi hs ho
  have hfin : exec i s = finishUnpadded i (unpadCheckBlock (blockOf c s.lastBlk) s.nblk (bs c)) s := by
    rw [exec_finishStep (Or.inl hs)]
    rcases hi with rfl | rfl <;> rfl
  obtain ⟨t, ht, hc⟩ := finishUnpadded_checked i (unpadCheckBlock (blockOf c s.lastBlk) s.nblk (bs c)) ho
  exact ⟨t, hfin.trans ht, hc.mem, hc.chain, hc.blkIdx, hc.iv, hc.ivWr, hc.faultSet, hc.setup,
    hc.of_block (bs_eight_or_sixteen c) (blockOf_length c _)⟩

/-- Settles O40: a refused read ends the command with BusError, whose DST region is empty; otherwise the last block of
SRC is checked. -/
theorem unpadFinishChecksThePadding : Obligations.UnpadFinishChecksThePadding := by
  intro c s hs ho hn hsrc hlen
  rw [exec_finishStep (Or.inl hs), finishStep]
  have hin : s.len.toNat ≠ 0 → lastBlockAddr c s + bs c ≤ addrSpace := fun hl => by
    rw [lastBlockAddr_add (hlen.resolve_left hl)]
    exact hsrc
  by_cases hr : s.len.toNat ≠ 0 ∧
      ∃ j, j < bs c ∧ memOK s.params (s.srcAddr.toNat + s.len.toNat - bs c + j) .read = false
  · obtain ⟨hl, hr⟩ := hr
    have hempty : dstLen s = 0 := by rw [dstLen, hn, Nat.zero_mul]
    refine ⟨_, unpadFinish_busError hl (hin hl) hr, fun x => complete_read (by omega), complete_iv .., complete_ivWr ..,
      complete_faultSet .., sameSetup_complete .., ?_⟩
    rw [if_neg hl, if_pos hr]
    exact ⟨completedWith_complete .., by simp⟩
  · have hserved : s.len.toNat ≠ 0 → accessStop s.params .read (lastBlockAddr c s) (bs c) = none := fun hl =>
      accessStop_eq_none.2 ⟨hin hl, fun j hj => Bool.of_not_eq_false fun h => hr ⟨hl, j, hj, h⟩⟩
    obtain ⟨t, ht, hc⟩ := unpadFinish_checked ho hserved
    obtain ⟨hpadded, hinvalid⟩ := hc.of_block (bs_eight_or_sixteen c) (readBytes_length ..)
    refine ⟨t, ht, fun x => by rw [hc.mem], hc.iv, hc.ivWr, hc.faultSet, hc.setup, ?_⟩
    by_cases hl : s.len.toNat = 0
    · obtain ⟨hcode, hout⟩ := hinvalid (Or.inl (by rw [hl, Nat.zero_div]))
      rw [if_pos hl]
      exact ⟨hcode, hout, hc.blkIdx, hc.chain⟩
    · rw [if_neg hl, if_neg fun h => hr ⟨hl, h⟩]
      have hblocks : 0 < s.len.toNat / bs c := Nat.div_pos (hlen.resolve_left hl) (bs_pos c)
      exact ⟨hc.blkIdx, hc.chain, fun n => hpadded n hblocks, fun h => hinvalid (Or.inr h)⟩

/-- Settles O52: UNPAD comes to its finish step, changed on the host's side only, and the check of the last block is
`unpad` of the source. -/
theorem unpadReportsTheUnpaddedLength : Obligations.UnpadReportsTheUnpaddedLength := by
  intro c l rest s ha hi hm
  obtain ⟨w, p, hp, hprog, hrun⟩ := exists_ready_of_no_blockFn (i := .unpad c) rfl ha hi
  obtain ⟨irqEn, wign, draws, hostProg, sched, obs, rfl⟩ := hp.exists_eq
  have hmod : s.len.toNat % bs c = 0 := ha.alignedLen rfl
  have hsrc : s.srcAddr.toNat + s.len.toNat ≤ addrSpace := ha.srcInside rfl
  have hserved : s.len.toNat ≠ 0 → accessStop s.params .read (lastBlockAddr c s) (bs c) = none := fun hl => by
    have hle : bs c ≤ s.len.toNat := Nat.le_of_dvd (by omega) (Nat.dvd_of_mod_eq_zero hmod)
    have hadd := lastBlockAddr_add hle
    exact accessStop_eq_none.2 ⟨hadd ▸ hsrc, fun j hj => hm _ (by omega) (by omega)⟩
  obtain ⟨t, ht, hc⟩ := unpadFinish_checked (c := c) (s := { issued (.unpad c) rest w s with
    irqEn := irqEn, wign := wign, draws := draws, hostProg := hostProg, sched := sched, obs := obs }) rfl hserved
  obtain ⟨_, _, _, _, _, _, hkey, hhost, _⟩ := hc.setup
  refine ⟨t, hrun t ((exec_finishStep (Or.inl rfl)).trans ht), hc.mem, hc.blkIdx, hc.chain, hc.iv, hc.ivWr, hkey, ?_,
    fun h => hhost.trans (hprog h), hc.match_unpad (readBytes_length ..) (unpad_srcBytes hmod)⟩
  rw [hc.faultSet]
  simp [issued, partialOverlap, derive]

/-- Settles O54: the padding is `padlen` bytes, and the padded length is the next multiple of the block size. -/
theorem padLengthLaws : Obligations.PadLengthLaws := by
  intro data b hb
  have hpos : 0 < b := by omega
  obtain ⟨h1, h2⟩ := padlen_bounds data.length hpos
  refine ⟨pad_length_mod data hpos, by rw [pad_length]; omega, ?_, padlen data.length b, h1, h2, by omega,
    pad_length data b, ?_, by simp [pad]⟩
  · rw [pad_length, add_padlen _ hpos, show data.length + 1 + (b - 1) = data.length + b by omega,
      Nat.add_div_right _ hpos]
  · rw [pad, List.getLast?_append, List.getLast?_replicate, if_neg (by omega), Option.some_or]

/-- Settles O55: the padding lengths of these block sizes fit a byte. -/
theorem unpadInvertsPad : Obligations.UnpadInvertsPad :=
  fun data _ hb => unpad_pad data (by omega) (by omega)

/-- Settles O56: both look at the last `n` bytes, the last byte being `n`. -/
theorem lastBlockCheckAgreesWithUnpad : Obligations.LastBlockCheckAgreesWithUnpad :=
  fun _ _ _ hb hl => unpad_eq_map_unpadCheckBlock (by omega) hl

end

/-! ## ECB (42_ecb.md) -/

namespace Sys2Proof.Machine

/-! ### One block (rules R115, R123, R124) -/

/-- Block `i` of the result depends on block `i` of the input alone. -/
theorem block_ecb {f : List Byte → List Byte} {b : Nat} (hb : 0 < b) (hf : ∀ x, (f x).length = b) :
    ∀ l : List Byte, l.length % b = 0 → ∀ i, i < l.length / b → block b (ecb f b l) i = f (block b l i) := by
  refine whole_blocks_induction hb (by simp) fun x y hx _ ih i hi => ?_
  rw [ecb_append f hb y hx]
  cases i with
  | zero => rw [block_first _ (hf x), block_first y hx]
  | succ i =>
    rw [block_later _ (hf x), block_later y hx]
    rw [List.length_append, hx, Nat.add_div_left _ hb] at hi
    exact ih i (Nat.lt_of_succ_lt_succ hi)

theorem block_ecb_enc (c : Cipher) (k : List Byte) {l : List Byte} {n i : Nat} (hl : l.length = n * bs c) (hi : i < n) :
    block (bs c) (ecb (enc c k) (bs c) l) i = enc c k (block (bs c) l i) :=
  block_ecb (bs_pos c) (enc_length c k) l (by rw [hl, Nat.mul_mod_left]) i
    (by rwa [hl, Nat.mul_div_cancel _ (bs_pos c)])

/-- A served block step of an ECB command applies its primitive to the input block (rules R118, R120). -/
theorem AtBlock.exec_ecb {i : Instr} {prim : List Byte → List Byte → List Byte} {s : State} (h : AtBlock i s)
    (hf : blockFn i = some (ecbBlock i.cipher prim)) :
    ∃ t, exec i s = .next t ∧ t.chain = s.chain ∧ BlockWritten i.cipher s t
      (prim (keyOf i.cipher s.key) (block (bs i.cipher) (inStream i s) s.blkI)) := by
  have hout := h.blockOut_eq hf
  have hwritten := h.blockWritten hf
  rw [hout] at hwritten
  exact ⟨_, h.exec_eq hf, congrArg Prod.snd hout, hwritten⟩

/-! ### The memory and the length a whole command leaves (rules R54, R83) -/

/-- The block steps of an ECB command are ECB of its input stream and leave CHAIN (rules R115, R116, R126). -/
theorem loopOf_ecb {i : Instr} {prim : List Byte → List Byte → List Byte} {s : State} (h : Accepts i s)
    (hf : blockFn i = some (ecbBlock i.cipher prim)) (hc : i.isCbc = false) :
    (loopOf i (ecbBlock i.cipher prim) s).chain = s.chain ∧
      (loopOf i (ecbBlock i.cipher prim) s).out = ecb (prim (keyOf i.cipher s.key)) (bs i.cipher) (inStream i s) := by
  obtain ⟨hchain, hout⟩ := loop_ecb i.cipher prim s.key ⟨chainAtStart i s, [], s.lastBlk⟩ (bs i.cipher) (inStream i s)
    (derive i s.len.toNat).nblk
  refine ⟨hchain.trans (by simp [chainAtStart, hc]), hout.trans ?_⟩
  rw [ecb, blocks_of_length (bs_pos i.cipher) (inStream_length hf h), List.nil_append]

/-- The latched output length of a command with block steps is the length of its input stream. -/
theorem derive_outlen_eq_inStream_length {i : Instr} {f : BlockFn} (hf : blockFn i = some f) (s : State) :
    (derive i s.len.toNat).outlen = (inStream i s).length := by
  cases hp : padsInput i with
  | false => simp [derive_aligned hf hp, derivedAligned, inStream, hp, srcBytes]
  | true => simp [derive_padded hp, derivedPadded, inStream, hp, srcBytes]

/-- After a completion that leaves memory, DST holds the loop's output and every other byte is as before. -/
theorem Ready.dstBytes_and_sameOutside {i : Instr} {f : BlockFn} (hf : blockFn i = some f) {l : List Agent}
    {rest : List HostOp} {s p t : State} (hp : Ready i f l rest s p) (h : Accepts i s) (hw : Memory.wf s.mem = true)
    (hmem : t.mem = p.mem) (hdst : t.dstAddr = p.dstAddr) :
    dstBytes t (inStream i s).length = (loopOf i f s).out ∧
      SameOutside s t s.dstAddr.toNat (inStream i s).length := by
  rw [inStream_length hf h, dstBytes, hdst, hp.dstAddr, hmem]
  refine ⟨hp.readBytes_dst hf h hw, fun x hx => ?_⟩
  rw [hmem]
  exact hp.sameOutside hf h x hx

/-! ### The finish step of a decryption (rules R90, R121) -/

/-- The `n` that a decryption's finish step takes off LEN: the padding's, or 0 when PADF = 0. -/
def decryptPadding (i : Instr) (s : State) : Option Nat :=
  if i.padf then unpadCheckBlock (blockOf i.cipher s.lastBlk) s.nblk (bs i.cipher) else some 0

/-- With LEN latched as the output length (rule R83), a plain finish is one that takes nothing off. -/
theorem finishDecrypt_eq_finishUnpadded {i : Instr} {s : State} (h : s.outlen = s.len.toNat) :
    finishDecrypt i s = finishUnpadded i (decryptPadding i s) s := by
  unfold finishDecrypt decryptPadding
  cases i.padf with
  | false => simp [finishPlain, finishUnpadded, ← h]
  | true => rfl

/-- `unpad` of a command's output, by the check of LASTBLK (rule R102). -/
theorem unpad_loopOf_out {i : Instr} {f : BlockFn} (hf : blockFn i = some f) {s : State} (h : Accepts i s) :
    unpad (loopOf i f s).out (bs i.cipher) =
      (unpadCheckBlock (blockOf i.cipher (loopOf i f s).last) (derive i s.len.toNat).nblk (bs i.cipher)).map
        (fun n => (loopOf i f s).out.take ((loopOf i f s).out.length - n)) := by
  have hlen := loopOf_out_length hf h
  rw [unpad_eq_map_unpadCheckBlock (bs_pos i.cipher) hlen]
  cases hn : (derive i s.len.toNat).nblk with
  | zero => rfl
  | succ j =>
    have hstream := inStream_length hf h
    have hlast := loop_last hf s.key ⟨chainAtStart i s, [], s.lastBlk⟩ rfl (hn ▸ hstream.ge)
    rw [← hn] at hlast
    change blockOf i.cipher (loopOf i f s).last = block (bs i.cipher) (loopOf i f s).out j at hlast
    have hdrop : (loopOf i f s).out.length - bs i.cipher = j * bs i.cipher := by
      rw [hlen, hn, Nat.succ_mul, Nat.add_sub_cancel]
    have htake : ((loopOf i f s).out.drop (j * bs i.cipher)).length ≤ bs i.cipher := by
      rw [List.length_drop]
      omega
    rw [hlast, hdrop, block, List.take_of_length_le htake]

section
variable {i : Instr} {f : BlockFn} {l : List Agent} {rest : List HostOp} {s u : State} (hu : Ready i f l rest s u)
  (hf : blockFn i = some f) (hp : padsInput i = false)
include hu hf hp

theorem Ready.out_length (h : Accepts i s) : (loopOf i f s).out.length = u.len.toNat := by
  rw [hu.len, loopOf_out_length hf h, ← inStream_length hf h, inStream, hp, if_neg Bool.false_ne_true, srcBytes,
    readBytes_length]

/-- The engine step of a decryption in FINISH takes the padding off LEN. -/
theorem Ready.exec_decrypt (hd : finishStep i u = finishDecrypt i u) :
    ∃ t, exec i u = .next t ∧ PaddingChecked i (decryptPadding i u) u t := by
  obtain ⟨t, ht, hc⟩ := finishUnpadded_checked i (decryptPadding i u) hu.closed
  have houtlen : u.outlen = u.len.toNat := by
    rw [hu.outlen, hu.len, derive_aligned hf hp]
    rfl
  exact ⟨t, by rw [exec_finishStep (Or.inl hu.seq), hd, finishDecrypt_eq_finishUnpadded houtlen, ht], hc⟩

/-- With PADF = 1 that padding is the one of `unpad`. -/
theorem Ready.unpad_out (h : Accepts i s) (hpadf : i.padf = true) : unpad (loopOf i f s).out (bs i.cipher) =
    (decryptPadding i u).map fun k => (loopOf i f s).out.take (u.len.toNat - k) := by
  rw [unpad_loopOf_out hf h, hu.out_length hf hp h, decryptPadding, if_pos hpadf, hu.lastBlk, hu.nblk]

end

end Sys2Proof.Machine

section
open Sys2Proof Sys2Proof.Machine

/-- Settles O48: the run comes to the finish step with the loop's output in DST, and for ECB_ENC that is ECB of the
input stream. -/
theorem ecbEncWritesTheCiphertext : Obligations.EcbEncWritesTheCiphertext := by
  intro c p l rest s hw ha hi input hb hm
  have hf : blockFn (.ecbEnc c p) = some (ecbBlock c (enc c)) := rfl
  have hlen : input.length = (derive (.ecbEnc c p) s.len.toNat).nblk * bs c := inStream_length hf ha
  obtain ⟨u, hu, hrun⟩ := exists_ready hf ha hi (hlen ▸ hb) (hlen ▸ hm)
  obtain ⟨hchain, hout⟩ := loopOf_ecb ha hf rfl
  obtain ⟨hdst, hrest⟩ :=
    hu.dstBytes_and_sameOutside (t := setOutcome (some (.ecbEnc c p)) .none u) hf ha hw rfl rfl
  refine ⟨_, hrun _ (exec_finishPlain hu.seq rfl hu.closed), ?_, hdst.trans hout, hrest, ?_, ?_, hu.chain.trans hchain,
    hu.iv, hu.ivWr, hu.key, hu.faultSet, hu.hostProg⟩
  · simp [CompletedWith]
  · exact congrArg (BitVec.ofNat 32) (hu.outlen.trans (derive_outlen_eq_inStream_length hf s))
  · rw [hlen, Nat.mul_div_cancel _ (bs_pos c)]
    exact hu.blkIdx

/-- Settles O49: the run comes to the finish step with ECB of the source in DST, and the check of LASTBLK there is
`unpad` of it. -/
theorem ecbDecWritesThePlaintext : Obligations.EcbDecWritesThePlaintext := by
  intro c p l rest s hw ha hi hb hm out
  have hf : blockFn (.ecbDec c p) = some (ecbBlock c (dec c)) := rfl
  have hsrc : (srcBytes s).length = s.len.toNat := readBytes_length ..
  have hlen : s.len.toNat = (derive (.ecbDec c p) s.len.toNat).nblk * bs c := hsrc.symm.trans (inStream_length hf ha)
  obtain ⟨u, hu, hrun⟩ := exists_ready hf ha hi (hlen ▸ hb) (hlen ▸ hm)
  obtain ⟨hchain, hout⟩ : (loopOf (.ecbDec c p) (ecbBlock c (dec c)) s).chain = s.chain ∧
      (loopOf (.ecbDec c p) (ecbBlock c (dec c)) s).out = out := loopOf_ecb ha hf rfl
  obtain ⟨t, hexec, hc⟩ := hu.exec_decrypt hf rfl rfl
  obtain ⟨_, _, _, _, hdstAddr, _, hkey, hhost, _⟩ := hc.setup
  obtain ⟨hdst, hrest⟩ : dstBytes t (srcBytes s).length = _ ∧ SameOutside s t _ (srcBytes s).length :=
    hu.dstBytes_and_sameOutside hf ha hw hc.mem hdstAddr
  rw [hsrc] at hdst hrest
  refine ⟨t, hrun t hexec, hdst.trans hout, hrest, hc.blkIdx.trans hu.blkIdx, hc.chain.trans (hu.chain.trans hchain),
    hc.iv.trans hu.iv, hc.ivWr.trans hu.ivWr, hkey.trans hu.key, hc.faultSet.trans hu.faultSet,
    fun h => hhost.trans (hu.hostProg h), ?_⟩
  cases p with
  | false =>
    obtain ⟨hcode, hreported⟩ := hc.padded 0 rfl
    exact ⟨hcode, by simpa [hu.len] using hreported⟩
  | true => exact hc.match_unpad (hout ▸ hu.out_length hf rfl ha) (hout ▸ hu.unpad_out hf rfl ha rfl)

/-- Settles O33: the input block is a block of the input stream, padded with PADF = 1. -/
theorem ecbEncBlockStep : Obligations.EcbEncBlockStep := fun _ _ _ h => h.exec_ecb rfl

/-- Settles O34: the input stream of a decryption is the source. -/
theorem ecbDecBlockStep : Obligations.EcbDecBlockStep := fun _ _ _ h => h.exec_ecb rfl

/-- Settles O58: block `i` of either encryption is Enc of the same block. -/
theorem ecbBlocksAreIndependent : Obligations.EcbBlocksAreIndependent := by
  intro c k p q n place hp hq hplace i hi
  obtain ⟨hlt, hsame⟩ := hplace i hi
  rw [block_ecb_enc c k hq hi, block_ecb_enc c k hp hlt, hsame]
  exact ⟨rfl, rfl⟩

end

/-! ## CBC and the IV (43_cbc.md) -/

namespace Sys2Proof.Machine

/-! ### One block (rules R128, R133) -/

theorem AtBlock.input_block_length {i : Instr} {f : BlockFn} {s : State} (h : AtBlock i s) (hf : blockFn i = some f) :
    (block (bs i.cipher) (inStream i s) s.blkI).length = bs i.cipher := by
  apply block_length
  rw [inStream_eq, streamIn_length hf s s.mem h.alignedLen, ← h.context]
  exact Nat.mul_le_mul_right _ h.index

/-- A served block step writes the first result of the block function and leaves the second in CHAIN (rule R88). -/
theorem AtBlock.exec_blockFn {i : Instr} {f : BlockFn} {s : State} (h : AtBlock i s) (hf : blockFn i = some f) :
    ∃ t, exec i s = .next t ∧
      BlockWritten i.cipher s t (f s.key s.chain (block (bs i.cipher) (inStream i s) s.blkI)).1 ∧
      t.chain = (f s.key s.chain (block (bs i.cipher) (inStream i s) s.blkI)).2 := by
  rw [← h.blockOut_eq hf]
  exact ⟨_, h.exec_eq hf, h.blockWritten hf, rfl⟩

/-- Storing a block in CHAIN keeps the bytes after it. -/
theorem regBytes_setPrefix_block {c : Cipher} (r : Reg128) {y : List Byte} (hy : y.length = bs c) :
    regBytes (setPrefix r y) = y ++ (regBytes r).drop (bs c) := by
  rw [regBytes_setPrefix r (hy.trans_le (bs_le c)), hy]

/-! ### The blocks of a whole command (rules R127, R131) -/

/-- A CBC command starts its chain with the IV (rule R87). -/
theorem blockOf_chainAtStart {i : Instr} (hc : i.isCbc = true) (s : State) :
    blockOf i.cipher (chainAtStart i s) = blockOf i.cipher s.iv := by
  rw [chainAtStart, if_pos hc, blockOf_zeroExtended (blockOf_length ..)]

/-- The block steps of CBC_ENC are `CBC_encrypt` of its input stream under the IV. -/
theorem loopOf_cbcEnc {c : Cipher} {p : Bool} {s : State} (h : Accepts (.cbcEnc c p) s) :
    let r := cbcEncrypt (enc c (keyOf c s.key)) (bs c) (blockOf c s.iv) (inStream (.cbcEnc c p) s)
    (loopOf (.cbcEnc c p) (cbcEncBlock c (enc c)) s).out = r.1 ∧
      blockOf c (loopOf (.cbcEnc c p) (cbcEncBlock c (enc c)) s).chain = r.2 := by
  have hiv : blockOf c (chainAtStart (.cbcEnc c p) s) = blockOf c s.iv :=
    blockOf_chainAtStart (i := .cbcEnc c p) rfl s
  rw [cbcEncrypt, blocks_of_length (bs_pos c) (inStream_length rfl h), ← hiv]
  exact loop_cbcEnc c s.key ⟨_, [], s.lastBlk⟩ _ _

/-- The block steps of CBC_DEC are `CBC_decrypt` of the source under the IV. -/
theorem loopOf_cbcDec {c : Cipher} {p : Bool} {s : State} (h : Accepts (.cbcDec c p) s) :
    let r := cbcDecrypt (dec c (keyOf c s.key)) (bs c) (blockOf c s.iv) (srcBytes s)
    (loopOf (.cbcDec c p) (cbcDecBlock c (dec c)) s).out = r.1 ∧
      blockOf c (loopOf (.cbcDec c p) (cbcDecBlock c (dec c)) s).chain = r.2 := by
  have hlen : (srcBytes s).length = (derive (.cbcDec c p) s.len.toNat).nblk * bs c := inStream_length rfl h
  have hiv : blockOf c (chainAtStart (.cbcDec c p) s) = blockOf c s.iv :=
    blockOf_chainAtStart (i := .cbcDec c p) rfl s
  rw [cbcDecrypt, blocks_of_length (bs_pos c) hlen, ← hiv]
  exact loop_cbcDec c s.key ⟨_, [], s.lastBlk⟩ hlen.ge

/-! ### The report of a decryption (rule R135) -/

/-- The code and OUT_LEN that a decryption's finish step reports, in the words of `unpad`. -/
theorem Ready.decrypt_report {i : Instr} {f : BlockFn} {l : List Agent} {rest : List HostOp} {s u t : State}
    (hu : Ready i f l rest s u) (hf : blockFn i = some f) (hp : padsInput i = false) (h : Accepts i s)
    (hc : PaddingChecked i (decryptPadding i u) u t) :
    if i.padf then
      (match unpad (loopOf i f s).out (bs i.cipher) with
        | some d => CompletedWith .none t ∧ t.outLen = BitVec.ofNat 32 d.length
        | none => CompletedWith .invalidPadding t ∧ t.outLen = 0)
    else CompletedWith .none t ∧ t.outLen = s.len := by
  cases hpadf : i.padf with
  | false =>
    obtain ⟨hcode, hreported⟩ := hc.padded 0 (by simp [decryptPadding, hpadf])
    exact ⟨hcode, by simpa [hu.len] using hreported⟩
  | true => exact hc.match_unpad (hu.out_length hf hp h) (hu.unpad_out hf hp h hpadf)

end Sys2Proof.Machine

section
open Sys2Proof Sys2Proof.Machine

/-- Settles O50: the run comes to the finish step with the loop's output in DST and its chain value in CHAIN, and for
CBC_ENC these are the two results of `CBC_encrypt`. -/
theorem cbcEncWritesTheCiphertext : Obligations.CbcEncWritesTheCiphertext := by
  intro c p l rest s hw ha hi input hb hm r
  have hf : blockFn (.cbcEnc c p) = some (cbcEncBlock c (enc c)) := rfl
  have hlen : input.length = (derive (.cbcEnc c p) s.len.toNat).nblk * bs c := inStream_length hf ha
  obtain ⟨u, hu, hrun⟩ := exists_ready hf ha hi (hlen ▸ hb) (hlen ▸ hm)
  obtain ⟨hout, hchain⟩ := loopOf_cbcEnc ha
  obtain ⟨hdst, hrest⟩ :=
    hu.dstBytes_and_sameOutside (t := setOutcome (some (.cbcEnc c p)) .none u) hf ha hw rfl rfl
  refine ⟨_, hrun _ (exec_finishPlain hu.seq rfl hu.closed), ?_, hdst.trans hout,
    (congrArg (blockOf c) hu.chain).trans hchain, hrest, ?_, ?_, hu.iv, rfl, hu.key, hu.faultSet, hu.hostProg⟩
  · simp [CompletedWith]
  · exact congrArg (BitVec.ofNat 32) (hu.outlen.trans (derive_outlen_eq_inStream_length hf s))
  · rw [hlen, Nat.mul_div_cancel _ (bs_pos c)]
    exact hu.blkIdx

/-- Settles O51: the run comes to the finish step with `CBC_decrypt` of the source in DST and CHAIN, and the check of
LASTBLK there is `unpad` of it. -/
theorem cbcDecWritesThePlaintext : Obligations.CbcDecWritesThePlaintext := by
  intro c p l rest s hw ha hi hb hm r
  have hf : blockFn (.cbcDec c p) = some (cbcDecBlock c (dec c)) := rfl
  have hsrc : (srcBytes s).length = s.len.toNat := readBytes_length ..
  have hlen : s.len.toNat = (derive (.cbcDec c p) s.len.toNat).nblk * bs c := hsrc.symm.trans (inStream_length hf ha)
  obtain ⟨u, hu, hrun⟩ := exists_ready hf ha hi (hlen ▸ hb) (hlen ▸ hm)
  obtain ⟨hout, hchain⟩ : (loopOf (.cbcDec c p) (cbcDecBlock c (dec c)) s).out = r.1 ∧ _ := loopOf_cbcDec ha
  obtain ⟨t, hexec, hc⟩ := hu.exec_decrypt hf rfl rfl
  obtain ⟨_, _, _, _, hdstAddr, _, hkey, hhost, _⟩ := hc.setup
  obtain ⟨hdst, hrest⟩ : dstBytes t (srcBytes s).length = _ ∧ SameOutside s t _ (srcBytes s).length :=
    hu.dstBytes_and_sameOutside hf ha hw hc.mem hdstAddr
  rw [hsrc] at hdst hrest
  exact ⟨t, hrun t hexec, hdst.trans hout, (congrArg (blockOf c) (hc.chain.trans hu.chain)).trans hchain, hrest,
    hc.blkIdx.trans hu.blkIdx, hc.iv.trans hu.iv, hc.ivWr, hkey.trans hu.key, hc.faultSet.trans hu.faultSet,
    fun h => hhost.trans (hu.hostProg h), hout ▸ hu.decrypt_report hf rfl ha hc⟩

/-- Settles O35: the block step encrypts its input block xor CHAIN, and CHAIN takes the result. -/
theorem cbcEncBlockStep : Obligations.CbcEncBlockStep := by
  intro c p s h
  obtain ⟨t, hexec, hwritten, hchain⟩ := h.exec_blockFn rfl
  exact ⟨t, _, hexec, hwritten, rfl, hchain ▸ regBytes_setPrefix_block s.chain (enc_length ..)⟩

/-- Settles O36: the input block is read before the step writes, and CHAIN takes it. -/
theorem cbcDecBlockStep : Obligations.CbcDecBlockStep := by
  intro c p s h
  obtain ⟨t, hexec, hwritten, hchain⟩ := h.exec_blockFn rfl
  exact ⟨t, hexec, hwritten, hchain ▸ regBytes_setPrefix_block s.chain (h.input_block_length rfl)⟩

/-- Settles O41: the finish step puts one block of draws into the IV, and its completion leaves them. -/
theorem genIvFillsTheIv : Obligations.GenIvFillsTheIv := by
  intro c s hs ho hn
  have hiv : regBytes (zeroExtended (drawn s (bs c))) = drawn s (bs c) ++ List.replicate (16 - bs c) 0 := by
    rw [regBytes_zeroExtended (by simpa using bs_le c), drawn_length]
  refine ⟨_, exec_finishStep (Or.inl hs), ?_⟩
  rw [complete_closed (by decide) (by exact ho)]
  refine ⟨by simp [CompletedWith], hiv, rfl, ?_, congrArg (BitVec.ofNat 32) hn, rfl, rfl, rfl, rfl,
    ⟨rfl, rfl, rfl, rfl, rfl, rfl, rfl, rfl, rfl, rfl⟩⟩
  cases c <;> rfl

end

/-! ## The interrupt (60_exceptions.md rules R155, R156) -/

namespace Sys2Proof.Machine

theorem irq_eq_true {s : State} : s.irq = true ↔ s.irqEn = true ∧ s.done = true := Bool.and_eq_true_iff

/-- The causes rule R156 leaves for a rise of IRQ: DONE rises only where the block is idle, and IRQ_EN only where DONE
stays. -/
structure RisesByCause (s t : State) : Prop where
  done : t.done = true → s.done = true ∨ t.seq = .idle
  irqEn : t.irqEn = true → s.irqEn = true ∨ t.done = s.done

theorem risesByCause_of_done_eq {s t : State} (h : t.done = s.done) : RisesByCause s t :=
  ⟨fun hd => Or.inl (h.symm.trans hd), fun _ => Or.inr h⟩

/-- Only DONE and IRQ_EN of the first state matter. -/
theorem RisesByCause.of_source {s s' t : State} (h : RisesByCause s' t) (hd : s'.done = s.done)
    (he : s'.irqEn = s.irqEn) : RisesByCause s t :=
  ⟨hd ▸ h.done, hd ▸ he ▸ h.irqEn⟩

/-- A rise of IRQ is a rise of DONE in an idle block, or a rise of IRQ_EN under a standing DONE. -/
theorem RisesByCause.irq_rise {s t : State} (h : RisesByCause s t) (hs : s.irq = false) (ht : t.irq = true) :
    (s.done = false ∧ t.done = true ∧ t.seq = .idle) ∨ (s.done = true ∧ s.irqEn = false ∧ t.irqEn = true) := by
  obtain ⟨hen, hdone⟩ := irq_eq_true.mp ht
  cases hd : s.done with
  | false => exact Or.inl ⟨rfl, hdone, (h.done hdone).resolve_left (by simp [hd])⟩
  | true =>
    have he : s.irqEn = false := by simpa [State.irq, hd] using hs
    exact Or.inr ⟨rfl, he, hen⟩

/-! ### Commands: DONE is a completion's (rules R81, R92) -/

/-- Acceptance clears DONE, so one that leaves it set has completed the command at once (rules R81, R82). -/
theorem accept_idle_of_done {i : Instr} {s : State} (h : (accept i s).done = true) : (accept i s).seq = .idle := by
  rcases accept_cases i s with ⟨_, ha⟩ | ⟨_, ⟨_, ha⟩ | ⟨_, ha⟩⟩ <;> rw [ha] at h ⊢
  · rw [acceptIllegal_eq]
  · exact complete_seq ..
  · simp at h

theorem afterBlock_done (i : Instr) (f : BlockFn) (s : State) : (afterBlock i f s).done = s.done := by
  simp [afterBlock]

theorem exec_risesByCause {i : Instr} {s t : State} (h : exec i s = .next t) : RisesByCause s t where
  irqEn he := by
    obtain ⟨_, hen, _⟩ := (registersKept_exec h).setup
    exact Or.inl (hen.symm.trans he)
  done hd := by
    by_cases hi : s.seq = .idle
    · rw [exec_idle i hi] at h
      cases h
      exact Or.inr (accept_idle_of_done hd)
    · rcases exec_busy_cases hi h with ⟨f, _, rfl⟩ | ⟨code, s', rfl, _⟩
      · exact Or.inl ((afterBlock_done i f s).symm.trans hd)
      · exact Or.inr (complete_seq ..)

theorem cmdWrite_risesByCause {w : Word} {s t : State} (h : cmdWrite w s = .next t) : RisesByCause s t := by
  unfold cmdWrite at h
  split at h
  · exact exec_risesByCause h
  · cases h
    rw [acceptIllegal_eq]
    exact ⟨fun _ => Or.inr rfl, Or.inl⟩

/-! ### The host: CTRL alone sets IRQ_EN, and STATUS only clears DONE (rules R23, R31) -/

theorem storeReg_risesByCause (r : Reg) (w : Word) (s : State) : RisesByCause s (storeReg r w s) := by
  cases r with
  | status => exact ⟨fun hd => Or.inl (Bool.and_eq_true_iff.mp hd).1, Or.inl⟩
  | _ => exact risesByCause_of_done_eq rfl

theorem regWrite_risesByCause {off : BitVec 8} {size : BusSize} {w : Word} {s t : State}
    (h : regWrite off size w s = .next t) : RisesByCause s t := by
  rcases regWrite_cases off size w s with hc | ⟨_, hc⟩ | ⟨_, hc⟩ | ⟨r, _, _, hc⟩ <;> rw [hc] at h
  · cases h; exact risesByCause_of_done_eq rfl
  · cases h; exact risesByCause_of_done_eq rfl
  · exact (cmdWrite_risesByCause h).of_source rfl rfl
  · cases h; exact (storeReg_risesByCause r w (respond .ack s)).of_source rfl rfl

theorem hostMemWrite_done (a : Word) (b : Byte) (s : State) : (hostMemWrite a b s).done = s.done := by
  unfold hostMemWrite
  simp only
  split <;> rfl

theorem hostMemRead_done (a : Word) (s : State) : (hostMemRead a s).done = s.done := by
  unfold hostMemRead
  split <;> rfl

theorem hostOp_risesByCause {op : HostOp} {s t : State} (h : hostOp op s = .next t) : RisesByCause s t := by
  rcases hostOp_cases op s with ⟨off, size, w, hc⟩ | ⟨a, b, hc⟩ | ⟨a, hc⟩ | ⟨r, n, p, hc⟩ <;> rw [hc] at h
  · exact regWrite_risesByCause h
  · cases h; exact risesByCause_of_done_eq (hostMemWrite_done a b s)
  · cases h; exact risesByCause_of_done_eq (hostMemRead_done a s)
  · cases h; exact risesByCause_of_done_eq rfl

/-! ### Every step -/

/-- Reset leaves the block idle with IRQ_EN clear (rules R49, R166). -/
theorem assertReset_risesByCause (s : State) : RisesByCause s (assertReset s) :=
  ⟨fun _ => Or.inr rfl, fun he => absurd he Bool.false_ne_true⟩

theorem turn_risesByCause {a : Agent} {s t : State} (h : turn a s = .next t) : RisesByCause s t := by
  rcases turn_cases a s with hc | ⟨op, rest, _, hc⟩ | ⟨_, hc⟩ | hc <;> rw [hc] at h
  · cases h; exact risesByCause_of_done_eq rfl
  · exact (hostOp_risesByCause h).of_source rfl rfl
  · exact exec_risesByCause h
  · cases h; exact assertReset_risesByCause s

theorem step_risesByCause {s t : State} (h : step s = .next t) : RisesByCause s t := by
  rcases step_cases s with ⟨_, hc⟩ | ⟨a, rest, _, hc⟩ <;> rw [hc] at h
  · exact turn_risesByCause h
  · exact (turn_risesByCause h).of_source rfl rfl

end Sys2Proof.Machine

section
open Sys2Proof Sys2Proof.Machine

/-- Settles O12: the level is the definition of IRQ, and each agent's turn raises DONE or IRQ_EN only as rule R156 lets
it. -/
theorem interruptRisesOnlyByCompletion : Obligations.InterruptRisesOnlyByCompletion := fun s =>
  ⟨irq_eq_true, ⟨s.irq, rfl, irq_eq_true⟩, fun _ h => (step_risesByCause h).irq_rise⟩

end
